-- ==== Sys2Proof/Word.lean ====
section
/-! DEFINITION. The word of the block: every data register, address, message word and memory word is 32 bits
(00_scope.md R11 P1 and P2, R13, R16). Nothing in the block addresses a byte (20_memory.md R67). -/

namespace Sys2Proof

/-- `Word32`: an unsigned 32-bit word, bit 0 least significant (R13, R16). -/
abbrev Word := BitVec 32

end Sys2Proof
end

