-- ==== Sys2Proof/Config.lean ====
section
/-! DEFINITION. What the block's collaborators answer with, and the one configuration record (00_scope.md R11): every
OPEN parameter P3 to P19, the header layout and the opcode numbers among them (92_eei_decisions.md, list of OPEN
parameters), every oracle and every free value (`draw`, R15) of the spec. The record is held in one opaque constant,
`Config.config`: no proof can see a value of it, so a claim holds for every configuration and every answer. -/

namespace Sys2Proof

/-- R100: the message opcodes by name. -/
inductive MsgOpcode where
  | readMemoryCmd
  | readMemoryAck
  | writeMemoryCmd
  | writeMemoryAck
  | readRegisterCmd
  | readRegisterAck
  | writeRegisterCmd
  | writeRegisterAck
  deriving DecidableEq, Repr, Inhabited

/-- R100: the message opcodes in the order of the table. -/
def allMsgOpcodes : List MsgOpcode :=
  [.readMemoryCmd, .readMemoryAck, .writeMemoryCmd, .writeMemoryAck, .readRegisterCmd, .readRegisterAck,
    .writeRegisterCmd, .writeRegisterAck]

/-- P5: where each header field's lowest bit stands. The widths are those of the fields' types (R91; log 2). -/
structure HeaderLayout where
  opcodeLo : Nat
  dstblkLo : Nat
  acctypeLo : Nat
  datalenLo : Nat
  rsvdLo : Nat
  deriving DecidableEq, Repr, Inhabited

/-- A transport failure of the exchange layer, named by a number that means nothing but "the same" or "another" (R246).
Which numbers name one is P17, the set `TransportErr`, a field of the configuration (log 17). -/
structure TransportErr where
  code : Nat
  deriving DecidableEq, Repr, Inhabited

/-- R245: the closed enumeration of statuses. They are symbolic: no numeric code, no order (R246). The diagnostic tag of
`E_PARAM` and the address of `E_PROTOCOL` are not observable and not held (R245, R270; log 26). -/
inductive Status where
  /-- `OK` -/
  | ok
  /-- `E_PARAM`: a parameter error, detected before any bus or backend call (R247). -/
  | param
  /-- `E_UNAVAIL`: the controller is not attached, not active or has no backend (R248). -/
  | unavail
  /-- `E_PROTOCOL`: an unexpected acknowledge opcode (R249). -/
  | protocol
  /-- `E_TIMEOUT`: the poll bound was reached (R250). -/
  | timeout
  /-- `E_TRANSPORT(t)`: the exchange layer's own failure, unmodified (R251). -/
  | transport (t : TransportErr)
  deriving DecidableEq, Repr, Inhabited

/-- R142: the three routes of the selector. -/
inductive Route where
  | bypass
  | sim
  | bus
  deriving DecidableEq, Repr, Inhabited

/-- P8, P9: a backend, one per hardware generation. Backends differ only in their `info` pair (D22); two generations may
have the same pair, so the generation is kept beside it. -/
structure Backend where
  generation : Nat
  channelCount : Nat
  cmdMemWsize : Nat
  deriving DecidableEq, Repr, Inhabited

/-- R211: a reference to the response data of a completed batch: the channel it points into, and the stamp that tells
one completed batch of that channel from another (log 28). -/
structure RespRef where
  unit : Int
  channel : Nat
  stamp : Nat
  deriving DecidableEq, Repr, Inhabited

/-- R11: the configuration record. In every oracle and draw the first argument is the unit and the second the unit's
`tick`, so that two calls with equal arguments may be answered differently (R71; log 15). -/
structure Configuration where
  /-- P3: `RESP_CAPACITY` less one; the spec's bound `1 <= RESP_CAPACITY <= 31` (R11, R12) is in the type. -/
  respCapacityLess1 : Fin 31
  /-- P5: the header field positions; R91's are `referenceLayout`. Read through `Configuration.headerLayout`. -/
  headerPositions : HeaderLayout
  /-- P6: the opcode numbers; R100's are `referenceNumber`. Read through `Configuration.opcodeNumber`. -/
  opcodeNumbers : MsgOpcode → BitVec 6
  /-- P7: `NUM_UNITS` less one; the spec's bound `>= 1` is in the form. -/
  numUnitsLess1 : Nat
  /-- P8, P9: generation, channel count less one, and command-memory words of the backend of a unit (R231). -/
  backendInfo : Int → Option (Nat × Nat × Nat)
  /-- P10: `is_bypassed(unit, addr_extension, address)`, pure and total (R143). -/
  isBypassed : Int → Word → Word → Bool
  /-- P11: `adext_decode`; its results fit the header fields (R73). -/
  adextDecode : Word → BitVec 5 × BitVec 7
  /-- P12: `SIM_PRESENT`, whether a simulation hook is installed (R28, R141). -/
  simPresent : Bool
  /-- P12: `h.read(u, tagged_address, address, buffer_in, byte_size)` with the tick: the status and the words of
  `buffer_out` (R141). -/
  hookReads : Int → Nat → Word → Word → List Word → Nat → Status × (Nat → Word)
  /-- P12: `h.write(u, tagged_address, address, words, byte_size)` with the tick (R141). -/
  hookWrites : Int → Nat → Word → Word → List Word → Nat → Status
  /-- P13: `TagMem(addr_extension, address)` (R97). -/
  tagMem : Word → Word → Word
  /-- P14: `Exchange(u, cmd, n_cmd, n_resp)` with the tick; `n_cmd` is the length of the command. On success the answer
  gives every response word; exactly `n_resp` of them are taken, so every answer has the right length (R66). -/
  exchanges : Int → Nat → List Word → Nat → Except TransportErr (Nat → Word)
  /-- P17: the numbers that name a transport failure besides 0, which always names one: the set is not empty. -/
  transportErrs : Nat → Bool
  /-- P18: `chan_exec(u, c, command words, index)` with the tick: the response words the operation leaves (R215). -/
  chanExec : Int → Nat → Nat → List Word → Nat → List Word
  /-- P19: read by no rule (R163, R270). -/
  verbose : Bool
  /-- A drawn word of an output buffer after a failure, by index (R83, U15). -/
  freeBufWord : Int → Nat → Nat → Word
  /-- A drawn word of `MSG` beyond a response, by index (R66, U21). -/
  freeMsgWord : Int → Nat → Nat → Word
  /-- A drawn word of the command memory of a channel, by channel and index (R190 line 12, R230 line 8; U16, U17). -/
  freeCmdWord : Int → Nat → Nat → Nat → Word
  /-- The drawn content of the response memory of a channel (R198 line 11, R230 line 8; U17). -/
  freeRespMem : Int → Nat → Nat → List Word
  /-- A drawn opcode: the `opcode` output of a failed `decode_response` (U15). -/
  freeOpcode : Int → Nat → BitVec 6
  /-- A drawn count: an output of `fifo_info_get`, `encode_command` or `fifo_status_get` after a failure (U15). -/
  freeNat : Int → Nat → Nat → Nat
  /-- A drawn word sequence: the `words` output of a failed `decode_response` (U15). -/
  freeWords : Int → Nat → List Word
  /-- A drawn reference: `resp_ref` after a failed `fifo_status_get` (U15). -/
  freeRef : Int → Nat → RespRef
  /-- R207, U23: how many engine steps fall in a `fifo_status_get`. -/
  pollSteps : Int → Nat → Nat
  /-- R207 case (b), U23: whether a poll comes after the engine's last step, so that it sees the completion. -/
  pollSees : Int → Nat → Bool
  deriving Inhabited

/-- P3: `RESP_CAPACITY`. -/
def Configuration.respCapacity (C : Configuration) : Nat := C.respCapacityLess1.val + 1

/-- P4: `MSG_WORDS = RESP_CAPACITY + 2` (R21, D5). -/
def Configuration.msgWords (C : Configuration) : Nat := C.respCapacity + 2

/-- P7: `NUM_UNITS`. -/
def Configuration.numUnits (C : Configuration) : Nat := C.numUnitsLess1 + 1

/-- P8: `backend_of(u)`, with `channel_count >= 1` (P9). -/
def Configuration.backendOf (C : Configuration) (u : Int) : Option Backend :=
  (C.backendInfo u).map fun b => { generation := b.1, channelCount := b.2.1 + 1, cmdMemWsize := b.2.2 }

/-- The configuration of the machine: opaque, so that nothing is known of it but its type (R11, R40). -/
opaque Config.config : Configuration

end Sys2Proof
end

