-- ==== Sys2Proof/Syntax.lean ====
section
/-! DEFINITION. The instructions of the block (00_scope.md R2): the eight message opcodes of 30_encoding.md R100 and the
twelve operations of R107, one constructor per row of spec/opcode_table.json, and the frame a call or a message travels in. -/

namespace Sys2Proof

/-- R91: the fields of a header word beside its opcode. -/
structure HeaderFields where
  dstblk : BitVec 7
  acctype : BitVec 5
  datalen : BitVec 7
  rsvd : BitVec 7
  deriving DecidableEq, Repr, Inhabited

/-- What a host hands the block: a head word (a message header, R91, or an operation ordinal, R107), the scalar operands
in the order of the operation's signature (R104, R105), and the word sequence, which may be absent (D32). The spec gives
the operands of a call no bits, so a scalar is an integer of any size. DESIGN CHOICE, log 1. -/
structure Frame where
  head : Word
  scalars : List Int
  words : Option (List Word)
  deriving DecidableEq, Repr, Inhabited

/-- The operands of `decode_response(MSG, word_count)` (R105, R123). `msg` is the response as an exchange left it in the
buffer; the words of the buffer beyond it are unspecified (R66, U21; log 34). -/
structure ResponseCall where
  msg : List Word
  wordCount : Nat
  deriving DecidableEq, Repr, Inhabited

/-- The instructions. `host` is the unit whose host holds the message buffer the codec works on (10_state.md R25): the
codec's own signatures name no unit (log 8). -/
inductive Instr where
  /-- `READ_MEMORY_CMD` 0x07, a read-command frame: header, address (R93, R100). -/
  | readMemoryCmd (host : Int) (h : HeaderFields) (address : Word)
  /-- `READ_MEMORY_ACK` 0x08, a read-response frame: header, data words. -/
  | readMemoryAck (host : Int) (h : HeaderFields) (data : List Word)
  /-- `WRITE_MEMORY_CMD` 0x09, a write-command frame: header, address, data words. -/
  | writeMemoryCmd (host : Int) (h : HeaderFields) (address : Word) (data : List Word)
  /-- `WRITE_MEMORY_ACK` 0x0A, a write-response frame: header alone. -/
  | writeMemoryAck (host : Int) (h : HeaderFields)
  /-- `READ_REGISTER_CMD` 0x0B, a read-command frame. -/
  | readRegisterCmd (host : Int) (h : HeaderFields) (address : Word)
  /-- `READ_REGISTER_ACK` 0x0C, a read-response frame. -/
  | readRegisterAck (host : Int) (h : HeaderFields) (data : List Word)
  /-- `WRITE_REGISTER_CMD` 0x0D, a write-command frame. -/
  | writeRegisterCmd (host : Int) (h : HeaderFields) (address : Word) (data : List Word)
  /-- `WRITE_REGISTER_ACK` 0x0E, a write-response frame. -/
  | writeRegisterAck (host : Int) (h : HeaderFields)
  /-- Ordinal 0, `encode_command(opcode, acctype, dstblk, address, word_count, words)` (R121). The three field values are
  natural numbers, because a value too large for its field is an operand the spec speaks of (R95). -/
  | encodeCommand (host : Int) (opcode acctype dstblk : Nat) (address : Word) (wordCount : Nat)
      (words : Option (List Word))
  /-- Ordinal 1, `decode_response(MSG, word_count)` (R105, R123). -/
  | decodeResponse (host : Int) (asked : ResponseCall)
  /-- Ordinal 2, `select_route(unit, addr_extension, address)` (R142). -/
  | selectRoute (unit : Int) (ext address : Word)
  /-- Ordinal 3, `mem_read(unit, addr_extension, address, word_count, buf)` (R155). -/
  | memRead (unit : Int) (ext address : Word) (wordCount : Nat) (buf : List Word)
  /-- Ordinal 4, `mem_write(unit, addr_extension, address, words, word_count)` (R164). -/
  | memWrite (unit : Int) (ext address : Word) (words : List Word) (wordCount : Nat)
  /-- Ordinal 5, `fifo_attach(unit)` (R230). -/
  | fifoAttach (unit : Int)
  /-- Ordinal 6, `fifo_detach(unit)` (R236). -/
  | fifoDetach (unit : Int)
  /-- Ordinal 7, `fifo_info_get(unit)` (R183). -/
  | fifoInfoGet (unit : Int)
  /-- Ordinal 8, `fifo_init(unit, max_polls, flags)` (R185). -/
  | fifoInit (unit : Int) (maxPolls flags : Word)
  /-- Ordinal 9, `fifo_ops_send(unit, channel, num_ops, request_words, request_word_size, flags)` (R190). -/
  | fifoOpsSend (unit channel : Int) (numOps : Nat) (requestWords : Option (List Word)) (requestWordSize : Nat)
      (flags : Word)
  /-- Ordinal 10, `fifo_set_start(unit, channel, start)` (R198). -/
  | fifoSetStart (unit channel : Int) (start : Bool)
  /-- Ordinal 11, `fifo_status_get(unit, channel, num_ops, flags, done_ref, resp_ref)` (R205). `doneRef` says whether the
  count cell is present; what the cell held before is never read. `resp_ref` is always present (R206). -/
  | fifoStatusGet (unit channel : Int) (numOps : Nat) (flags : Word) (doneRef : Bool)
  deriving DecidableEq, Repr, Inhabited

/-- The unit an instruction belongs to: its `unit` argument, or the host whose message buffer it works on (R25, R75). -/
def Instr.unit : Instr → Int
  | .readMemoryCmd u _ _ => u
  | .readMemoryAck u _ _ => u
  | .writeMemoryCmd u _ _ _ => u
  | .writeMemoryAck u _ => u
  | .readRegisterCmd u _ _ => u
  | .readRegisterAck u _ _ => u
  | .writeRegisterCmd u _ _ _ => u
  | .writeRegisterAck u _ => u
  | .encodeCommand u _ _ _ _ _ _ => u
  | .decodeResponse u _ => u
  | .selectRoute u _ _ => u
  | .memRead u _ _ _ _ => u
  | .memWrite u _ _ _ _ => u
  | .fifoAttach u => u
  | .fifoDetach u => u
  | .fifoInfoGet u => u
  | .fifoInit u _ _ => u
  | .fifoOpsSend u _ _ _ _ _ => u
  | .fifoSetStart u _ _ => u
  | .fifoStatusGet u _ _ _ _ => u

end Sys2Proof
end

