-- ==== Sys2Proof/WellFormed.lean ====
section
/-! DEFINITION. Which instructions have a frame: all but a write command whose data words are not as many as its header
says (30_encoding.md R93, R96: a write command is `2 + word_count` words and `datalen = 4 * word_count`). Every other
operand value can be asked for: the statuses and refusals of the operations judge it, not this check. -/

namespace Sys2Proof

/-- The data words a write command's header announces: the one place a `datalen` is interpreted (40_codec.md R125). -/
def HeaderFields.wordCount (h : HeaderFields) : Nat := h.datalen.toNat / 4

/-- The check (R93, R125). -/
def Instr.wellFormed : Instr → Bool
  | .writeMemoryCmd _ h _ data => data.length == h.wordCount
  | .writeRegisterCmd _ h _ data => data.length == h.wordCount
  | .readMemoryCmd _ _ _ => true
  | .readMemoryAck _ _ _ => true
  | .writeMemoryAck _ _ => true
  | .readRegisterCmd _ _ _ => true
  | .readRegisterAck _ _ _ => true
  | .writeRegisterAck _ _ => true
  | .encodeCommand _ _ _ _ _ _ _ => true
  | .decodeResponse _ _ => true
  | .selectRoute _ _ _ => true
  | .memRead _ _ _ _ _ => true
  | .memWrite _ _ _ _ _ => true
  | .fifoAttach _ => true
  | .fifoDetach _ => true
  | .fifoInfoGet _ => true
  | .fifoInit _ _ _ => true
  | .fifoOpsSend _ _ _ _ _ _ => true
  | .fifoSetStart _ _ _ => true
  | .fifoStatusGet _ _ _ _ _ => true

end Sys2Proof
end

