-- ==== Sys2Proof/Decode.lean ====
section
/-! DEFINITION. The encoding tables of 30_encoding.md (header layout R91, opcode numbers R100, operation ordinals R107),
the decoder, total on every frame and rejecting by name, and the encoder. Decoder and encoder read and write the words of
spec/opcode_table.json, whose layout and numbers are the reference values of P5 and P6. The messages the block itself
builds and takes apart have the configured ones, `Configuration.headerLayout` and `Configuration.opcodeNumber`: no rule
names a position or a number, so either can be changed in the configuration without touching a rule (R11). -/

namespace Sys2Proof

/-! ## The header word -/

/-- The fields a layout places: each one's lowest bit and width. -/
def HeaderLayout.slots (L : HeaderLayout) : List (Nat × Nat) :=
  [(L.opcodeLo, 6), (L.dstblkLo, 7), (L.acctypeLo, 5), (L.datalenLo, 7), (L.rsvdLo, 7)]

/-- A layout of one 32-bit word: every field inside it, no two overlapping (R90, R91). -/
def HeaderLayout.valid (L : HeaderLayout) : Bool :=
  (L.slots.all fun a => decide (a.1 + a.2 ≤ 32)) &&
    decide (L.slots.Pairwise fun a b => a.1 + a.2 ≤ b.1 ∨ b.1 + b.2 ≤ a.1)

/-- R91: opcode 31:26, dstblk 25:19, acctype 18:14, datalen 13:7, rsvd 6:0. The positions are the spec's decision D3, from
general knowledge, and the layout of spec/opcode_table.json. Log 2. -/
def referenceLayout : HeaderLayout :=
  { opcodeLo := 26, dstblkLo := 19, acctypeLo := 14, datalenLo := 7, rsvdLo := 0 }

/-- P5: the configured layout. The configured positions are taken wherever they are a layout at all (log 2). -/
def Configuration.headerLayout (C : Configuration) : HeaderLayout :=
  if C.headerPositions.valid then C.headerPositions else referenceLayout

/-- R126: the header word, by OR of the shifted fields into a zeroed word (R121 lines 6 to 9). -/
def headerWord (L : HeaderLayout) (opcode : BitVec 6) (h : HeaderFields) : Word :=
  (opcode.setWidth 32 <<< L.opcodeLo) ||| (h.dstblk.setWidth 32 <<< L.dstblkLo) |||
    (h.acctype.setWidth 32 <<< L.acctypeLo) ||| (h.datalen.setWidth 32 <<< L.datalenLo) |||
    (h.rsvd.setWidth 32 <<< L.rsvdLo)

/-- R91: the `opcode` field of a header word. -/
def headerOpcode (L : HeaderLayout) (w : Word) : BitVec 6 := w.extractLsb' L.opcodeLo 6

/-- R91, R125: the other fields of a header word. -/
def headerFields (L : HeaderLayout) (w : Word) : HeaderFields :=
  { dstblk := w.extractLsb' L.dstblkLo 7
    acctype := w.extractLsb' L.acctypeLo 5
    datalen := w.extractLsb' L.datalenLo 7
    rsvd := w.extractLsb' L.rsvdLo 7 }

/-! ## The opcode numbers -/

/-- R100: the opcode numbers. They are the spec's decision D4, from general knowledge, and the numbers of
spec/opcode_table.json. Log 3. -/
def referenceNumber : MsgOpcode → BitVec 6
  | .readMemoryCmd => 0x07
  | .readMemoryAck => 0x08
  | .writeMemoryCmd => 0x09
  | .writeMemoryAck => 0x0A
  | .readRegisterCmd => 0x0B
  | .readRegisterAck => 0x0C
  | .writeRegisterCmd => 0x0D
  | .writeRegisterAck => 0x0E

/-- P6: the configured opcode numbers. The configured table is taken wherever its eight numbers differ, which the
acknowledge check needs (D4; log 3). -/
def Configuration.opcodeNumber (C : Configuration) : MsgOpcode → BitVec 6 :=
  if (allMsgOpcodes.map C.opcodeNumbers).Nodup then C.opcodeNumbers else referenceNumber

/-- R100, R102: the message opcode a 6-bit number stands for in a table of numbers, if any. -/
def msgOpcodeOf (number : MsgOpcode → BitVec 6) (n : BitVec 6) : Option MsgOpcode :=
  allMsgOpcodes.find? fun op => number op == n

/-- R101: `is_read_cmd`. -/
def MsgOpcode.isReadCmd : MsgOpcode → Bool
  | .readMemoryCmd => true
  | .readRegisterCmd => true
  | _ => false

/-- R101: `is_write_cmd`. -/
def MsgOpcode.isWriteCmd : MsgOpcode → Bool
  | .writeMemoryCmd => true
  | .writeRegisterCmd => true
  | _ => false

/-- The opcodes `encode_command` accepts (R101, R102). -/
def MsgOpcode.isCommand (op : MsgOpcode) : Bool := op.isReadCmd || op.isWriteCmd

/-- R101: `ack_of`, defined on the four commands. -/
def MsgOpcode.ackOf : MsgOpcode → Option MsgOpcode
  | .readMemoryCmd => some .readMemoryAck
  | .writeMemoryCmd => some .writeMemoryAck
  | .readRegisterCmd => some .readRegisterAck
  | .writeRegisterCmd => some .writeRegisterAck
  | _ => none

/-! ## The decoder -/

/-- Why a frame encodes no instruction. -/
inductive DecodeError where
  /-- The head is neither one of the eight message headers (R100) nor one of the ordinals 0 to 11 (R107). -/
  | noRow
  /-- The scalars or the presence of the word sequence are not those of the row's signature (R104, R105, D32). -/
  | operandShape
  /-- A message frame is not as long as its shape says (R93). -/
  | frameLength
  /-- A Word32 operand is not in `0 .. 2^32 - 1` (R16). -/
  | wordRange
  /-- A count is negative (R16). -/
  | countRange
  /-- A two-valued operand is neither 0 nor 1 (R198, R205). -/
  | boolRange
  deriving DecidableEq, Repr

/-- A Word32 operand (R16). -/
def readWord (n : Int) : Except DecodeError Word :=
  if 0 ≤ n ∧ n < 4294967296 then .ok (BitVec.ofInt 32 n) else .error .wordRange

/-- A count operand (R16). -/
def readCount (n : Int) : Except DecodeError Nat :=
  if 0 ≤ n then .ok n.toNat else .error .countRange

/-- A two-valued operand. -/
def readBool (n : Int) : Except DecodeError Bool :=
  if n = 0 then .ok false else if n = 1 then .ok true else .error .boolRange

/-- The words of a read command after its header: the address (R93). -/
def addressOnly (row : Word → Instr) : List Word → Except DecodeError Instr
  | [address] => .ok (row address)
  | _ => .error .frameLength

/-- The words of a write command after its header: the address, then `n` data words (R93). -/
def addressAndData (n : Nat) (row : Word → List Word → Instr) : List Word → Except DecodeError Instr
  | [] => .error .frameLength
  | address :: data => if data.length = n then .ok (row address data) else .error .frameLength

/-- A write response has no word after its header (R93). -/
def headerOnly (row : Instr) : List Word → Except DecodeError Instr
  | [] => .ok row
  | _ => .error .frameLength

/-- A message frame on the bus of unit `host`: its shape decides its length (R93). -/
def decodeMessage (op : MsgOpcode) (h : HeaderFields) (host : Int) (body : List Word) : Except DecodeError Instr :=
  match op with
  | .readMemoryCmd => addressOnly (.readMemoryCmd host h) body
  | .readMemoryAck => .ok (.readMemoryAck host h body)
  | .writeMemoryCmd => addressAndData h.wordCount (.writeMemoryCmd host h) body
  | .writeMemoryAck => headerOnly (.writeMemoryAck host h) body
  | .readRegisterCmd => addressOnly (.readRegisterCmd host h) body
  | .readRegisterAck => .ok (.readRegisterAck host h body)
  | .writeRegisterCmd => addressAndData h.wordCount (.writeRegisterCmd host h) body
  | .writeRegisterAck => headerOnly (.writeRegisterAck host h) body

/-- Ordinal 0 (R121). -/
def decodeEncodeCommand (xs : List Int) (ws : Option (List Word)) : Except DecodeError Instr :=
  match xs with
  | [host, opcode, acctype, dstblk, address, n] => do
    let opcode ← readCount opcode
    let acctype ← readCount acctype
    let dstblk ← readCount dstblk
    let address ← readWord address
    let n ← readCount n
    .ok (.encodeCommand host opcode acctype dstblk address n ws)
  | _ => .error .operandShape

/-- Ordinal 1 (R123); the word sequence is the response in `MSG`. -/
def decodeDecodeResponse (xs : List Int) (ws : Option (List Word)) : Except DecodeError Instr :=
  match xs, ws with
  | [host, n], some msg => do
    let n ← readCount n
    .ok (.decodeResponse host { msg := msg, wordCount := n })
  | _, _ => .error .operandShape

/-- Ordinal 2 (R142). -/
def decodeSelectRoute (xs : List Int) (ws : Option (List Word)) : Except DecodeError Instr :=
  match xs, ws with
  | [unit, ext, address], none => do
    let ext ← readWord ext
    let address ← readWord address
    .ok (.selectRoute unit ext address)
  | _, _ => .error .operandShape

/-- Ordinal 3 (R155). -/
def decodeMemRead (xs : List Int) (ws : Option (List Word)) : Except DecodeError Instr :=
  match xs, ws with
  | [unit, ext, address, n], some buf => do
    let ext ← readWord ext
    let address ← readWord address
    let n ← readCount n
    .ok (.memRead unit ext address n buf)
  | _, _ => .error .operandShape

/-- Ordinal 4 (R164). -/
def decodeMemWrite (xs : List Int) (ws : Option (List Word)) : Except DecodeError Instr :=
  match xs, ws with
  | [unit, ext, address, n], some words => do
    let ext ← readWord ext
    let address ← readWord address
    let n ← readCount n
    .ok (.memWrite unit ext address words n)
  | _, _ => .error .operandShape

/-- Ordinals 5, 6 and 7 (R230, R236, R183): the unit alone. -/
def decodeUnitOnly (row : Int → Instr) (xs : List Int) (ws : Option (List Word)) : Except DecodeError Instr :=
  match xs, ws with
  | [unit], none => .ok (row unit)
  | _, _ => .error .operandShape

/-- Ordinal 8 (R185). -/
def decodeFifoInit (xs : List Int) (ws : Option (List Word)) : Except DecodeError Instr :=
  match xs, ws with
  | [unit, maxPolls, flags], none => do
    let maxPolls ← readWord maxPolls
    let flags ← readWord flags
    .ok (.fifoInit unit maxPolls flags)
  | _, _ => .error .operandShape

/-- Ordinal 9 (R190); the word sequence is `request_words`, absent or present. -/
def decodeFifoOpsSend (xs : List Int) (ws : Option (List Word)) : Except DecodeError Instr :=
  match xs with
  | [unit, channel, numOps, size, flags] => do
    let numOps ← readCount numOps
    let size ← readCount size
    let flags ← readWord flags
    .ok (.fifoOpsSend unit channel numOps ws size flags)
  | _ => .error .operandShape

/-- Ordinal 10 (R198). -/
def decodeFifoSetStart (xs : List Int) (ws : Option (List Word)) : Except DecodeError Instr :=
  match xs, ws with
  | [unit, channel, start], none => do
    let start ← readBool start
    .ok (.fifoSetStart unit channel start)
  | _, _ => .error .operandShape

/-- Ordinal 11 (R205); the last scalar says whether `done_ref` is present. -/
def decodeFifoStatusGet (xs : List Int) (ws : Option (List Word)) : Except DecodeError Instr :=
  match xs, ws with
  | [unit, channel, numOps, flags, doneRef], none => do
    let numOps ← readCount numOps
    let flags ← readWord flags
    let doneRef ← readBool doneRef
    .ok (.fifoStatusGet unit channel numOps flags doneRef)
  | _, _ => .error .operandShape

/-- R107: the operation an ordinal selects; 12 to 15, and every larger number, select nothing. -/
def decodeCall (ordinal : Nat) (xs : List Int) (ws : Option (List Word)) : Except DecodeError Instr :=
  match ordinal with
  | 0 => decodeEncodeCommand xs ws
  | 1 => decodeDecodeResponse xs ws
  | 2 => decodeSelectRoute xs ws
  | 3 => decodeMemRead xs ws
  | 4 => decodeMemWrite xs ws
  | 5 => decodeUnitOnly .fifoAttach xs ws
  | 6 => decodeUnitOnly .fifoDetach xs ws
  | 7 => decodeUnitOnly .fifoInfoGet xs ws
  | 8 => decodeFifoInit xs ws
  | 9 => decodeFifoOpsSend xs ws
  | 10 => decodeFifoSetStart xs ws
  | 11 => decodeFifoStatusGet xs ws
  | _ => .error .noRow

/-- The decoder. A head whose opcode field is a message opcode is a header (R100, mask `0xFC00_0000`); any other head is
an ordinal, with every bit above the 4-bit field zero (R107). -/
def decode (f : Frame) : Except DecodeError Instr :=
  match msgOpcodeOf referenceNumber (headerOpcode referenceLayout f.head) with
  | some op =>
    match f.scalars, f.words with
    | [host], some body => decodeMessage op (headerFields referenceLayout f.head) host body
    | _, _ => .error .operandShape
  | none => decodeCall f.head.toNat f.scalars f.words

/-! ## The encoder -/

/-- A message frame (R93). -/
def messageFrame (op : MsgOpcode) (host : Int) (h : HeaderFields) (body : List Word) : Frame :=
  { head := headerWord referenceLayout (referenceNumber op) h, scalars := [host], words := some body }

/-- A call frame: ordinal, scalars, word sequence (R107). -/
def callFrame (ordinal : Nat) (scalars : List Int) (words : Option (List Word)) : Frame :=
  { head := BitVec.ofNat 32 ordinal, scalars := scalars, words := words }

/-- A Word32 operand as a scalar. -/
def wordScalar (w : Word) : Int := w.toNat

/-- A two-valued operand as a scalar. -/
def boolScalar (b : Bool) : Int := if b then 1 else 0

/-- The frame of an instruction. -/
def encode : Instr → Frame
  | .readMemoryCmd host h address => messageFrame .readMemoryCmd host h [address]
  | .readMemoryAck host h data => messageFrame .readMemoryAck host h data
  | .writeMemoryCmd host h address data => messageFrame .writeMemoryCmd host h (address :: data)
  | .writeMemoryAck host h => messageFrame .writeMemoryAck host h []
  | .readRegisterCmd host h address => messageFrame .readRegisterCmd host h [address]
  | .readRegisterAck host h data => messageFrame .readRegisterAck host h data
  | .writeRegisterCmd host h address data => messageFrame .writeRegisterCmd host h (address :: data)
  | .writeRegisterAck host h => messageFrame .writeRegisterAck host h []
  | .encodeCommand host opcode acctype dstblk address n words =>
    callFrame 0 [host, opcode, acctype, dstblk, wordScalar address, n] words
  | .decodeResponse host asked => callFrame 1 [host, asked.wordCount] (some asked.msg)
  | .selectRoute unit ext address => callFrame 2 [unit, wordScalar ext, wordScalar address] none
  | .memRead unit ext address n buf => callFrame 3 [unit, wordScalar ext, wordScalar address, n] (some buf)
  | .memWrite unit ext address words n => callFrame 4 [unit, wordScalar ext, wordScalar address, n] (some words)
  | .fifoAttach unit => callFrame 5 [unit] none
  | .fifoDetach unit => callFrame 6 [unit] none
  | .fifoInfoGet unit => callFrame 7 [unit] none
  | .fifoInit unit maxPolls flags => callFrame 8 [unit, wordScalar maxPolls, wordScalar flags] none
  | .fifoOpsSend unit channel numOps words size flags =>
    callFrame 9 [unit, channel, numOps, size, wordScalar flags] words
  | .fifoSetStart unit channel start => callFrame 10 [unit, channel, boolScalar start] none
  | .fifoStatusGet unit channel numOps flags doneRef =>
    callFrame 11 [unit, channel, numOps, wordScalar flags, boolScalar doneRef] none

/-! ## Words of the opcode table -/

/-- Word `i` of an instruction whose bits are `w`, counted from bit 0 of its first word. -/
def tableWordAt (w i : Nat) : Word := BitVec.ofNat 32 (w >>> (32 * i))

/-- How many words follow the header in the frame the table's row stands for (R93); a response is taken with no data
words, since only its requester knows how many it asked for (R99). -/
def bodyWords (op : MsgOpcode) (h : HeaderFields) : Nat :=
  if op.isWriteCmd then 1 + h.wordCount else if op.isReadCmd then 1 else 0

/-- A call with every operand zero, an optional word sequence absent and a mandatory one empty. -/
def zeroCall (ordinal : Nat) : Frame :=
  match ordinal with
  | 0 => callFrame 0 [0, 0, 0, 0, 0, 0] none
  | 1 => callFrame 1 [0, 0] (some [])
  | 2 => callFrame 2 [0, 0, 0] none
  | 3 => callFrame 3 [0, 0, 0, 0] (some [])
  | 4 => callFrame 4 [0, 0, 0, 0] (some [])
  | 8 => callFrame 8 [0, 0, 0] none
  | 9 => callFrame 9 [0, 0, 0, 0, 0] none
  | 10 => callFrame 10 [0, 0, 0] none
  | 11 => callFrame 11 [0, 0, 0, 0, 0] none
  | n => callFrame n [0] none

/-- The frame of the instruction whose first `nbits` bits are `w` and every further bit is zero. -/
def frameOfBits (nbits w : Nat) : Frame :=
  let bits := w % 2 ^ nbits
  let head := tableWordAt bits 0
  match msgOpcodeOf referenceNumber (headerOpcode referenceLayout head) with
  | some op =>
    { head := head
      scalars := [0]
      words := some ((List.range (bodyWords op (headerFields referenceLayout head))).map fun i => tableWordAt bits (i + 1)) }
  | none => { zeroCall head.toNat with head := head }

/-- The instruction the decoder reads from those bits. -/
def decodeTableWord (nbits w : Nat) : Option Instr :=
  match decode (frameOfBits nbits w) with
  | .ok i => some i
  | .error _ => none

end Sys2Proof
end

