-- ==== Sys2Proof/Machine/Tables.lean ====
section
/-! DEFINITION. Sparse tables: lists of key and value with strictly rising keys, in which a key that is not listed has a
value fixed beforehand. The registry (44_registry_lifecycle.md R229), a unit's channels (10_state.md R34) and a command
memory (20_memory.md R63) are such tables. -/

namespace Sys2Proof.Machine

variable {κ α : Type} [LinearOrder κ]

/-- The value listed under a key. -/
def tableFind (k : κ) : List (κ × α) → Option α
  | [] => none
  | e :: m => if k = e.1 then some e.2 else tableFind k m

/-- The table with a key listed with a value, in its place among the rising keys. -/
def tableInsert (k : κ) (v : α) : List (κ × α) → List (κ × α)
  | [] => [(k, v)]
  | e :: m => if k = e.1 then (k, v) :: m else if k < e.1 then (k, v) :: e :: m else e :: tableInsert k v m

/-- The table with a key no longer listed. -/
def tableErase (k : κ) (m : List (κ × α)) : List (κ × α) := m.filter fun e => e.1 ≠ k

/-- The value of a key in a table whose unlisted keys have the value `d`. -/
def tableGet (d : α) (m : List (κ × α)) (k : κ) : α := (tableFind k m).getD d

/-- The table with a key given a value; a key given the value `d` is not listed. -/
def tableSet [DecidableEq α] (d : α) (m : List (κ × α)) (k : κ) (v : α) : List (κ × α) :=
  if v = d then tableErase k m else tableInsert k v m

/-- The table in which each of the keys `0 .. n-1` has its value under `f`, and every other key the value `d`. -/
def tableBuild {α : Type} [DecidableEq α] (d : α) (n : Nat) (f : Nat → α) : List (Nat × α) :=
  ((List.range n).map fun k => (k, f k)).filter fun e => e.2 ≠ d

/-- The keys rise strictly. -/
def tableSorted : List (κ × α) → Bool
  | [] => true
  | [_] => true
  | e :: e' :: m => decide (e.1 < e'.1) && tableSorted (e' :: m)

/-- The one canonical form of a table: keys strictly rising, no entry with the value of an unlisted key. -/
def tableCanonical [DecidableEq α] (d : α) (m : List (κ × α)) : Bool :=
  tableSorted m && m.all fun e => decide (e.2 ≠ d)

end Sys2Proof.Machine
end

