-- ==== Sys2Proof/Machine/State.lean ====
section
/-! DEFINITION. The state of the block (10_state.md), as plain data, and its reset (R41, R280). INVENTORY.md lists every
field with its rule. -/

namespace Sys2Proof.Machine

/-- R34: the lifecycle of a channel. -/
inductive ChState where
  | idle
  | queued
  | running
  deriving DecidableEq, Repr, Inhabited

/-- A command memory (20_memory.md R60, R63): word index and word, indices strictly rising. Every word of an existing
channel's memory, `0 .. CMD_MEM_WSIZE-1`, is listed; an index that is not listed is outside the memory (log 12). -/
abbrev Memory := List (Nat × Word)

/-- R34: the state of one channel. -/
structure Channel where
  /-- `CHSTATE` -/
  state : ChState
  /-- `START` (R28) -/
  start : Bool
  /-- `NUM_OPS` -/
  numOps : Nat
  /-- `DONE` (R27) -/
  done : Nat
  /-- `TIMEDOUT` (R28, R36) -/
  timedOut : Bool
  /-- `CMDLEN` -/
  cmdLen : Nat
  /-- `CMDMEM` -/
  cmdMem : Memory
  /-- `RESPMEM`; a drawn content after attach and abort (R230 line 8, R198 line 11; log 12) -/
  respMem : List Word
  /-- R211: the stamp of the one response reference that is still good, if any (log 28) -/
  respRef : Option Nat
  deriving DecidableEq, Repr, Inhabited

/-- What is read for a channel that does not exist, as every channel at process start (R34, R41): Idle, counters 0, a
command memory of no words (`CMD_MEM_WSIZE = 0`) and an empty response memory (log 12). -/
def Channel.reset : Channel :=
  { state := .idle, start := false, numOps := 0, done := 0, timedOut := false, cmdLen := 0, cmdMem := [],
    respMem := [], respRef := none }

/-- What the last operation of a unit's host gave its caller (R155, R164, R183, R205 and the signatures of R104, R105):
the status and the outputs. -/
inductive Result where
  /-- No operation has returned yet. -/
  | nothing
  /-- `mem_write`, `fifo_attach`, `fifo_detach`, `fifo_init`, `fifo_ops_send`, `fifo_set_start`. -/
  | status (st : Status)
  /-- `encode_command`: status and `n_cmd`. -/
  | encoded (st : Status) (nCmd : Nat)
  /-- `decode_response`: status, opcode, words. -/
  | decoded (st : Status) (opcode : BitVec 6) (words : List Word)
  /-- `select_route`: no status (R142). -/
  | route (r : Route)
  /-- `mem_read`: status and the caller's buffer after the call. -/
  | read (st : Status) (buf : List Word)
  /-- `fifo_info_get`: status, `channel_count`, `command_memory_word_size`. -/
  | info (st : Status) (channelCount cmdMemWsize : Nat)
  /-- `fifo_status_get`: status, the count cell where there is one, the response reference. -/
  | completion (st : Status) (doneOps : Option Nat) (ref : RespRef)
  /-- The words a host read through a response reference (R211). -/
  | response (words : List Word)
  deriving DecidableEq, Repr, Inhabited

/-- Everything the block holds for one unit: the controller (R30), its channels (R34), the message buffer of the unit's
host (R21, R25), and what the host was last given. -/
structure UnitState where
  /-- `PRESENT` -/
  present : Bool
  /-- `ACTIVE` -/
  active : Bool
  /-- `BOUND` -/
  bound : Bool
  /-- `OPS` -/
  ops : Option Backend
  /-- `CHANNEL_COUNT` -/
  channelCount : Nat
  /-- `CMD_MEM_WSIZE` -/
  cmdMemWsize : Nat
  /-- `MAX_POLLS` -/
  maxPolls : Word
  /-- `INIT_FLAGS` -/
  initFlags : Word
  /-- the channels, by index; an unlisted one is `Channel.reset` -/
  channels : List (Nat × Channel)
  /-- `MSG`, from word 0; a word past the end of the list is 0 -/
  msg : List Word
  /-- what the last operation returned -/
  result : Result
  /-- the model's own: the index of the unit's next draw or oracle answer (log 15) -/
  tick : Nat
  deriving DecidableEq, Repr, Inhabited

/-- R41, R280: a unit at process start. -/
def UnitState.reset : UnitState :=
  { present := false, active := false, bound := false, ops := none, channelCount := 0, cmdMemWsize := 0, maxPolls := 0,
    initFlags := 0, channels := [], msg := [], result := .nothing, tick := 0 }

/-- What may happen next at the block's boundary (R17, R20). -/
inductive Event where
  /-- A host calls an operation, or a message frame reaches its codec. -/
  | call (f : Frame)
  /-- The engine of channel `(unit, channel)` is given the chance to take its step (R215). -/
  | engine (unit : Int) (channel : Nat)
  /-- Two host calls that overlap in time (R74, R75). -/
  | overlap (first second : Frame)
  /-- The host of the unit the reference points into reads through it (R211). -/
  | readResponse (ref : RespRef)
  deriving DecidableEq, Repr, Inhabited

/-- The block. -/
structure State where
  /-- `SIM_PRESENT` (R28): the configured value, constant for a run -/
  simPresent : Bool
  /-- the registry and the hosts' buffers, by unit; an unlisted unit is `UnitState.reset` -/
  units : List (Int × UnitState)
  /-- the model's own: the events to come, oldest first (log 4) -/
  inbox : List Event
  deriving DecidableEq, Repr, Inhabited

/-- R41, R280: the block at process start, with no event to come. -/
def State.reset : State := { simPresent := Config.config.simPresent, units := [], inbox := [] }

/-- The reason a step stops the machine. The block itself has no fault (R252: every failure is a status returned to the
caller), and no instruction faults. -/
inductive Fault where
  /-- Raised by the step for an engine event that names an engine the block does not have (R20). Safe: no rule gives such
  an event a meaning, and the machine stops (log 21). -/
  | noSuchEngine (unit : Int) (channel : Nat)
  deriving DecidableEq, Repr

/-- The spec's `refuse(reason)` (R15; 93_implementation_defined.md section 2): the call has no meaning. Every one is safe:
no claim can be proved of what follows. -/
inductive Refusal where
  /-- An instruction exec has no meaning for. No arm answers it now. Safe. -/
  | notModelled (mnemonic : String)
  /-- Raised by the step for a frame that encodes nothing (R107: ordinals 12 to 15 select nothing). Safe. -/
  | undecodable (why : DecodeError)
  /-- U1, R102: raised by `encode_command` for a 6-bit opcode that is no command. Safe. -/
  | unknownCommandOpcode
  /-- U2, R95: raised by `encode_command` for a field value that does not fit. Safe. -/
  | fieldOverflow
  /-- U3: raised by `encode_command` and `mem_write` for fewer words than `word_count`. Safe. -/
  | shortWords
  /-- U4: raised by `mem_read` for a buffer shorter than `word_count`. Safe. -/
  | shortBuffer
  /-- U5, R74: raised by the step for two overlapping calls on one unit. Safe. -/
  | unserialised
  /-- U6, R211: raised by the step for a read through a dead response reference. Safe. -/
  | deadResponseReference
  /-- U7: raised by `fifo_ops_send` for fewer words than `request_word_size`. Safe. -/
  | shortRequest
  /-- U8, R194: raised by `fifo_ops_send` on a Running channel that has not timed out. Safe. -/
  | opsSendWhileRunning
  /-- U9, R199: raised by `fifo_set_start(true)` on an Idle channel. Safe. -/
  | startWithoutBatch
  /-- U10, R199: raised by `fifo_set_start(true)` on a Running channel. Safe. -/
  | startWhileRunning
  /-- U11, R210: raised by `fifo_status_get` on a Running channel for another count than the batch's. Safe. -/
  | numOpsMismatch
  /-- U13, R186: raised by `fifo_init`, `fifo_ops_send` and `fifo_status_get` for nonzero flags. Safe. -/
  | flagsMeaning
  /-- U14, R233: raised by `fifo_attach` of a unit with a channel Running. Safe. -/
  | attachWhileRunning
  deriving DecidableEq, Repr

end Sys2Proof.Machine
end

