-- ==== Sys2Proof/Machine/Ops.lean ====
section
/-! DEFINITION. The named operations over the state: units and channels, command memory, the message buffer, the exchange
layer, and the return of a status to the caller, which stands here in the place of taking an exception (60_exceptions.md
R252: "Raise" is "return"). -/

namespace Sys2Proof

/-! ## The oracles (00_scope.md R11 P12, P14, P17) -/

/-- P17: the transport failures there are. -/
def Configuration.isTransportErr (C : Configuration) (t : TransportErr) : Bool := t.code == 0 || C.transportErrs t.code

/-- The failure an oracle names, kept within P17; where its answer lies in P17 it is that answer. -/
def Configuration.transportErr (C : Configuration) (t : TransportErr) : TransportErr :=
  if C.isTransportErr t then t else { code := 0 }

/-- A status a hook may choose: any, its transport failures within P17 (R251). -/
def Configuration.hookStatus (C : Configuration) : Status → Status
  | .ok => .ok
  | .param => .param
  | .unavail => .unavail
  | .protocol => .protocol
  | .timeout => .timeout
  | .transport t => .transport (C.transportErr t)

/-- P12: the hook's answer to a read (R141). -/
def Configuration.hookRead (C : Configuration) (u : Int) (tick : Nat) (tagged address : Word) (buf : List Word)
    (size : Nat) : Status × (Nat → Word) :=
  (C.hookStatus (C.hookReads u tick tagged address buf size).1, (C.hookReads u tick tagged address buf size).2)

/-- P12: the hook's answer to a write (R141). -/
def Configuration.hookWrite (C : Configuration) (u : Int) (tick : Nat) (tagged address : Word) (words : List Word)
    (size : Nat) : Status :=
  C.hookStatus (C.hookWrites u tick tagged address words size)

/-- P14: the exchange layer's answer (R66). -/
def Configuration.exchange (C : Configuration) (u : Int) (tick : Nat) (cmd : List Word) (nResp : Nat) :
    Except TransportErr (Nat → Word) :=
  match C.exchanges u tick cmd nResp with
  | .ok answer => .ok answer
  | .error t => .error (C.transportErr t)

namespace Machine

/-- The outcome of a step of this machine. -/
abbrev Outcome := Host.Outcome State Fault Refusal

/-! ## Units and channels -/

/-- Everything held for unit `u` (R229). -/
def unitAt (s : State) (u : Int) : UnitState := tableGet UnitState.reset s.units u

/-- The state with unit `u` replaced. -/
def setUnit (s : State) (u : Int) (us : UnitState) : State :=
  { s with units := tableSet UnitState.reset s.units u us }

/-- Channel `c` of a unit (R34). -/
def channelAt (us : UnitState) (c : Nat) : Channel := tableGet Channel.reset us.channels c

/-- The unit with channel `c` replaced. -/
def setChannel (us : UnitState) (c : Nat) (ch : Channel) : UnitState :=
  { us with channels := tableSet Channel.reset us.channels c ch }

/-! ## Returning to the caller -/

/-- The end of an operation: the caller is given status and outputs, and the unit's next draw is another one. `raise S`
(R14, R252) is this with a failure status: nothing is saved, no mode changes, no handler runs. -/
def UnitState.finish (us : UnitState) (r : Result) : UnitState := { us with result := r, tick := us.tick + 1 }

/-- One host operation on unit `u`: refused, or one atomic change of that unit and nothing else (R17, R75). -/
def perform (s : State) (u : Int) (refusal : Option Refusal) (effect : UnitState → UnitState) : Outcome :=
  match refusal with
  | some r => .refused r
  | none => .next (setUnit s u (effect (unitAt s u)))

/-! ## Command memory (20_memory.md R63) -/

/-- A word of the memory; none where the memory has no such word. -/
def Memory.read (m : Memory) (i : Nat) : Option Word := tableFind i m

/-- The memory with one word written. -/
def Memory.write (m : Memory) (i : Nat) (w : Word) : Memory := tableInsert i w m

/-- The memory with consecutive words written from index `i` on (R190 line 11). -/
def Memory.writeAll (m : Memory) (i : Nat) : List Word → Memory
  | [] => m
  | w :: ws => Memory.writeAll (Memory.write m i w) (i + 1) ws

/-- The memory with the words `lo .. hi-1` drawn (R190 line 12). -/
def Memory.redraw (m : Memory) (lo hi : Nat) (draw : Nat → Word) : Memory :=
  Memory.writeAll m lo ((List.range (hi - lo)).map fun k => draw (lo + k))

/-- The canonical form of a memory: indices strictly rising. An unlisted word does not exist, so no entry can equal it. -/
def Memory.wf (m : Memory) : Bool := tableSorted m

/-- The words `0 .. n-1` as the engine reads them (R215 line 1). -/
def Memory.words (m : Memory) (n : Nat) : List Word := (List.range n).filterMap (Memory.read m)

/-! ## The message buffer (10_state.md R21 to R24) -/

/-- `x[i]`, which is `MSG[i]` (R14). -/
def msgWord (us : UnitState) (i : Nat) : Word := us.msg.getD i 0

/-- The buffer holding a command frame, every other word 0 (R120, R121 line 5). -/
def msgWithCommand (C : Configuration) (frame : List Word) : List Word :=
  frame ++ List.replicate (C.msgWords - frame.length) 0

/-- The buffer holding a response; the words after it are drawn (R66, U21; log 10). -/
def msgWithResponse (C : Configuration) (u : Int) (tick : Nat) (resp : List Word) : List Word :=
  resp ++ (List.range (C.msgWords - resp.length)).map fun i => C.freeMsgWord u tick (resp.length + i)

/-- The opcode of the response in the buffer (R123 line 2). -/
def responseOpcode (C : Configuration) (us : UnitState) : BitVec 6 := headerOpcode C.headerLayout (msgWord us 0)

/-- The data words of the response in the buffer: `x[1] .. x[n]` (R123 line 3). -/
def responseWords (us : UnitState) (n : Nat) : List Word := (List.range n).map fun i => msgWord us (1 + i)

/-! ## The exchange layer (20_memory.md R66) -/

/-- `Exchange(u, cmd, len(cmd), n_resp)`: exactly `n_resp` words, or a transport failure. -/
def exchangeWords (C : Configuration) (u : Int) (tick : Nat) (cmd : List Word) (nResp : Nat) :
    Except TransportErr (List Word) :=
  match C.exchange u tick cmd nResp with
  | .ok answer => .ok ((List.range nResp).map answer)
  | .error t => .error t

/-- The words a drawn output buffer of length `n` holds after a failure (R83, U15; log 11). -/
def freeBuffer (C : Configuration) (u : Int) (tick : Nat) (n : Nat) : List Word :=
  (List.range n).map (C.freeBufWord u tick)

end Machine

end Sys2Proof
end

