-- ==== Sys2Proof/Machine/Flags.lean ====
section
/-! DEFINITION. Every flag of 10_state.md R28 as it is computed and tested: the availability of a unit (R182, R240), the
range of a channel index (R222), and the flags a channel's transitions set and clear (R28, R220). -/

namespace Sys2Proof.Machine

/-- `0 <= u < NUM_UNITS`: the registry has a slot for `u` (R229, R230 line 1). -/
def unitInRange (C : Configuration) (u : Int) : Bool := decide (0 ≤ u) && decide (u < C.numUnits)

/-- R182: `avail(u)`. -/
def avail (C : Configuration) (u : Int) (us : UnitState) : Bool :=
  us.present && us.active && us.bound && unitInRange C u

/-- `c < 0 or c >= CHANNEL_COUNT[u]`, on signed integers (R191, R222). -/
def badChannel (us : UnitState) (c : Int) : Bool := decide (c < 0) || decide ((us.channelCount : Int) ≤ c)

/-- `exists c: CHSTATE[u][c] = Running` (R230 line 2). -/
def someChannelRunning (us : UnitState) : Bool :=
  us.channels.any fun e => decide ((channelAt us e.1).state = .running)

/-- R230 line 8: channel `c` of a freshly attached controller: Idle, counters 0, both memories drawn (U17). -/
def attachedChannel (C : Configuration) (u : Int) (tick wsize c : Nat) : Channel :=
  { Channel.reset with
    cmdMem := Memory.redraw [] 0 wsize (C.freeCmdWord u tick c), respMem := C.freeRespMem u tick c }

/-- R230 lines 4 to 14: the flags, the record and the channels of a freshly attached controller. -/
def attachedUnit (C : Configuration) (u : Int) (backend : Option Backend) (us : UnitState) : UnitState :=
  let count := (backend.map Backend.channelCount).getD 0
  let wsize := (backend.map Backend.cmdMemWsize).getD 0
  { us with
    present := true, active := true, bound := backend.isSome, ops := backend
    channelCount := count, cmdMemWsize := wsize
    maxPolls := 0, initFlags := 0
    channels := tableBuild Channel.reset count (attachedChannel C u us.tick wsize) }

/-- R190 lines 10 to 18: a channel with a new batch; the words of the command memory beyond it are drawn (U16). The
response reference dies (R211). -/
def queuedChannel (wsize numOps : Nat) (words : List Word) (size : Nat) (draw : Nat → Word) (ch : Channel) : Channel :=
  { ch with
    start := false, cmdMem := (ch.cmdMem.writeAll 0 (words.take size)).redraw size wsize draw, cmdLen := size
    numOps := numOps, done := 0, timedOut := false, respMem := [], respRef := none, state := .queued }

/-- R198 line 5: a started channel. -/
def startedChannel (ch : Channel) : Channel := { ch with start := true, state := .running }

/-- R198 lines 10 and 11: an aborted channel; its response memory is drawn (U17) and its reference dead (R201, R211). -/
def abortedChannel (drawn : List Word) (ch : Channel) : Channel :=
  { ch with
    start := false, numOps := 0, done := 0, timedOut := false, cmdLen := 0, respMem := drawn, respRef := none
    state := .idle }

/-- R205 lines 11 to 13: a completed channel; its response memory is kept and `stamp` names the reference to it. -/
def completedChannel (stamp : Nat) (ch : Channel) : Channel :=
  { ch with
    start := false, numOps := 0, done := 0, timedOut := false, cmdLen := 0, respRef := some stamp, state := .idle }

/-- R205 line 15: a Running channel whose poll bound was reached. -/
def timedOutChannel (ch : Channel) : Channel := { ch with timedOut := true }

end Sys2Proof.Machine
end

