-- ==== Sys2Proof/Machine/Operands.lean ====
section
/-! DEFINITION. The operand forms: the checks an operation makes of its arguments (30_encoding.md R95, R102, R103) and the
frames it assembles from them (R91 to R96, R125). -/

namespace Sys2Proof.Machine

/-- R101, R102: the command opcode a value stands for under the configured numbers, if any. -/
def commandOf (C : Configuration) (opcode : Nat) : Option MsgOpcode :=
  (msgOpcodeOf C.opcodeNumber (BitVec.ofNat 6 opcode)).filter MsgOpcode.isCommand

/-- `word_count > RESP_CAPACITY` (R103). -/
def overCapacity (C : Configuration) (n : Nat) : Bool := decide (C.respCapacity < n)

/-- The words of an optional word sequence; an absent one has none (log 23). -/
def presentWords (words : Option (List Word)) : List Word := words.getD []

/-- R121 lines 6 to 9: a command's header; `datalen` is `4 * word_count` (R96) and `rsvd` is 0 (R94). -/
def commandHeader (C : Configuration) (op : MsgOpcode) (acctype dstblk n : Nat) : Word :=
  headerWord C.headerLayout (C.opcodeNumber op)
    { dstblk := BitVec.ofNat 7 dstblk, acctype := BitVec.ofNat 5 acctype, datalen := BitVec.ofNat 7 (4 * n), rsvd := 0 }

/-- R121 lines 6 to 15: the frame of a command: header, address, and for a write the first `n` words. Its length is
`n_cmd` (R93). -/
def commandFrame (C : Configuration) (op : MsgOpcode) (acctype dstblk : Nat) (address : Word) (n : Nat)
    (words : List Word) : List Word :=
  commandHeader C op acctype dstblk n :: address :: (if op.isWriteCmd then words.take n else [])

/-- What R125 reads out of a command frame. -/
structure CommandFields where
  opcode : BitVec 6
  fields : HeaderFields
  address : Word
  words : List Word
  deriving DecidableEq, Repr

/-- R125: the inverse of R121, for a fixture that stands in for the chip. -/
def commandFields (C : Configuration) (x : List Word) : CommandFields :=
  let header := x.getD 0 0
  let fields := headerFields C.headerLayout header
  { opcode := headerOpcode C.headerLayout header
    fields := fields
    address := x.getD 1 0
    words := if (commandOf C (headerOpcode C.headerLayout header).toNat).any MsgOpcode.isWriteCmd then
        (List.range fields.wordCount).map fun i => x.getD (2 + i) 0
      else [] }

/-- R158: what a successful read leaves in the caller's buffer: the words read, and beyond them what stood there. -/
def mergedBuffer (out buf : List Word) (n : Nat) : List Word := out ++ buf.drop n

/-- R98: the `byte_size` argument of the hook. -/
def byteSize (n : Nat) : Nat := 4 * n

/-- R256: the parameter checks of `fifo_ops_send` (R190 lines 2 to 5, R191). -/
def opsSendBadParam (us : UnitState) (c : Int) (numOps : Nat) (words : Option (List Word)) (size : Nat) : Bool :=
  badChannel us c || decide (numOps = 0) || words.isNone || decide (us.cmdMemWsize < size)

/-- R256: the parameter checks of `fifo_status_get` (R205 lines 2 to 4, R206). -/
def statusGetBadParam (us : UnitState) (c : Int) (numOps : Nat) (doneRef : Bool) : Bool :=
  badChannel us c || decide (numOps = 0) || !doneRef

end Sys2Proof.Machine
end

