-- ==== Sys2Proof/Machine/Codec.lean ====
section
/-! DEFINITION. The message codec (40_codec.md): `encode_command`, `decode_response`, and the eight message opcodes of
30_encoding.md R100, whose rows of the opcode table rest on those two (R121 for a command, R123 for an acknowledge;
log 6). -/

namespace Sys2Proof.Machine

/-- R121 lines 2 and 4 for a command opcode. A call that line 3 answers `E_PARAM` is not refused for short words. -/
def buildRefusal (C : Configuration) (op : MsgOpcode) (acctype dstblk n : Nat) (words : List Word) : Option Refusal :=
  if 32 ≤ acctype ∨ 128 ≤ dstblk then some .fieldOverflow
  else if op.isWriteCmd && decide (words.length < n) then
    if overCapacity C n then none else some .shortWords
  else none

/-- R121 lines 3 and 5 to 16. -/
def buildReturn (C : Configuration) (u : Int) (op : MsgOpcode) (acctype dstblk : Nat) (address : Word) (n : Nat)
    (words : List Word) (us : UnitState) : UnitState :=
  if overCapacity C n then us.finish (.encoded .param (C.freeNat u us.tick 0))
  else
    let frame := commandFrame C op acctype dstblk address n words
    { us with msg := msgWithCommand C frame }.finish (.encoded .ok frame.length)

/-- R121 from line 2 on: a command with an opcode that is one. -/
def buildCommand (C : Configuration) (u : Int) (op : MsgOpcode) (acctype dstblk : Nat) (address : Word) (n : Nat)
    (words : List Word) (s : State) : Outcome :=
  perform s u (buildRefusal C op acctype dstblk n words) (buildReturn C u op acctype dstblk address n words)

/-- `encode_command` (R121). An opcode of more than six bits is U2 (log 22). -/
def encodeCommand (C : Configuration) (u : Int) (opcode acctype dstblk : Nat) (address : Word) (n : Nat)
    (words : List Word) (s : State) : Outcome :=
  if 64 ≤ opcode then .refused .fieldOverflow
  else
    match commandOf C opcode with
    | none => .refused .unknownCommandOpcode
    | some op => buildCommand C u op acctype dstblk address n words s

/-- R123, on a buffer that holds `response` as an exchange left it (R66). The buffer an earlier operation left is not read
(R24, R171; log 34), and this one is read only. -/
def decodeReturn (C : Configuration) (u : Int) (response : List Word) (n : Nat) (us : UnitState) : UnitState :=
  if overCapacity C n then
    us.finish (.decoded .param (C.freeOpcode u us.tick) (C.freeWords u us.tick))
  else
    let got := { us with msg := msgWithResponse C u us.tick response }
    us.finish (.decoded .ok (responseOpcode C got) (responseWords got n))

/-- `decode_response` (R123). -/
def decodeResponse (C : Configuration) (u : Int) (response : List Word) (n : Nat) (s : State) : Outcome :=
  perform s u none (decodeReturn C u response n)

/-- A command message of the opcode table: the codec builds the command with that opcode from the frame's own fields
(R121, R125). -/
def commandMessage (C : Configuration) (op : MsgOpcode) (u : Int) (h : HeaderFields) (address : Word)
    (data : List Word) (s : State) : Outcome :=
  buildCommand C u op h.acctype.toNat h.dstblk.toNat address h.wordCount data s

/-- A response frame reaches the message buffer (R66) and the codec takes it apart (R123). A response of more data words
than the capacity is the parameter error of R123 and does not reach the buffer, which could not hold it (log 24). -/
def responseReturn (C : Configuration) (op : MsgOpcode) (u : Int) (h : HeaderFields) (data : List Word)
    (us : UnitState) : UnitState :=
  let response := headerWord C.headerLayout (C.opcodeNumber op) h :: data
  if overCapacity C data.length then decodeReturn C u response data.length us
  else decodeReturn C u response data.length { us with msg := msgWithResponse C u us.tick response }

/-- An acknowledge message of the opcode table (R123). -/
def responseMessage (C : Configuration) (op : MsgOpcode) (u : Int) (h : HeaderFields) (data : List Word)
    (s : State) : Outcome :=
  perform s u none (responseReturn C op u h data)

/-! ## The meanings -/

/-- `READ_MEMORY_CMD` (R100, R121). -/
def execReadMemoryCmd (host : Int) (h : HeaderFields) (address : Word) (s : State) : Outcome :=
  commandMessage Config.config .readMemoryCmd host h address [] s

/-- `READ_MEMORY_ACK` (R100, R123). -/
def execReadMemoryAck (host : Int) (h : HeaderFields) (data : List Word) (s : State) : Outcome :=
  responseMessage Config.config .readMemoryAck host h data s

/-- `WRITE_MEMORY_CMD` (R100, R121). -/
def execWriteMemoryCmd (host : Int) (h : HeaderFields) (address : Word) (data : List Word) (s : State) : Outcome :=
  commandMessage Config.config .writeMemoryCmd host h address data s

/-- `WRITE_MEMORY_ACK` (R100, R123). -/
def execWriteMemoryAck (host : Int) (h : HeaderFields) (s : State) : Outcome :=
  responseMessage Config.config .writeMemoryAck host h [] s

/-- `READ_REGISTER_CMD` (R100, R121). -/
def execReadRegisterCmd (host : Int) (h : HeaderFields) (address : Word) (s : State) : Outcome :=
  commandMessage Config.config .readRegisterCmd host h address [] s

/-- `READ_REGISTER_ACK` (R100, R123). -/
def execReadRegisterAck (host : Int) (h : HeaderFields) (data : List Word) (s : State) : Outcome :=
  responseMessage Config.config .readRegisterAck host h data s

/-- `WRITE_REGISTER_CMD` (R100, R121). -/
def execWriteRegisterCmd (host : Int) (h : HeaderFields) (address : Word) (data : List Word) (s : State) : Outcome :=
  commandMessage Config.config .writeRegisterCmd host h address data s

/-- `WRITE_REGISTER_ACK` (R100, R123). -/
def execWriteRegisterAck (host : Int) (h : HeaderFields) (s : State) : Outcome :=
  responseMessage Config.config .writeRegisterAck host h [] s

/-- Ordinal 0, `encode_command` (R121). -/
def execEncodeCommand (host : Int) (opcode acctype dstblk : Nat) (address : Word) (n : Nat)
    (words : Option (List Word)) (s : State) : Outcome :=
  encodeCommand Config.config host opcode acctype dstblk address n (presentWords words) s

/-- Ordinal 1, `decode_response` (R123). -/
def execDecodeResponse (host : Int) (asked : ResponseCall) (s : State) : Outcome :=
  decodeResponse Config.config host asked.msg asked.wordCount s

end Sys2Proof.Machine
end

