-- ==== Sys2Proof/Machine/Engine.lean ====
section
/-! DEFINITION. The channel engine (43_fifo_controller.md R215 to R217), an agent of its own beside the host. -/

namespace Sys2Proof.Machine

/-- R20: the engines there are. -/
def engineExists (C : Configuration) (u : Int) (c : Nat) (us : UnitState) : Bool :=
  unitInRange C u && decide (c < us.channelCount)

/-- R215: the engine's step is enabled. `ACTIVE` is not read (R238). -/
def engineEnabled (ch : Channel) : Bool := decide (ch.state = .running) && decide (ch.done < ch.numOps)

/-- R215 lines 2 and 3: the channel after one completed operation that left `piece`. -/
def completedOp (piece : List Word) (ch : Channel) : Channel :=
  { ch with respMem := ch.respMem ++ piece, done := ch.done + 1 }

/-- R215: `engine_step(u, c)`; a step that is not enabled is not taken. -/
def engineStep (C : Configuration) (u : Int) (c : Nat) (us : UnitState) : UnitState :=
  let ch := channelAt us c
  if engineEnabled ch then
    let piece := C.chanExec u us.tick c (ch.cmdMem.words ch.cmdLen) ch.done
    { setChannel us c (completedOp piece ch) with tick := us.tick + 1 }
  else us

/-- `k` engine steps of one channel, one after another (R207). -/
def engineRun (C : Configuration) (u : Int) (c : Nat) : Nat → UnitState → UnitState
  | 0, us => us
  | k + 1, us => engineRun C u c k (engineStep C u c us)

end Sys2Proof.Machine
end

