-- ==== Sys2Proof/Machine/Fifo.lean ====
section
/-! DEFINITION. The FIFO channel controller (43_fifo_controller.md): the five controller operations. Each is checked in
the order of R256: availability, parameters, refusals, effect. -/

namespace Sys2Proof.Machine

/-! ## fifo_info_get -/

/-- R183. -/
def infoGetReturn (C : Configuration) (u : Int) (us : UnitState) : UnitState :=
  if avail C u us then us.finish (.info .ok us.channelCount us.cmdMemWsize)
  else us.finish (.info .unavail (C.freeNat u us.tick 0) (C.freeNat u us.tick 1))

/-- `fifo_info_get` (R183). -/
def fifoInfoGet (C : Configuration) (u : Int) (s : State) : Outcome := perform s u none (infoGetReturn C u)

/-! ## fifo_init -/

/-- R185 line 2 (R186). -/
def initRefusal (C : Configuration) (u : Int) (flags : Word) (us : UnitState) : Option Refusal :=
  if avail C u us && decide (flags ≠ 0) then some .flagsMeaning else none

/-- R185. -/
def initReturn (C : Configuration) (u : Int) (maxPolls flags : Word) (us : UnitState) : UnitState :=
  if avail C u us then { us with maxPolls := maxPolls, initFlags := flags }.finish (.status .ok)
  else us.finish (.status .unavail)

/-- `fifo_init` (R185). -/
def fifoInit (C : Configuration) (u : Int) (maxPolls flags : Word) (s : State) : Outcome :=
  perform s u (initRefusal C u flags (unitAt s u)) (initReturn C u maxPolls flags)

/-! ## fifo_ops_send -/

/-- R190 lines 6 to 9. -/
def opsSendRefusal (C : Configuration) (u c : Int) (numOps : Nat) (words : Option (List Word)) (size : Nat)
    (flags : Word) (us : UnitState) : Option Refusal :=
  if !avail C u us then none
  else if opsSendBadParam us c numOps words size then none
  else if flags ≠ 0 then some .flagsMeaning
  else if (presentWords words).length < size then some .shortRequest
  else if (channelAt us c.toNat).state = .running ∧ (channelAt us c.toNat).timedOut = false then
    some .opsSendWhileRunning
  else none

/-- R190 lines 1 to 5 and 10 to 19. -/
def opsSendReturn (C : Configuration) (u c : Int) (numOps : Nat) (words : Option (List Word)) (size : Nat)
    (us : UnitState) : UnitState :=
  if !avail C u us then us.finish (.status .unavail)
  else if opsSendBadParam us c numOps words size then us.finish (.status .param)
  else
    (setChannel us c.toNat
      (queuedChannel us.cmdMemWsize numOps (presentWords words) size (C.freeCmdWord u us.tick c.toNat)
        (channelAt us c.toNat))).finish (.status .ok)

/-- `fifo_ops_send` (R190). -/
def fifoOpsSend (C : Configuration) (u c : Int) (numOps : Nat) (words : Option (List Word)) (size : Nat) (flags : Word)
    (s : State) : Outcome :=
  perform s u (opsSendRefusal C u c numOps words size flags (unitAt s u)) (opsSendReturn C u c numOps words size)

/-! ## fifo_set_start -/

/-- R198 lines 6 and 7 (R199). -/
def setStartRefusal (C : Configuration) (u c : Int) (start : Bool) (us : UnitState) : Option Refusal :=
  if !avail C u us then none
  else if badChannel us c then none
  else if start then
    match (channelAt us c.toNat).state with
    | .queued => none
    | .idle => some .startWithoutBatch
    | .running => some .startWhileRunning
  else none

/-- R198 lines 3 to 13: the channel after start is asserted (on a Queued channel) or de-asserted. -/
def setStartChannel (drawn : List Word) (start : Bool) (ch : Channel) : Channel :=
  if start then startedChannel ch
  else
    match ch.state with
    | .running => abortedChannel drawn ch
    | .queued => ch
    | .idle => ch

/-- R198. -/
def setStartReturn (C : Configuration) (u c : Int) (start : Bool) (us : UnitState) : UnitState :=
  if !avail C u us then us.finish (.status .unavail)
  else if badChannel us c then us.finish (.status .param)
  else
    (setChannel us c.toNat
      (setStartChannel (C.freeRespMem u us.tick c.toNat) start (channelAt us c.toNat))).finish (.status .ok)

/-- `fifo_set_start` (R198). -/
def fifoSetStart (C : Configuration) (u c : Int) (start : Bool) (s : State) : Outcome :=
  perform s u (setStartRefusal C u c start (unitAt s u)) (setStartReturn C u c start)

/-! ## fifo_status_get -/

/-- R205 lines 5 and 6 (R186, R210). -/
def statusGetRefusal (C : Configuration) (u c : Int) (numOps : Nat) (flags : Word) (doneRef : Bool) (us : UnitState) :
    Option Refusal :=
  if !avail C u us then none
  else if statusGetBadParam us c numOps doneRef then none
  else if flags ≠ 0 then some .flagsMeaning
  else if (channelAt us c.toNat).state = .running ∧ numOps ≠ (channelAt us c.toNat).numOps then some .numOpsMismatch
  else none

/-- A failed `fifo_status_get`: the count cell, where there is one, and the reference are drawn (R83, R205). -/
def failedStatusGet (C : Configuration) (u : Int) (st : Status) (doneRef : Bool) (us : UnitState) : UnitState :=
  us.finish (.completion st (if doneRef then some (C.freeNat u us.tick 0) else none) (C.freeRef u us.tick))

/-- R207: how many engine steps fall in the call, a draw between 0 and `NUM_OPS - DONE`. -/
def pollSteps (C : Configuration) (u : Int) (us : UnitState) (ch : Channel) : Nat :=
  min (C.pollSteps u us.tick) (ch.numOps - ch.done)

/-- R207: some poll sees the completion. With no poll none does (c); where the batch was complete on entry the first poll
does (a); where it became complete during the call a poll may come after the engine's last step or not (b). -/
def pollSucceeds (C : Configuration) (u : Int) (us : UnitState) (numOps : Nat) (onEntry after : Channel) : Bool :=
  decide (us.maxPolls ≠ 0) &&
    (decide (onEntry.done = numOps) || (decide (after.done = numOps) && C.pollSees u us.tick))

/-- R205 lines 7 to 16 on a Running channel, in the atomic reading of R207. -/
def pollRunning (C : Configuration) (u : Int) (c numOps : Nat) (doneRef : Bool) (us : UnitState) : UnitState :=
  let ch := channelAt us c
  let polled := engineRun C u c (pollSteps C u us ch) us
  let ch' := channelAt polled c
  if pollSucceeds C u us numOps ch ch' then
    (setChannel polled c (completedChannel polled.tick ch')).finish
      (.completion .ok (if doneRef then some numOps else none) { unit := u, channel := c, stamp := polled.tick })
  else failedStatusGet C u .timeout doneRef (setChannel polled c (timedOutChannel ch'))

/-- R205. -/
def statusGetReturn (C : Configuration) (u c : Int) (numOps : Nat) (doneRef : Bool) (us : UnitState) : UnitState :=
  if !avail C u us then failedStatusGet C u .unavail doneRef us
  else if statusGetBadParam us c numOps doneRef then failedStatusGet C u .param doneRef us
  else
    match (channelAt us c.toNat).state with
    | .running => pollRunning C u c.toNat numOps doneRef us
    | .idle => failedStatusGet C u .timeout doneRef us
    | .queued => failedStatusGet C u .timeout doneRef us

/-- `fifo_status_get` (R205). -/
def fifoStatusGet (C : Configuration) (u c : Int) (numOps : Nat) (flags : Word) (doneRef : Bool) (s : State) :
    Outcome :=
  perform s u (statusGetRefusal C u c numOps flags doneRef (unitAt s u)) (statusGetReturn C u c numOps doneRef)

/-! ## Reading through a response reference -/

/-- R211: the reference points into that channel and is still good. -/
def refAlive (us : UnitState) (ref : RespRef) : Bool :=
  decide ((channelAt us ref.channel).respRef = some ref.stamp)

/-- R211: a host reads the response data through a reference; through a dead one the read has no meaning (U6). -/
def readResponse (ref : RespRef) (s : State) : Outcome :=
  perform s ref.unit (if refAlive (unitAt s ref.unit) ref then none else some .deadResponseReference) fun us =>
    us.finish (.response (channelAt us ref.channel).respMem)

/-! ## The meanings -/

/-- Ordinal 7, `fifo_info_get` (R183). -/
def execFifoInfoGet (unit : Int) (s : State) : Outcome := fifoInfoGet Config.config unit s

/-- Ordinal 8, `fifo_init` (R185). -/
def execFifoInit (unit : Int) (maxPolls flags : Word) (s : State) : Outcome :=
  fifoInit Config.config unit maxPolls flags s

/-- Ordinal 9, `fifo_ops_send` (R190). -/
def execFifoOpsSend (unit channel : Int) (numOps : Nat) (words : Option (List Word)) (size : Nat) (flags : Word)
    (s : State) : Outcome :=
  fifoOpsSend Config.config unit channel numOps words size flags s

/-- Ordinal 10, `fifo_set_start` (R198). -/
def execFifoSetStart (unit channel : Int) (start : Bool) (s : State) : Outcome :=
  fifoSetStart Config.config unit channel start s

/-- Ordinal 11, `fifo_status_get` (R205). -/
def execFifoStatusGet (unit channel : Int) (numOps : Nat) (flags : Word) (doneRef : Bool) (s : State) : Outcome :=
  fifoStatusGet Config.config unit channel numOps flags doneRef s

end Sys2Proof.Machine
end

