-- ==== Sys2Proof/Machine/Selector.lean ====
section
/-! DEFINITION. The bypass/simulation selector (41_selector.md). -/

namespace Sys2Proof.Machine

/-- R142, R144: the three-way multiplexer. -/
def routeOf (C : Configuration) (simPresent : Bool) (u : Int) (ext address : Word) : Route :=
  if C.isBypassed u ext address then .bypass
  else if simPresent then .sim
  else .bus

/-- `select_route` (R142). -/
def selectRoute (C : Configuration) (u : Int) (ext address : Word) (s : State) : Outcome :=
  perform s u none fun us => us.finish (.route (routeOf C s.simPresent u ext address))

/-- Ordinal 2, `select_route` (R142). -/
def execSelectRoute (unit : Int) (ext address : Word) (s : State) : Outcome :=
  selectRoute Config.config unit ext address s

end Sys2Proof.Machine
end

