-- ==== Sys2Proof/Machine/Pio.lean ====
section
/-! DEFINITION. The PIO transaction engine (42_pio_engine.md): `mem_read` and `mem_write`. Neither reads or writes any
controller or channel state (R171, R239), and the message buffer they write is scratch that no later operation reads
(R24; log 34). -/

namespace Sys2Proof.Machine

/-! ## mem_read -/

/-- R155 line 5, reached only by a read that is neither bypassed nor over capacity. -/
def memReadRefusal (C : Configuration) (u : Int) (ext address : Word) (n : Nat) (buf : List Word) : Option Refusal :=
  if buf.length < n then
    if C.isBypassed u ext address || overCapacity C n then none else some .shortBuffer
  else none

/-- A read that fails: every word of the caller's buffer is drawn (R83). -/
def failedRead (C : Configuration) (u : Int) (st : Status) (buf : List Word) (us : UnitState) : UnitState :=
  us.finish (.read st (freeBuffer C u us.tick buf.length))

/-- R155 lines 7 to 9: the hook answers in place of the bus (R158). -/
def simRead (C : Configuration) (u : Int) (ext address : Word) (n : Nat) (buf : List Word) (us : UnitState) :
    UnitState :=
  let answer := C.hookRead u us.tick (C.tagMem ext address) address (buf.take n) (byteSize n)
  if answer.1 = .ok then us.finish (.read .ok (mergedBuffer ((List.range n).map answer.2) buf n))
  else failedRead C u answer.1 buf us

/-- R155 lines 10 and 11: the read command (R159). -/
def readCommand (C : Configuration) (ext address : Word) (n : Nat) : List Word :=
  commandFrame C .readMemoryCmd (C.adextDecode ext).1.toNat (C.adextDecode ext).2.toNat address n []

/-- R155 lines 10 to 17: one exchange, its failure passed on, its acknowledge opcode checked (R159 to R161). -/
def busRead (C : Configuration) (u : Int) (ext address : Word) (n : Nat) (buf : List Word) (us : UnitState) :
    UnitState :=
  let cmd := readCommand C ext address n
  match exchangeWords C u us.tick cmd (1 + n) with
  | .error t => failedRead C u (.transport t) buf { us with msg := msgWithCommand C cmd }
  | .ok resp =>
    let got := { us with msg := msgWithResponse C u us.tick resp }
    if responseOpcode C got = C.opcodeNumber .readMemoryAck then
      got.finish (.read .ok (mergedBuffer (responseWords got n) buf n))
    else failedRead C u .protocol buf got

/-- R155, in the order of its checks (R255). -/
def memReadReturn (C : Configuration) (simPresent : Bool) (u : Int) (ext address : Word) (n : Nat) (buf : List Word)
    (us : UnitState) : UnitState :=
  if C.isBypassed u ext address then us.finish (.read .ok buf)
  else if overCapacity C n then failedRead C u .param buf us
  else if simPresent then simRead C u ext address n buf us
  else busRead C u ext address n buf us

/-- `mem_read` (R155). -/
def memRead (C : Configuration) (u : Int) (ext address : Word) (n : Nat) (buf : List Word) (s : State) : Outcome :=
  perform s u (memReadRefusal C u ext address n buf) (memReadReturn C s.simPresent u ext address n buf)

/-! ## mem_write -/

/-- R164 line 5, reached only by a write that is neither bypassed nor over capacity. -/
def memWriteRefusal (C : Configuration) (u : Int) (ext address : Word) (words : List Word) (n : Nat) : Option Refusal :=
  if words.length < n then
    if C.isBypassed u ext address || overCapacity C n then none else some .shortWords
  else none

/-- R164 lines 9 and 10: the write command (R167). -/
def writeCommand (C : Configuration) (ext address : Word) (words : List Word) (n : Nat) : List Word :=
  commandFrame C .writeMemoryCmd (C.adextDecode ext).1.toNat (C.adextDecode ext).2.toNat address n words

/-- R164 lines 9 to 16: one exchange for one response word, whose opcode is checked (R167, R168). -/
def busWrite (C : Configuration) (u : Int) (ext address : Word) (words : List Word) (n : Nat) (us : UnitState) :
    UnitState :=
  let cmd := writeCommand C ext address words n
  match exchangeWords C u us.tick cmd 1 with
  | .error t => { us with msg := msgWithCommand C cmd }.finish (.status (.transport t))
  | .ok resp =>
    let got := { us with msg := msgWithResponse C u us.tick resp }
    if responseOpcode C got = C.opcodeNumber .writeMemoryAck then got.finish (.status .ok)
    else got.finish (.status .protocol)

/-- R164, in the order of its checks (R255). -/
def memWriteReturn (C : Configuration) (simPresent : Bool) (u : Int) (ext address : Word) (words : List Word) (n : Nat)
    (us : UnitState) : UnitState :=
  if C.isBypassed u ext address then us.finish (.status .ok)
  else if overCapacity C n then us.finish (.status .param)
  else if simPresent then
    us.finish (.status (C.hookWrite u us.tick (C.tagMem ext address) address (words.take n) (byteSize n)))
  else busWrite C u ext address words n us

/-- `mem_write` (R164). -/
def memWrite (C : Configuration) (u : Int) (ext address : Word) (words : List Word) (n : Nat) (s : State) : Outcome :=
  perform s u (memWriteRefusal C u ext address words n) (memWriteReturn C s.simPresent u ext address words n)

/-! ## The meanings -/

/-- Ordinal 3, `mem_read` (R155). -/
def execMemRead (unit : Int) (ext address : Word) (n : Nat) (buf : List Word) (s : State) : Outcome :=
  memRead Config.config unit ext address n buf s

/-- Ordinal 4, `mem_write` (R164). -/
def execMemWrite (unit : Int) (ext address : Word) (words : List Word) (n : Nat) (s : State) : Outcome :=
  memWrite Config.config unit ext address words n s

end Sys2Proof.Machine
end

