-- ==== Sys2Proof/Machine/Registry.lean ====
section
/-! DEFINITION. The registry and its lifecycle (44_registry_lifecycle.md): `fifo_attach` and `fifo_detach`. -/

namespace Sys2Proof.Machine

/-- R230 line 2, after line 1 (R257): a unit of the registry with a channel Running. -/
def attachRefusal (C : Configuration) (u : Int) (us : UnitState) : Option Refusal :=
  if someChannelRunning us && unitInRange C u then some .attachWhileRunning else none

/-- R230. -/
def attachReturn (C : Configuration) (u : Int) (us : UnitState) : UnitState :=
  if unitInRange C u then (attachedUnit C u (C.backendOf u) us).finish (.status .ok)
  else us.finish (.status .unavail)

/-- `fifo_attach` (R230). -/
def fifoAttach (C : Configuration) (u : Int) (s : State) : Outcome :=
  perform s u (attachRefusal C u (unitAt s u)) (attachReturn C u)

/-- R236: only `ACTIVE` is written (R32); neither `ACTIVE` nor `BOUND` is tested (R237). -/
def detachReturn (C : Configuration) (u : Int) (us : UnitState) : UnitState :=
  if us.present && unitInRange C u then { us with active := false }.finish (.status .ok)
  else us.finish (.status .unavail)

/-- `fifo_detach` (R236). -/
def fifoDetach (C : Configuration) (u : Int) (s : State) : Outcome := perform s u none (detachReturn C u)

/-- Ordinal 5, `fifo_attach` (R230). -/
def execFifoAttach (unit : Int) (s : State) : Outcome := fifoAttach Config.config unit s

/-- Ordinal 6, `fifo_detach` (R236). -/
def execFifoDetach (unit : Int) (s : State) : Outcome := fifoDetach Config.config unit s

end Sys2Proof.Machine
end

