-- ==== Sys2Proof/Machine/Dispatch.lean ====
section
/-! DEFINITION. One arm per instruction, each one call of its meaning. -/

namespace Sys2Proof.Machine

def exec (i : Instr) (s : State) : Host.Outcome State Fault Refusal :=
  match i with
  -- the message opcodes (30_encoding.md R100)
  | .readMemoryCmd host h address => Sys2Proof.Machine.execReadMemoryCmd host h address s
  | .readMemoryAck host h data => Sys2Proof.Machine.execReadMemoryAck host h data s
  | .writeMemoryCmd host h address data => Sys2Proof.Machine.execWriteMemoryCmd host h address data s
  | .writeMemoryAck host h => Sys2Proof.Machine.execWriteMemoryAck host h s
  | .readRegisterCmd host h address => Sys2Proof.Machine.execReadRegisterCmd host h address s
  | .readRegisterAck host h data => Sys2Proof.Machine.execReadRegisterAck host h data s
  | .writeRegisterCmd host h address data => Sys2Proof.Machine.execWriteRegisterCmd host h address data s
  | .writeRegisterAck host h => Sys2Proof.Machine.execWriteRegisterAck host h s
  -- the operations (30_encoding.md R107)
  | .encodeCommand host opcode acctype dstblk address n words => Sys2Proof.Machine.execEncodeCommand host opcode acctype dstblk address n words s
  | .decodeResponse host asked => Sys2Proof.Machine.execDecodeResponse host asked s
  | .selectRoute unit ext address => Sys2Proof.Machine.execSelectRoute unit ext address s
  | .memRead unit ext address n buf => Sys2Proof.Machine.execMemRead unit ext address n buf s
  | .memWrite unit ext address words n => Sys2Proof.Machine.execMemWrite unit ext address words n s
  | .fifoAttach unit => Sys2Proof.Machine.execFifoAttach unit s
  | .fifoDetach unit => Sys2Proof.Machine.execFifoDetach unit s
  | .fifoInfoGet unit => Sys2Proof.Machine.execFifoInfoGet unit s
  | .fifoInit unit maxPolls flags => Sys2Proof.Machine.execFifoInit unit maxPolls flags s
  | .fifoOpsSend unit channel numOps words size flags => Sys2Proof.Machine.execFifoOpsSend unit channel numOps words size flags s
  | .fifoSetStart unit channel start => Sys2Proof.Machine.execFifoSetStart unit channel start s
  | .fifoStatusGet unit channel numOps flags doneRef => Sys2Proof.Machine.execFifoStatusGet unit channel numOps flags doneRef s

end Sys2Proof.Machine
end

