-- ==== Sys2Proof/Machine/Schedule.lean ====
section
/-! DEFINITION. What one event does: a host call fetched as a frame and decoded, an engine's step, two overlapping calls,
a read through a response reference (00_scope.md R17, 10_state.md R20, 20_memory.md R74 to R76). -/

namespace Sys2Proof.Machine

/-- A host call: the frame's instruction runs. -/
def runCall (f : Frame) (s : State) : Outcome :=
  match decode f with
  | .ok i => exec i s
  | .error e => .refused (.undecodable e)

/-- An engine is given the chance to step (R215); one that has no enabled step takes none (R217). -/
def runEngine (u : Int) (c : Nat) (s : State) : Outcome :=
  if engineExists Config.config u c (unitAt s u) then
    .next (setUnit s u (engineStep Config.config u c (unitAt s u)))
  else .fault (.noSuchEngine u c)

/-- Two overlapping calls: on one unit they have no meaning (R74, R78); on two units neither sees the other, so they run
one after the other (R75). -/
def runOverlap (first second : Frame) (s : State) : Outcome :=
  match decode first, decode second with
  | .ok a, .ok b =>
    if a.unit = b.unit then .refused .unserialised
    else
      match exec a s with
      | .next t => exec b t
      | .fault r => .fault r
      | .refused r => .refused r
  | .error e, _ => .refused (.undecodable e)
  | _, .error e => .refused (.undecodable e)

/-- One event. -/
def runEvent (e : Event) (s : State) : Outcome :=
  match e with
  | .call f => runCall f s
  | .engine u c => runEngine u c s
  | .overlap first second => runOverlap first second s
  | .readResponse ref => readResponse ref s

/-- The oldest event is taken from the inbox and happens; with nothing to come nothing happens (log 5). -/
def nextEvent (s : State) : Outcome :=
  match s.inbox with
  | [] => .next s
  | e :: rest => runEvent e { s with inbox := rest }

/-- A call placed before every event to come (log 4). -/
def placeCall (s : State) (f : Frame) : State := { s with inbox := .call f :: s.inbox }

end Sys2Proof.Machine
end

