-- ==== Sys2Proof/Machine/Step.lean ====
section
/-! DEFINITION. One step of the machine, and the place it fetches from: the head of the inbox. -/

namespace Sys2Proof.Machine

/-- One step: the oldest event happens. -/
def step (s : State) : Host.Outcome State Fault Refusal := nextEvent s

/-- The state in which the next step fetches and runs the instruction with those bits (log 4). -/
def State.withFetchWord (s : State) (nbits w : Nat) : State := placeCall s (frameOfBits nbits w)

end Sys2Proof.Machine
end

