-- ==== Sys2Proof/Safety.lean ====
section
/-! DEFINITION. The terms claims are made in: what an operation leaves unchanged, the invariant of the block (10_state.md
R30, R35; 44_registry_lifecycle.md R240), the table of channel transitions (43_fifo_controller.md R220), the statuses each
operation may return (60_exceptions.md R275), and the echoing target of 40_codec.md R127. -/

namespace Sys2Proof.Machine

/-! ## Frames -/

/-- The units besides `u`, the configuration flag and the events to come are unchanged (R75). -/
structure OnlyUnit (u : Int) (s t : State) : Prop where
  others : ∀ v, v ≠ u → unitAt t v = unitAt s v
  simPresent : t.simPresent = s.simPresent
  inbox : t.inbox = s.inbox

/-- The controller's fields are unchanged (R30). -/
structure SameController (a b : UnitState) : Prop where
  present : b.present = a.present
  active : b.active = a.active
  bound : b.bound = a.bound
  ops : b.ops = a.ops
  channelCount : b.channelCount = a.channelCount
  cmdMemWsize : b.cmdMemWsize = a.cmdMemWsize
  maxPolls : b.maxPolls = a.maxPolls
  initFlags : b.initFlags = a.initFlags

/-- Every channel is unchanged, its memories among it (R34). -/
def SameChannels (a b : UnitState) : Prop := ∀ c, channelAt b c = channelAt a c

/-- Every channel but `c` is unchanged (R221). -/
def OnlyChannel (c : Nat) (a b : UnitState) : Prop := ∀ d, d ≠ c → channelAt b d = channelAt a d

/-- Every word of the message buffer is unchanged (R21). -/
def SameMsg (a b : UnitState) : Prop := ∀ i, msgWord b i = msgWord a i

/-- What a message operation of the codec or the PIO engine leaves unchanged: all but the message buffer and the result
of unit `u` (R23, R171). -/
structure MessageFrame (u : Int) (s t : State) : Prop where
  onlyUnit : OnlyUnit u s t
  controller : SameController (unitAt s u) (unitAt t u)
  channels : SameChannels (unitAt s u) (unitAt t u)

/-- What an operation leaves unchanged that only answers: all but the result of unit `u`. -/
structure AnswerFrame (u : Int) (s t : State) : Prop where
  message : MessageFrame u s t
  msg : SameMsg (unitAt s u) (unitAt t u)

/-- What an operation on one channel leaves unchanged: all but that channel and the result of unit `u` (R29, R221). -/
structure ChannelFrame (u : Int) (c : Nat) (s t : State) : Prop where
  onlyUnit : OnlyUnit u s t
  controller : SameController (unitAt s u) (unitAt t u)
  channels : OnlyChannel c (unitAt s u) (unitAt t u)
  msg : SameMsg (unitAt s u) (unitAt t u)

/-! ## When an operation is accepted -/

/-- R182: the controller of `u` is attached, active and bound, and `u` has a slot. -/
structure Available (s : State) (u : Int) : Prop where
  present : (unitAt s u).present = true
  active : (unitAt s u).active = true
  bound : (unitAt s u).bound = true
  slot : 0 ≤ u ∧ u < Config.config.numUnits

/-- R222: the channel index, a signed integer, is in range. -/
def ChannelInRange (s : State) (u c : Int) : Prop := 0 ≤ c ∧ c < (unitAt s u).channelCount

/-- R34: what every channel of a unit is after process start and after an attach, its memories apart. -/
structure ChannelZeroed (ch : Channel) : Prop where
  state : ch.state = .idle
  start : ch.start = false
  numOps : ch.numOps = 0
  done : ch.done = 0
  timedOut : ch.timedOut = false
  cmdLen : ch.cmdLen = 0

/-- The channel an operation works on, for the three that take one. -/
def channelOf : Instr → Option Int
  | .fifoOpsSend _ c _ _ _ _ => some c
  | .fifoSetStart _ c _ => some c
  | .fifoStatusGet _ c _ _ _ => some c
  | .readMemoryCmd _ _ _ => none
  | .readMemoryAck _ _ _ => none
  | .writeMemoryCmd _ _ _ _ => none
  | .writeMemoryAck _ _ => none
  | .readRegisterCmd _ _ _ => none
  | .readRegisterAck _ _ _ => none
  | .writeRegisterCmd _ _ _ _ => none
  | .writeRegisterAck _ _ => none
  | .encodeCommand _ _ _ _ _ _ _ => none
  | .decodeResponse _ _ => none
  | .selectRoute _ _ _ => none
  | .memRead _ _ _ _ _ => none
  | .memWrite _ _ _ _ _ => none
  | .fifoAttach _ => none
  | .fifoDetach _ => none
  | .fifoInfoGet _ => none
  | .fifoInit _ _ _ => none

/-! ## The invariant -/

/-- R35, with what the model adds: the command memory is canonical, the batch fits it, and a response reference is good
only on an Idle channel. -/
structure ChannelInv (wsize : Nat) (ch : Channel) : Prop where
  idle : ch.state = .idle →
    ch.start = false ∧ ch.numOps = 0 ∧ ch.done = 0 ∧ ch.timedOut = false ∧ ch.cmdLen = 0
  queued : ch.state = .queued →
    ch.start = false ∧ 1 ≤ ch.numOps ∧ ch.done = 0 ∧ ch.timedOut = false ∧ ch.respMem = []
  running : ch.state = .running → ch.start = true ∧ 1 ≤ ch.numOps ∧ ch.done ≤ ch.numOps
  startIff : ch.start = true ↔ ch.state = .running
  memory : ch.cmdMem.wf = true
  batch : ch.cmdLen ≤ wsize
  reference : ch.respRef.isSome → ch.state = .idle

/-- R30, R33, R240 for one unit: the flags stand in one of the five combinations, the controller's record is the bound
backend's, only existing channels are listed, every channel keeps R35, every existing channel has a command memory of
exactly `CMD_MEM_WSIZE` words (R63), and a never-attached unit is as at process start. -/
structure UnitInv (C : Configuration) (u : Int) (us : UnitState) : Prop where
  activePresent : us.active = true → us.present = true
  boundPresent : us.bound = true → us.present = true
  boundOps : us.bound = us.ops.isSome
  opsBackend : us.present = true → us.ops = C.backendOf u
  channelCount : us.channelCount = (us.ops.map Backend.channelCount).getD 0
  cmdMemWsize : us.cmdMemWsize = (us.ops.map Backend.cmdMemWsize).getD 0
  initFlags : us.initFlags = 0
  presentInRange : us.present = true → unitInRange C u = true
  fresh : us.present = false → us.maxPolls = 0
  canonical : tableCanonical Channel.reset us.channels = true
  listed : ∀ c, channelAt us c ≠ Channel.reset → c < us.channelCount
  channels : ∀ c, ChannelInv us.cmdMemWsize (channelAt us c)
  memories : ∀ c, c < us.channelCount → ∀ i, ((channelAt us c).cmdMem.read i).isSome = true ↔ i < us.cmdMemWsize
  stamps : ∀ c stamp, (channelAt us c).respRef = some stamp → stamp < us.tick
  msgLength : us.msg = [] ∨ us.msg.length = C.msgWords

/-- The invariant of the block: the registry is canonical, every unit keeps its own, and the hook is as configured
(R40). -/
structure State.Inv (s : State) : Prop where
  canonical : tableCanonical UnitState.reset s.units = true
  simPresent : s.simPresent = Config.config.simPresent
  units : ∀ u, UnitInv Config.config u (unitAt s u)

/-! ## The table of channel transitions (R220) -/

/-- The rows of R220 that move `CHSTATE` of channel `(u, c)`, which stands as `ch`, by an instruction to a new state. -/
inductive Transition (u : Int) (c : Nat) (ch : Channel) : Instr → ChState → Prop where
  | sendIdle (n ws size) : ch.state = .idle → Transition u c ch (.fifoOpsSend u c n ws size 0) .queued
  | sendTimedOut (n ws size) :
    ch.state = .running → ch.timedOut = true → Transition u c ch (.fifoOpsSend u c n ws size 0) .queued
  | start : ch.state = .queued → Transition u c ch (.fifoSetStart u c true) .running
  | stop : ch.state = .running → Transition u c ch (.fifoSetStart u c false) .idle
  | complete : ch.state = .running → Transition u c ch (.fifoStatusGet u c ch.numOps 0 true) .idle
  | attach : ch.state = .queued → Transition u c ch (.fifoAttach u) .idle

/-! ## Statuses -/

/-- The status a result carries, if it carries one. -/
def Result.status? : Result → Option Status
  | .nothing => none
  | .status st => some st
  | .encoded st _ => some st
  | .decoded st _ _ => some st
  | .route _ => none
  | .read st _ => some st
  | .info st _ _ => some st
  | .completion st _ _ => some st
  | .response _ => none

/-- R275: the statuses an instruction may return without a hook. A command message is `encode_command`'s row and an
acknowledge message `decode_response`'s. -/
def mayReturn : Instr → Status → Bool
  | .readMemoryCmd _ _ _, st => st = .ok ∨ st = .param
  | .readMemoryAck _ _ _, st => st = .ok ∨ st = .param
  | .writeMemoryCmd _ _ _ _, st => st = .ok ∨ st = .param
  | .writeMemoryAck _ _, st => st = .ok ∨ st = .param
  | .readRegisterCmd _ _ _, st => st = .ok ∨ st = .param
  | .readRegisterAck _ _ _, st => st = .ok ∨ st = .param
  | .writeRegisterCmd _ _ _ _, st => st = .ok ∨ st = .param
  | .writeRegisterAck _ _, st => st = .ok ∨ st = .param
  | .encodeCommand _ _ _ _ _ _ _, st => st = .ok ∨ st = .param
  | .decodeResponse _ _, st => st = .ok ∨ st = .param
  | .selectRoute _ _ _, _ => false
  | .memRead _ _ _ _ _, st => st ≠ .unavail ∧ st ≠ .timeout
  | .memWrite _ _ _ _ _, st => st ≠ .unavail ∧ st ≠ .timeout
  | .fifoAttach _, st => st = .ok ∨ st = .unavail
  | .fifoDetach _, st => st = .ok ∨ st = .unavail
  | .fifoInfoGet _, st => st = .ok ∨ st = .unavail
  | .fifoInit _ _ _, st => st = .ok ∨ st = .unavail
  | .fifoOpsSend _ _ _ _ _ _, st => st = .ok ∨ st = .param ∨ st = .unavail
  | .fifoSetStart _ _ _, st => st = .ok ∨ st = .param ∨ st = .unavail
  | .fifoStatusGet _ _ _ _ _, st => st = .ok ∨ st = .param ∨ st = .unavail ∨ st = .timeout

/-- `mem_read` and `mem_write`: the two operations an installed hook may answer with a status of its own (R275 `hook`). -/
def isPio : Instr → Bool
  | .memRead _ _ _ _ _ => true
  | .memWrite _ _ _ _ _ => true
  | _ => false

/-! ## Messages -/

/-- The first `n` words of the message buffer of unit `u`'s host. -/
def sentWords (s : State) (u : Int) (n : Nat) : List Word := (List.range n).map (msgWord (unitAt s u))

/-- R121 for a command whose data words are `data`: the header in the configured layout (P5), address, data, and 0 in
every word after them; the caller is given `OK` and the number of words. -/
structure CommandBuilt (host : Int) (opcode : BitVec 6) (h : HeaderFields) (address : Word) (data : List Word)
    (s t : State) : Prop where
  frame : MessageFrame host s t
  result : (unitAt t host).result = .encoded .ok (2 + data.length)
  header : msgWord (unitAt t host) 0 = headerWord Config.config.headerLayout opcode h
  addressWord : msgWord (unitAt t host) 1 = address
  payload : ∀ i, i < data.length → msgWord (unitAt t host) (2 + i) = data.getD i 0
  rest : ∀ i, 2 + data.length ≤ i → msgWord (unitAt t host) i = 0

/-- R66, R123 for a response of header and data words: they stand in the message buffer, and the caller is given the
opcode and the data. -/
structure ResponseTaken (host : Int) (opcode : BitVec 6) (h : HeaderFields) (data : List Word) (s t : State) :
    Prop where
  frame : MessageFrame host s t
  result : (unitAt t host).result = .decoded .ok opcode data
  header : msgWord (unitAt t host) 0 = headerWord Config.config.headerLayout opcode h
  payload : ∀ i, i < data.length → msgWord (unitAt t host) (1 + i) = data.getD i 0

/-! ## The echoing target (R127) -/

/-- A response message with those fields and data words, in the configured layout (R93; P5, P6). -/
def responseMsg (C : Configuration) (op : MsgOpcode) (h : HeaderFields) (data : List Word) : List Word :=
  headerWord C.headerLayout (C.opcodeNumber op) h :: data

/-- The acknowledge opcode the target answers a command with. -/
def echoAck (C : Configuration) (cmd : List Word) : Option MsgOpcode :=
  (msgOpcodeOf C.opcodeNumber (commandFields C cmd).opcode).bind MsgOpcode.ackOf

/-- What the target stores of a write command: the key and the words (R125, R127). -/
def echoStores (C : Configuration) (cmd : List Word) : (BitVec 7 × BitVec 5 × Word) × List Word :=
  (((commandFields C cmd).fields.dstblk, (commandFields C cmd).fields.acctype, (commandFields C cmd).address),
    (commandFields C cmd).words)

/-- R127: the target's answer to a read command for `n_resp = 1 + n` words, after one write command: the fields of
an acknowledge header, then the first `n` words stored under the same key (0 beyond them). -/
def echoAnswer (C : Configuration) (written read : List Word) (n : Nat) : HeaderFields × List Word :=
  let key := (echoStores C read).1
  let stored := if (echoStores C written).1 = key then (echoStores C written).2 else []
  ({ dstblk := key.1, acctype := key.2.1, datalen := BitVec.ofNat 7 (4 * n), rsvd := 0 },
    (List.range n).map fun i => stored.getD i 0)

end Sys2Proof.Machine
end

