-- ==== Sys2Proof/Certificates/Slice0/Obligations.lean ====
section
/-! DEFINITION. The statements for the provers, one proposition each; OBLIGATIONS.json says which rule each rests on.
`Config.config` is opaque, so every statement holds for every configuration and every answer of an oracle (00_scope.md
R11, 10_state.md R40). Where a statement says "is given", it speaks of the result the caller receives. -/

open Sys2Proof Sys2Proof.Machine

/-! ## Encoding -/

/-- Every well-formed instruction is what its own frame decodes to. How a call is laid out in a frame is the model's
choice (log 1); the header is R91's. -/
def Obligations.DecodeEncode : Prop := ∀ i : Instr, i.wellFormed = true → decode (encode i) = .ok i

/-- A frame that decodes at all is the frame of the instruction it decodes to, which is well-formed: no bit of a head
word, no scalar and no word is dropped, and no two frames are one instruction. -/
def Obligations.EncodeDecode : Prop :=
  ∀ (f : Frame) (i : Instr), decode f = .ok i → encode i = f ∧ i.wellFormed = true

/-- Words written out from 95_test_vectors.md 3.1 decode to the instructions they stand for, an ordinal outside R107 and
an unknown message opcode to none. The frame around a head word (its scalars and word sequence) and the zero operands that
decodeTableWord supplies to an ordinal are the model's choice (log 1). -/
def Obligations.TableWordsDecode : Prop :=
  decode { head := 0x2428C400, scalars := [0], words := some [0x1000, 0x11111111, 0x22222222] } =
      .ok (.writeMemoryCmd 0 { dstblk := 5, acctype := 3, datalen := 8, rsvd := 0 } 0x1000 [0x11111111, 0x22222222]) ∧
    decode { head := 0x2C184200, scalars := [1], words := some [8] } =
      .ok (.readRegisterCmd 1 { dstblk := 3, acctype := 1, datalen := 4, rsvd := 0 } 8) ∧
    decode { head := 0x2028C200, scalars := [0], words := some [7] } =
      .ok (.readMemoryAck 0 { dstblk := 5, acctype := 3, datalen := 4, rsvd := 0 } [7]) ∧
    decode { head := 9, scalars := [0, -1, 2, 1, 0], words := some [7] } = .ok (.fifoOpsSend 0 (-1) 2 (some [7]) 1 0) ∧
    decodeTableWord 32 0x38000000 = some (.writeRegisterAck 0 { dstblk := 0, acctype := 0, datalen := 0, rsvd := 0 }) ∧
    decodeTableWord 8 0x5 = some (.fifoAttach 0) ∧
    decodeTableWord 8 0xC = none ∧
    decodeTableWord 32 0x3C000000 = none

/-- R91 in the reference layout: each field of a header word stands in the bits the table gives it, and nothing else is in
the word. In any configured layout (P5; log 2) no field of a header word is lost. -/
def Obligations.HeaderLayoutBits : Prop :=
  ∀ (opcode : BitVec 6) (h : HeaderFields),
    ((headerWord referenceLayout opcode h).extractLsb' 26 6 = opcode ∧
      (headerWord referenceLayout opcode h).extractLsb' 19 7 = h.dstblk ∧
      (headerWord referenceLayout opcode h).extractLsb' 14 5 = h.acctype ∧
      (headerWord referenceLayout opcode h).extractLsb' 7 7 = h.datalen ∧
      (headerWord referenceLayout opcode h).extractLsb' 0 7 = h.rsvd ∧
      (headerWord referenceLayout opcode h).toNat =
        opcode.toNat * 2 ^ 26 + h.dstblk.toNat * 2 ^ 19 + h.acctype.toNat * 2 ^ 14 + h.datalen.toNat * 2 ^ 7 +
          h.rsvd.toNat) ∧
      ∀ C : Configuration,
        headerOpcode C.headerLayout (headerWord C.headerLayout opcode h) = opcode ∧
          headerFields C.headerLayout (headerWord C.headerLayout opcode h) = h

/-! ## The step -/

/-- Where the oldest event is a call whose frame decodes to `i`, the step is `exec` of `i`, with that event taken from the
inbox and nothing else around it. The inbox is the model's own (log 4). -/
def Obligations.StepRunsDecodedCall : Prop :=
  ∀ (s : State) (f : Frame) (rest : List Event) (i : Instr),
    s.inbox = .call f :: rest → decode f = .ok i → step s = exec i { s with inbox := rest }

/-- The step after `withFetchWord` runs the instruction the decoder reads from those bits. -/
def Obligations.FetchWordRuns : Prop :=
  ∀ (s : State) (nbits w : Nat) (i : Instr),
    decodeTableWord nbits w = some i → step (s.withFetchWord nbits w) = exec i s

/-- A step takes one event and adds none, and no step changes whether a hook is installed (R40). -/
def Obligations.StepTakesOldestEvent : Prop :=
  ∀ s t : State, step s = .next t → t.inbox = s.inbox.tail ∧ t.simPresent = s.simPresent

/-- R41: the state at process start. `OPS` and `MSG` have no value there by the rule, and nothing is said of them. -/
def Obligations.ResetState : Prop :=
  State.reset.simPresent = Config.config.simPresent ∧
    ∀ u : Int,
      (unitAt State.reset u).present = false ∧ (unitAt State.reset u).active = false ∧
        (unitAt State.reset u).bound = false ∧ (unitAt State.reset u).channelCount = 0 ∧
        (unitAt State.reset u).cmdMemWsize = 0 ∧ (unitAt State.reset u).maxPolls = 0 ∧
        (unitAt State.reset u).initFlags = 0

/-- The invariant holds at reset. Its clauses on `OPS`, `MSG`, the memories and the response references lean on values the
model chose for what R41 leaves unspecified at process start (log 9, log 12, log 13, log 14, log 28). -/
def Obligations.InvAtReset : Prop := State.reset.Inv

/-- Every step keeps the invariant: R35 for every channel, R240 and R30 for every unit, R63's `CMD_MEM_WSIZE` words in
every existing channel's command memory, canonical tables. Its clauses on `OPS` of a unit that was never attached, on the
length of `MSG`, on canonical tables and on response references are the model's own (log 9, log 12, log 13, log 14,
log 28). -/
def Obligations.InvKept : Prop := ∀ s t : State, s.Inv → step s = .next t → t.Inv

/-! ## The codec -/

/-- R121, success: a command opcode by its configured number (P6), fields that fit, a count within capacity and, for a
write, enough words. The header word is in the configured layout (P5). That an absent word sequence has no words is the
model's choice (log 23): R121 has the sequence always present (D32). -/
def Obligations.EncodeCommandBuilds : Prop :=
  ∀ (host : Int) (op : MsgOpcode) (acctype dstblk : Nat) (address : Word) (n : Nat) (words : Option (List Word))
    (s : State),
    op.isReadCmd = true ∨ op.isWriteCmd = true → acctype < 32 → dstblk < 128 →
    n ≤ Config.config.respCapacity → (op.isWriteCmd = true → n ≤ (words.getD []).length) →
    ∃ t, exec (.encodeCommand host (Config.config.opcodeNumber op).toNat acctype dstblk address n words) s = .next t ∧
      MessageFrame host s t ∧
      (unitAt t host).result = .encoded .ok (if op.isWriteCmd then 2 + n else 2) ∧
      msgWord (unitAt t host) 0 =
        headerWord Config.config.headerLayout (Config.config.opcodeNumber op)
          { dstblk := BitVec.ofNat 7 dstblk, acctype := BitVec.ofNat 5 acctype, datalen := BitVec.ofNat 7 (4 * n)
            rsvd := 0 } ∧
      msgWord (unitAt t host) 1 = address ∧
      (op.isWriteCmd = true → ∀ i, i < n → msgWord (unitAt t host) (2 + i) = (words.getD []).getD i 0) ∧
      ∀ i, (if op.isWriteCmd then 2 + n else 2) ≤ i → msgWord (unitAt t host) i = 0

/-- R121 line 3: a count over capacity is `E_PARAM`, however many words there are, and nothing is written. That
the sequence may also be absent is the model's choice (log 23). -/
def Obligations.EncodeCommandOverCapacity : Prop :=
  ∀ (host : Int) (op : MsgOpcode) (acctype dstblk : Nat) (address : Word) (n : Nat) (words : Option (List Word))
    (s : State),
    op.isReadCmd = true ∨ op.isWriteCmd = true → acctype < 32 → dstblk < 128 → Config.config.respCapacity < n →
    ∃ t nCmd,
      exec (.encodeCommand host (Config.config.opcodeNumber op).toNat acctype dstblk address n words) s = .next t ∧
      AnswerFrame host s t ∧ (unitAt t host).result = .encoded .param nCmd

/-- R121 lines 1, 2 and 4: the calls without meaning. An opcode of more than six bits is named `field_overflow`, as
93_implementation_defined.md U2 has it, where U1 would name it too (log 22). R121 line 4 is the clause of present words;
that an absent word sequence has no words, so that a write of at least one word is `short_words` there too, is the model's
choice (log 23). -/
def Obligations.EncodeCommandRefusals : Prop :=
  ∀ (host : Int) (opcode acctype dstblk : Nat) (address : Word) (n : Nat) (words : Option (List Word)) (s : State),
    (64 ≤ opcode → exec (.encodeCommand host opcode acctype dstblk address n words) s = .refused .fieldOverflow) ∧
      (opcode < 64 →
        (∀ op : MsgOpcode, op.isReadCmd = true ∨ op.isWriteCmd = true →
          (Config.config.opcodeNumber op).toNat ≠ opcode) →
        exec (.encodeCommand host opcode acctype dstblk address n words) s = .refused .unknownCommandOpcode) ∧
      (∀ op : MsgOpcode, op.isReadCmd = true ∨ op.isWriteCmd = true → 32 ≤ acctype ∨ 128 ≤ dstblk →
        exec (.encodeCommand host (Config.config.opcodeNumber op).toNat acctype dstblk address n words) s =
          .refused .fieldOverflow) ∧
      ∀ op : MsgOpcode, op.isWriteCmd = true → acctype < 32 → dstblk < 128 → n ≤ Config.config.respCapacity →
        (words.getD []).length < n →
        exec (.encodeCommand host (Config.config.opcodeNumber op).toNat acctype dstblk address n words) s =
          .refused .shortWords

/-- The two read-command rows: the codec builds the command with the header's fields, its length and no reserved bit; a
length over capacity is `E_PARAM` and nothing is written. What a message row does as an instruction is the model's reading
(log 6, log 7). -/
def Obligations.ReadCommandMessages : Prop :=
  ∀ (host : Int) (h : HeaderFields) (address : Word) (s : State),
    (∃ t, exec (.readMemoryCmd host h address) s = .next t ∧
      if h.wordCount ≤ Config.config.respCapacity then
        CommandBuilt host (Config.config.opcodeNumber .readMemoryCmd)
          { h with datalen := BitVec.ofNat 7 (4 * h.wordCount), rsvd := 0 } address [] s t
      else AnswerFrame host s t ∧ (unitAt t host).result.status? = some .param) ∧
      ∃ t, exec (.readRegisterCmd host h address) s = .next t ∧
        if h.wordCount ≤ Config.config.respCapacity then
          CommandBuilt host (Config.config.opcodeNumber .readRegisterCmd)
            { h with datalen := BitVec.ofNat 7 (4 * h.wordCount), rsvd := 0 } address [] s t
        else AnswerFrame host s t ∧ (unitAt t host).result.status? = some .param

/-- The two write-command rows, with as many data words as the header says (R93; log 6, log 7). -/
def Obligations.WriteCommandMessages : Prop :=
  ∀ (host : Int) (h : HeaderFields) (address : Word) (data : List Word) (s : State), data.length = h.wordCount →
    (∃ t, exec (.writeMemoryCmd host h address data) s = .next t ∧
      if h.wordCount ≤ Config.config.respCapacity then
        CommandBuilt host (Config.config.opcodeNumber .writeMemoryCmd)
          { h with datalen := BitVec.ofNat 7 (4 * h.wordCount), rsvd := 0 } address data s t
      else AnswerFrame host s t ∧ (unitAt t host).result.status? = some .param) ∧
      ∃ t, exec (.writeRegisterCmd host h address data) s = .next t ∧
        if h.wordCount ≤ Config.config.respCapacity then
          CommandBuilt host (Config.config.opcodeNumber .writeRegisterCmd)
            { h with datalen := BitVec.ofNat 7 (4 * h.wordCount), rsvd := 0 } address data s t
        else AnswerFrame host s t ∧ (unitAt t host).result.status? = some .param

/-- The four acknowledge rows: the response stands in the message buffer and is taken apart; `dstblk`, `acctype`,
`datalen` and `rsvd` decide nothing (R123, R124). A read response of more data words than the capacity is `E_PARAM` and
does not reach the buffer. What a message row does as an instruction is the model's reading (log 6, log 24). -/
def Obligations.AcknowledgeMessages : Prop :=
  ∀ (host : Int) (h : HeaderFields) (data : List Word) (s : State),
    (∃ t, exec (.readMemoryAck host h data) s = .next t ∧
      if data.length ≤ Config.config.respCapacity then
        ResponseTaken host (Config.config.opcodeNumber .readMemoryAck) h data s t
      else AnswerFrame host s t ∧ (unitAt t host).result.status? = some .param) ∧
      (∃ t, exec (.readRegisterAck host h data) s = .next t ∧
        if data.length ≤ Config.config.respCapacity then
          ResponseTaken host (Config.config.opcodeNumber .readRegisterAck) h data s t
        else AnswerFrame host s t ∧ (unitAt t host).result.status? = some .param) ∧
      (∃ t, exec (.writeMemoryAck host h) s = .next t ∧
        ResponseTaken host (Config.config.opcodeNumber .writeMemoryAck) h [] s t) ∧
      ∃ t, exec (.writeRegisterAck host h) s = .next t ∧
        ResponseTaken host (Config.config.opcodeNumber .writeRegisterAck) h [] s t

/-- R123: the opcode is the opcode field of `x[0]` (P5), the words are `x[1]` to `x[n]`; a count over capacity is
`E_PARAM`. Nothing is written. The buffer holds the response the call is given, whatever an earlier operation left there
(R24); what a response too short for the count leaves open is drawn and not said (U21; log 34). -/
def Obligations.DecodeResponseSlices : Prop :=
  ∀ (host : Int) (response : List Word) (n : Nat) (s : State),
    (n ≤ Config.config.respCapacity →
      ∃ t opcode words, exec (.decodeResponse host { msg := response, wordCount := n }) s = .next t ∧ AnswerFrame host s t ∧
        (unitAt t host).result = .decoded .ok opcode words ∧
        (response ≠ [] → opcode = headerOpcode Config.config.headerLayout (response.getD 0 0)) ∧
        words.length = n ∧ ∀ i, i < n → 1 + i < response.length → words.getD i 0 = response.getD (1 + i) 0) ∧
      (Config.config.respCapacity < n →
        ∃ t opcode words, exec (.decodeResponse host { msg := response, wordCount := n }) s = .next t ∧ AnswerFrame host s t ∧
          (unitAt t host).result = .decoded .param opcode words)

/-- R125: the fields a stand-in for the chip reads out of a built command are the arguments it was built from. -/
def Obligations.CommandFieldsInverse : Prop :=
  ∀ (host : Int) (op : MsgOpcode) (acctype dstblk : Nat) (address : Word) (n nCmd : Nat) (words : Option (List Word))
    (s t : State),
    op.isReadCmd = true ∨ op.isWriteCmd = true →
    exec (.encodeCommand host (Config.config.opcodeNumber op).toNat acctype dstblk address n words) s = .next t →
    (unitAt t host).result = .encoded .ok nCmd →
    commandFields Config.config (sentWords t host nCmd) =
      { opcode := Config.config.opcodeNumber op
        fields :=
          { dstblk := BitVec.ofNat 7 dstblk, acctype := BitVec.ofNat 5 acctype, datalen := BitVec.ofNat 7 (4 * n), rsvd := 0 }
        address := address
        words := if op.isWriteCmd then (words.getD []).take n else [] }

/-- R127: a write command, its acknowledge, a read command of the same length and the echoing target's answer, each answer
the `MSG` operand of a `decode_response`, give back the words written, for the memory and for the register opcodes. -/
def Obligations.EchoRoundTrip : Prop :=
  ∀ (host : Int) (acctype dstblk : Nat) (address : Word) (words : List Word) (hw : HeaderFields) (s : State),
    acctype < 32 → dstblk < 128 → words.length ≤ Config.config.respCapacity →
    (∃ t₁ t₂ t₃ t₄,
      exec (.encodeCommand host (Config.config.opcodeNumber .writeMemoryCmd).toNat acctype dstblk address words.length
        (some words)) s = .next t₁ ∧
      echoAck Config.config (sentWords t₁ host (2 + words.length)) = some .writeMemoryAck ∧
      exec (.decodeResponse host { msg := responseMsg Config.config .writeMemoryAck hw [], wordCount := 0 }) t₁ = .next t₂ ∧
      (unitAt t₂ host).result = .decoded .ok (Config.config.opcodeNumber .writeMemoryAck) [] ∧
      exec (.encodeCommand host (Config.config.opcodeNumber .readMemoryCmd).toNat acctype dstblk address words.length none)
        t₂ = .next t₃ ∧
      echoAck Config.config (sentWords t₃ host 2) = some .readMemoryAck ∧
      exec (.decodeResponse host
        { msg :=
            responseMsg Config.config .readMemoryAck
              (echoAnswer Config.config (sentWords t₁ host (2 + words.length)) (sentWords t₃ host 2) words.length).1
              (echoAnswer Config.config (sentWords t₁ host (2 + words.length)) (sentWords t₃ host 2) words.length).2
          wordCount := words.length }) t₃ = .next t₄ ∧
      (unitAt t₄ host).result = .decoded .ok (Config.config.opcodeNumber .readMemoryAck) words) ∧
    ∃ t₁ t₂ t₃ t₄,
      exec (.encodeCommand host (Config.config.opcodeNumber .writeRegisterCmd).toNat acctype dstblk address words.length
        (some words)) s = .next t₁ ∧
      echoAck Config.config (sentWords t₁ host (2 + words.length)) = some .writeRegisterAck ∧
      exec (.decodeResponse host { msg := responseMsg Config.config .writeRegisterAck hw [], wordCount := 0 }) t₁ = .next t₂ ∧
      (unitAt t₂ host).result = .decoded .ok (Config.config.opcodeNumber .writeRegisterAck) [] ∧
      exec (.encodeCommand host (Config.config.opcodeNumber .readRegisterCmd).toNat acctype dstblk address words.length none)
        t₂ = .next t₃ ∧
      echoAck Config.config (sentWords t₃ host 2) = some .readRegisterAck ∧
      exec (.decodeResponse host
        { msg :=
            responseMsg Config.config .readRegisterAck
              (echoAnswer Config.config (sentWords t₁ host (2 + words.length)) (sentWords t₃ host 2) words.length).1
              (echoAnswer Config.config (sentWords t₁ host (2 + words.length)) (sentWords t₃ host 2) words.length).2
          wordCount := words.length }) t₃ = .next t₄ ∧
      (unitAt t₄ host).result = .decoded .ok (Config.config.opcodeNumber .readRegisterAck) words

/-! ## The selector and the PIO engine -/

/-- R142: the route, for every unit and address; nothing is written and no status is given. -/
def Obligations.SelectRouteAnswers : Prop :=
  ∀ (u : Int) (ext address : Word) (s : State),
    ∃ t, exec (.selectRoute u ext address) s = .next t ∧ AnswerFrame u s t ∧
      (unitAt t u).result =
        .route (if Config.config.isBypassed u ext address then .bypass else if s.simPresent then .sim else .bus)

/-- R156: a bypassed read is `OK` for every count and every buffer, whether or not a hook is installed, and the buffer is
as it was. Said of every configuration by name, since the machine's own is opaque and need not bypass any address. -/
def Obligations.BypassedRead : Prop :=
  (∀ (C : Configuration) (u : Int) (ext address : Word) (n : Nat) (buf : List Word) (s : State),
    C.isBypassed u ext address = true →
    ∃ t, memRead C u ext address n buf s = .next t ∧ AnswerFrame u s t ∧ (unitAt t u).result = .read .ok buf) ∧
    ∀ (u : Int) (ext address : Word) (n : Nat) (buf : List Word) (s : State),
      exec (.memRead u ext address n buf) s = memRead Config.config u ext address n buf s

/-- R155 for a count within capacity and a buffer long enough: bypassed, through the hook, or one exchange of the command
`[header, address]` for `1 + n` words. A failed read leaves a buffer of the same length, of which nothing is known. -/
def Obligations.MemReadAnswers : Prop :=
  ∀ (u : Int) (ext address : Word) (n : Nat) (buf : List Word) (s : State),
    n ≤ Config.config.respCapacity → n ≤ buf.length →
    ∃ t out, exec (.memRead u ext address n buf) s = .next t ∧ MessageFrame u s t ∧ out.length = buf.length ∧
      if Config.config.isBypassed u ext address then AnswerFrame u s t ∧ (unitAt t u).result = .read .ok buf
      else if s.simPresent then
        AnswerFrame u s t ∧
          match Config.config.hookRead u (unitAt s u).tick (Config.config.tagMem ext address) address (buf.take n) (4 * n)
          with
          | (.ok, answer) => (unitAt t u).result = .read .ok ((List.range n).map answer ++ buf.drop n)
          | (st, _) => (unitAt t u).result = .read st out
      else
        match Config.config.exchange u (unitAt s u).tick
          [headerWord Config.config.headerLayout (Config.config.opcodeNumber .readMemoryCmd)
            { dstblk := (Config.config.adextDecode ext).2, acctype := (Config.config.adextDecode ext).1
              datalen := BitVec.ofNat 7 (4 * n), rsvd := 0 }, address] (1 + n)
        with
        | .error e => (unitAt t u).result = .read (.transport e) out
        | .ok answer =>
          if headerOpcode Config.config.headerLayout (answer 0) = Config.config.opcodeNumber .readMemoryAck then
            (unitAt t u).result = .read .ok ((List.range n).map (fun i => answer (1 + i)) ++ buf.drop n)
          else (unitAt t u).result = .read .protocol out

/-- R155 lines 1 to 5, R157: a bypassed read is `OK` at any count and any buffer; otherwise a count over capacity is
`E_PARAM` with nothing written, and a short buffer has no meaning. -/
def Obligations.MemReadTurnedAway : Prop :=
  ∀ (u : Int) (ext address : Word) (n : Nat) (buf : List Word) (s : State),
    (Config.config.respCapacity < n →
      ∃ t out, exec (.memRead u ext address n buf) s = .next t ∧ AnswerFrame u s t ∧ out.length = buf.length ∧
        (unitAt t u).result = if Config.config.isBypassed u ext address then .read .ok buf else .read .param out) ∧
      (n ≤ Config.config.respCapacity → buf.length < n →
        if Config.config.isBypassed u ext address then
          ∃ t, exec (.memRead u ext address n buf) s = .next t ∧ AnswerFrame u s t ∧
            (unitAt t u).result = .read .ok buf
        else exec (.memRead u ext address n buf) s = .refused .shortBuffer)

/-- R164 for a count within capacity and enough words: bypassed, through the hook, or one exchange of header, address and
the first `n` words for one word. -/
def Obligations.MemWriteAnswers : Prop :=
  ∀ (u : Int) (ext address : Word) (words : List Word) (n : Nat) (s : State),
    n ≤ Config.config.respCapacity → n ≤ words.length →
    ∃ t, exec (.memWrite u ext address words n) s = .next t ∧ MessageFrame u s t ∧
      if Config.config.isBypassed u ext address then AnswerFrame u s t ∧ (unitAt t u).result = .status .ok
      else if s.simPresent then
        AnswerFrame u s t ∧
          (unitAt t u).result =
            .status (Config.config.hookWrite u (unitAt s u).tick (Config.config.tagMem ext address) address
              (words.take n) (4 * n))
      else
        match Config.config.exchange u (unitAt s u).tick
          (headerWord Config.config.headerLayout (Config.config.opcodeNumber .writeMemoryCmd)
            { dstblk := (Config.config.adextDecode ext).2, acctype := (Config.config.adextDecode ext).1
              datalen := BitVec.ofNat 7 (4 * n), rsvd := 0 } :: address :: words.take n) 1
        with
        | .error e => (unitAt t u).result = .status (.transport e)
        | .ok answer =>
          (unitAt t u).result =
            .status
              (if headerOpcode Config.config.headerLayout (answer 0) = Config.config.opcodeNumber .writeMemoryAck then .ok
              else .protocol)

/-- R164 lines 1 to 5, R165, R169. -/
def Obligations.MemWriteTurnedAway : Prop :=
  ∀ (u : Int) (ext address : Word) (words : List Word) (n : Nat) (s : State),
    (Config.config.respCapacity < n →
      ∃ t, exec (.memWrite u ext address words n) s = .next t ∧ AnswerFrame u s t ∧
        (unitAt t u).result = .status (if Config.config.isBypassed u ext address then .ok else .param)) ∧
      (n ≤ Config.config.respCapacity → words.length < n →
        if Config.config.isBypassed u ext address then
          ∃ t, exec (.memWrite u ext address words n) s = .next t ∧ AnswerFrame u s t ∧
            (unitAt t u).result = .status .ok
        else exec (.memWrite u ext address words n) s = .refused .shortWords)

/-- R239, R162 (h): in two states that may differ in every controller, every channel and every message buffer, a read or a
write is given the same result, or has no meaning in either. The oracles are asked the same question in both. And no
instruction at all reads the message buffer that an earlier one left (R24, R171): in two states whose unit differs in that
buffer alone, every instruction leaves units that differ in it at most, or has no meaning in either. -/
def Obligations.PioIgnoresController : Prop :=
  (∀ (i : Instr) (s s' : State),
    isPio i = true → s'.simPresent = s.simPresent → (unitAt s' i.unit).tick = (unitAt s i.unit).tick →
    (∀ t, exec i s = .next t → ∃ t', exec i s' = .next t' ∧ (unitAt t' i.unit).result = (unitAt t i.unit).result) ∧
      ∀ r, exec i s = .refused r → exec i s' = .refused r) ∧
    ∀ (i : Instr) (s s' : State) (m : List Word),
      s'.simPresent = s.simPresent → unitAt s' i.unit = { unitAt s i.unit with msg := m } →
      (∀ t, exec i s = .next t →
        ∃ t' m', exec i s' = .next t' ∧ unitAt t' i.unit = { unitAt t i.unit with msg := m' }) ∧
        ∀ r, exec i s = .refused r → exec i s' = .refused r

/-! ## The registry -/

/-- R230: no slot, a channel Running, or a fresh controller with the backend of the unit bound. Each channel's command
memory has exactly `CMD_MEM_WSIZE` words; which words, and what the response memories hold, is drawn and not said (R230
line 8). -/
def Obligations.AttachOutcomes : Prop :=
  ∀ (u : Int) (s : State),
    (¬(0 ≤ u ∧ u < Config.config.numUnits) →
      ∃ t, exec (.fifoAttach u) s = .next t ∧ AnswerFrame u s t ∧ (unitAt t u).result = .status .unavail) ∧
      (0 ≤ u ∧ u < Config.config.numUnits → (∃ c, (channelAt (unitAt s u) c).state = .running) →
        exec (.fifoAttach u) s = .refused .attachWhileRunning) ∧
      (0 ≤ u ∧ u < Config.config.numUnits → (∀ c, (channelAt (unitAt s u) c).state ≠ .running) →
        ∃ t, exec (.fifoAttach u) s = .next t ∧ OnlyUnit u s t ∧ SameMsg (unitAt s u) (unitAt t u) ∧
          (unitAt t u).result = .status .ok ∧ (unitAt t u).present = true ∧ (unitAt t u).active = true ∧
          (unitAt t u).maxPolls = 0 ∧ (unitAt t u).initFlags = 0 ∧
          (∀ c, ChannelZeroed (channelAt (unitAt t u) c)) ∧
          (∀ c j, c < (unitAt t u).channelCount →
            (((channelAt (unitAt t u) c).cmdMem.read j).isSome = true ↔ j < (unitAt t u).cmdMemWsize)) ∧
          match Config.config.backendOf u with
          | none =>
            (unitAt t u).bound = false ∧ (unitAt t u).ops = none ∧ (unitAt t u).channelCount = 0 ∧
              (unitAt t u).cmdMemWsize = 0
          | some backend =>
            (unitAt t u).bound = true ∧ (unitAt t u).ops = some backend ∧
              (unitAt t u).channelCount = backend.channelCount ∧ (unitAt t u).cmdMemWsize = backend.cmdMemWsize)

/-- R211, R232: a successful attach ends every response reference of its unit: no channel holds a good one, and a host's
read through any reference into the unit has no meaning from then on. The stamp in a reference is the model's (log 28). -/
def Obligations.AttachEndsReferences : Prop :=
  ∀ (u : Int) (s t : State), exec (.fifoAttach u) s = .next t → (unitAt t u).result = .status .ok →
    (∀ c, (channelAt (unitAt t u) c).respRef = none) ∧
      ∀ (ref : RespRef) (rest : List Event), ref.unit = u →
        step { t with inbox := .readResponse ref :: rest } = .refused .deadResponseReference

/-- R236: `E_UNAVAIL` with nothing written for a unit without a slot or never attached; otherwise `OK`, `ACTIVE` cleared
and nothing else of the unit changed, also where it was clear before. -/
def Obligations.DetachOutcomes : Prop :=
  ∀ (u : Int) (s : State),
    (¬(0 ≤ u ∧ u < Config.config.numUnits) ∨ (unitAt s u).present = false →
      ∃ t, exec (.fifoDetach u) s = .next t ∧ AnswerFrame u s t ∧ (unitAt t u).result = .status .unavail) ∧
      (0 ≤ u ∧ u < Config.config.numUnits → (unitAt s u).present = true →
        ∃ t, exec (.fifoDetach u) s = .next t ∧ OnlyUnit u s t ∧
          (unitAt t u).result = .status .ok ∧ (unitAt t u).active = false ∧
          SameController { unitAt s u with active := false } (unitAt t u) ∧
          SameChannels (unitAt s u) (unitAt t u) ∧ SameMsg (unitAt s u) (unitAt t u))

/-! ## The FIFO controller -/

/-- R182, R256: on a unit that is not available every controller operation is `E_UNAVAIL`, whatever its other arguments,
and writes nothing. -/
def Obligations.ControllerUnavailable : Prop :=
  ∀ (i : Instr) (s : State), ¬Available s i.unit →
    i = .fifoInfoGet i.unit ∨ (∃ maxPolls flags, i = .fifoInit i.unit maxPolls flags) ∨ (channelOf i).isSome = true →
    ∃ t, exec i s = .next t ∧ AnswerFrame i.unit s t ∧ (unitAt t i.unit).result.status? = some .unavail

/-- R183. -/
def Obligations.InfoGetOutcomes : Prop :=
  ∀ (u : Int) (s : State),
    (Available s u →
      ∃ t, exec (.fifoInfoGet u) s = .next t ∧ AnswerFrame u s t ∧
        (unitAt t u).result = .info .ok (unitAt s u).channelCount (unitAt s u).cmdMemWsize) ∧
      (¬Available s u →
        ∃ t a b, exec (.fifoInfoGet u) s = .next t ∧ AnswerFrame u s t ∧ (unitAt t u).result = .info .unavail a b)

/-- R185. -/
def Obligations.InitOutcomes : Prop :=
  ∀ (u : Int) (maxPolls flags : Word) (s : State),
    (¬Available s u →
      ∃ t, exec (.fifoInit u maxPolls flags) s = .next t ∧ AnswerFrame u s t ∧
        (unitAt t u).result = .status .unavail) ∧
      (Available s u → flags ≠ 0 → exec (.fifoInit u maxPolls flags) s = .refused .flagsMeaning) ∧
      (Available s u → flags = 0 →
        ∃ t, exec (.fifoInit u maxPolls flags) s = .next t ∧ OnlyUnit u s t ∧
          (unitAt t u).result = .status .ok ∧
          SameController { unitAt s u with maxPolls := maxPolls, initFlags := flags } (unitAt t u) ∧
          SameChannels (unitAt s u) (unitAt t u) ∧ SameMsg (unitAt s u) (unitAt t u))

/-- R190 lines 10 to 19: an accepted batch is Queued, whole, from a channel that is Idle, Queued or timed out. The words
of the command memory from `size` on are there, and which words they are is drawn and not said (line 12). A reference to
the channel's response data ends (R211; log 28). -/
def Obligations.OpsSendQueues : Prop :=
  ∀ (u c : Int) (n : Nat) (words : List Word) (size : Nat) (s : State),
    Available s u → ChannelInRange s u c → 1 ≤ n → size ≤ (unitAt s u).cmdMemWsize → size ≤ words.length →
    ((channelAt (unitAt s u) c.toNat).state = .running → (channelAt (unitAt s u) c.toNat).timedOut = true) →
    ∃ t, exec (.fifoOpsSend u c n (some words) size 0) s = .next t ∧ ChannelFrame u c.toNat s t ∧
      (unitAt t u).result = .status .ok ∧
      (channelAt (unitAt t u) c.toNat).state = .queued ∧ (channelAt (unitAt t u) c.toNat).start = false ∧
      (channelAt (unitAt t u) c.toNat).numOps = n ∧ (channelAt (unitAt t u) c.toNat).done = 0 ∧
      (channelAt (unitAt t u) c.toNat).timedOut = false ∧ (channelAt (unitAt t u) c.toNat).cmdLen = size ∧
      (channelAt (unitAt t u) c.toNat).respMem = [] ∧ (channelAt (unitAt t u) c.toNat).respRef = none ∧
      (∀ j, j < size → (channelAt (unitAt t u) c.toNat).cmdMem.read j = words[j]?) ∧
      ∀ j, size ≤ j → j < (unitAt s u).cmdMemWsize →
        ((channelAt (unitAt t u) c.toNat).cmdMem.read j).isSome = true

/-- R191: `fifo_ops_send` on an available unit gives `E_PARAM` for its four causes and for no other, and writes nothing
then. -/
def Obligations.OpsSendParameterErrors : Prop :=
  ∀ (u c : Int) (n : Nat) (words : Option (List Word)) (size : Nat) (flags : Word) (s : State), Available s u →
    ((∃ t, exec (.fifoOpsSend u c n words size flags) s = .next t ∧ (unitAt t u).result = .status .param) ↔
      c < 0 ∨ (unitAt s u).channelCount ≤ c ∨ n = 0 ∨ words = none ∨ (unitAt s u).cmdMemWsize < size) ∧
      ∀ t, exec (.fifoOpsSend u c n words size flags) s = .next t → (unitAt t u).result = .status .param →
        AnswerFrame u s t

/-- R190 lines 6 to 9, in their order: flags, a short request, a batch that is running and has not timed out. -/
def Obligations.OpsSendRefusals : Prop :=
  ∀ (u c : Int) (n : Nat) (words : List Word) (size : Nat) (flags : Word) (s : State),
    Available s u → ChannelInRange s u c → 1 ≤ n → size ≤ (unitAt s u).cmdMemWsize →
    (flags ≠ 0 → exec (.fifoOpsSend u c n (some words) size flags) s = .refused .flagsMeaning) ∧
      (flags = 0 → words.length < size →
        exec (.fifoOpsSend u c n (some words) size flags) s = .refused .shortRequest) ∧
      (flags = 0 → size ≤ words.length → (channelAt (unitAt s u) c.toNat).state = .running →
        (channelAt (unitAt s u) c.toNat).timedOut = false →
        exec (.fifoOpsSend u c n (some words) size flags) s = .refused .opsSendWhileRunning)

/-- R198 line 5: start on a Queued channel; its batch and memories stand as they were. -/
def Obligations.SetStartStarts : Prop :=
  ∀ (u c : Int) (s : State), Available s u → ChannelInRange s u c →
    (channelAt (unitAt s u) c.toNat).state = .queued →
    ∃ t, exec (.fifoSetStart u c true) s = .next t ∧ ChannelFrame u c.toNat s t ∧
      (unitAt t u).result = .status .ok ∧
      channelAt (unitAt t u) c.toNat = { channelAt (unitAt s u) c.toNat with start := true, state := .running }

/-- R198 lines 8 to 13: stop aborts a Running channel toward Idle, whether or not it timed out, and does nothing to one
that is Queued or Idle. An aborted channel's command memory is kept; a reference to its response data is dead (R201). -/
def Obligations.SetStartStops : Prop :=
  ∀ (u c : Int) (s : State), Available s u → ChannelInRange s u c →
    ∃ t, exec (.fifoSetStart u c false) s = .next t ∧ ChannelFrame u c.toNat s t ∧
      (unitAt t u).result = .status .ok ∧
      if (channelAt (unitAt s u) c.toNat).state = .running then
        ChannelZeroed (channelAt (unitAt t u) c.toNat) ∧ (channelAt (unitAt t u) c.toNat).respRef = none ∧
          (channelAt (unitAt t u) c.toNat).cmdMem = (channelAt (unitAt s u) c.toNat).cmdMem
      else channelAt (unitAt t u) c.toNat = channelAt (unitAt s u) c.toNat

/-- R198 lines 2, 6 and 7: a channel out of range is `E_PARAM` for either value of `start`; starting an Idle or a Running
channel has no meaning. -/
def Obligations.SetStartTurnedAway : Prop :=
  ∀ (u c : Int) (start : Bool) (s : State), Available s u →
    (¬ChannelInRange s u c →
      ∃ t, exec (.fifoSetStart u c start) s = .next t ∧ AnswerFrame u s t ∧
        (unitAt t u).result = .status .param) ∧
      (ChannelInRange s u c → (channelAt (unitAt s u) c.toNat).state = .idle →
        exec (.fifoSetStart u c true) s = .refused .startWithoutBatch) ∧
      (ChannelInRange s u c → (channelAt (unitAt s u) c.toNat).state = .running →
        exec (.fifoSetStart u c true) s = .refused .startWhileRunning)

/-- R207 (a): where the batch is complete on entry and there is a poll, the answer is `OK` with the whole count, the
channel is Idle, its memories are kept, and the reference given is good (R211; log 28). -/
def Obligations.StatusGetCompletes : Prop :=
  ∀ (u c : Int) (n : Nat) (s : State),
    Available s u → ChannelInRange s u c → 1 ≤ n → (channelAt (unitAt s u) c.toNat).state = .running →
    (channelAt (unitAt s u) c.toNat).numOps = n → (channelAt (unitAt s u) c.toNat).done = n →
    (unitAt s u).maxPolls ≠ 0 →
    ∃ t ref, exec (.fifoStatusGet u c n 0 true) s = .next t ∧ ChannelFrame u c.toNat s t ∧
      (unitAt t u).result = .completion .ok (some n) ref ∧ ref.unit = u ∧ ref.channel = c.toNat ∧
      ChannelZeroed (channelAt (unitAt t u) c.toNat) ∧
      (channelAt (unitAt t u) c.toNat).respRef = some ref.stamp ∧
      (channelAt (unitAt t u) c.toNat).respMem = (channelAt (unitAt s u) c.toNat).respMem ∧
      (channelAt (unitAt t u) c.toNat).cmdMem = (channelAt (unitAt s u) c.toNat).cmdMem

/-- R207 (b), R208, R209: on any Running channel the engine takes some number `k` of steps, no more than operations are
left, and then either a poll saw all of them complete, which takes a poll, and the channel so stepped is completed, or the
bound was reached and the channel so stepped is marked as timed out. That the reference given is good is R211 (log 28). -/
def Obligations.StatusGetPolls : Prop :=
  ∀ (u c : Int) (n : Nat) (s : State),
    Available s u → ChannelInRange s u c → 1 ≤ n → (channelAt (unitAt s u) c.toNat).state = .running →
    (channelAt (unitAt s u) c.toNat).numOps = n →
    ∃ t ref k, exec (.fifoStatusGet u c n 0 true) s = .next t ∧ ChannelFrame u c.toNat s t ∧
      k ≤ n - (channelAt (unitAt s u) c.toNat).done ∧
      ((unitAt t u).result = .completion .ok (some n) ref ∧ (unitAt s u).maxPolls ≠ 0 ∧
          (channelAt (unitAt s u) c.toNat).done + k = n ∧ ref.unit = u ∧ ref.channel = c.toNat ∧
          channelAt (unitAt t u) c.toNat =
            { Channel.reset with
              cmdMem := (channelAt (unitAt s u) c.toNat).cmdMem
              respMem := (channelAt (engineRun Config.config u c.toNat k (unitAt s u)) c.toNat).respMem
              respRef := some ref.stamp } ∨
        (∃ count, (unitAt t u).result = .completion .timeout (some count) ref) ∧
          (channelAt (unitAt t u) c.toNat).done = (channelAt (unitAt s u) c.toNat).done + k ∧
          channelAt (unitAt t u) c.toNat =
            { channelAt (engineRun Config.config u c.toNat k (unitAt s u)) c.toNat with timedOut := true })

/-- R207 (c) and (d): with no poll allowed a Running channel times out, stays Running and is marked; an Idle or Queued
channel times out at any bound and any count, and nothing is written. -/
def Obligations.StatusGetTimesOut : Prop :=
  ∀ (u c : Int) (n : Nat) (s : State), Available s u → ChannelInRange s u c → 1 ≤ n →
    ((channelAt (unitAt s u) c.toNat).state = .running → (channelAt (unitAt s u) c.toNat).numOps = n →
      (unitAt s u).maxPolls = 0 →
      ∃ t count ref, exec (.fifoStatusGet u c n 0 true) s = .next t ∧ ChannelFrame u c.toNat s t ∧
        (unitAt t u).result = .completion .timeout count ref ∧
        (channelAt (unitAt t u) c.toNat).state = .running ∧ (channelAt (unitAt t u) c.toNat).timedOut = true) ∧
      ((channelAt (unitAt s u) c.toNat).state ≠ .running →
        ∃ t count ref, exec (.fifoStatusGet u c n 0 true) s = .next t ∧ AnswerFrame u s t ∧
          (unitAt t u).result = .completion .timeout count ref)

/-- R206: `fifo_status_get` on an available unit gives `E_PARAM` for its three causes and for no other, and writes nothing
then. -/
def Obligations.StatusGetParameterErrors : Prop :=
  ∀ (u c : Int) (n : Nat) (flags : Word) (doneRef : Bool) (s : State), Available s u →
    ((∃ t, exec (.fifoStatusGet u c n flags doneRef) s = .next t ∧ (unitAt t u).result.status? = some .param) ↔
      c < 0 ∨ (unitAt s u).channelCount ≤ c ∨ n = 0 ∨ doneRef = false) ∧
      ∀ t, exec (.fifoStatusGet u c n flags doneRef) s = .next t → (unitAt t u).result.status? = some .param →
        AnswerFrame u s t

/-- R205 lines 5 and 6, where the parameters are good: flags have no meaning, nor has another count than the batch's. -/
def Obligations.StatusGetRefusals : Prop :=
  ∀ (u c : Int) (n : Nat) (flags : Word) (s : State), Available s u → ChannelInRange s u c → 1 ≤ n →
    (flags ≠ 0 → exec (.fifoStatusGet u c n flags true) s = .refused .flagsMeaning) ∧
      (flags = 0 → (channelAt (unitAt s u) c.toNat).state = .running → n ≠ (channelAt (unitAt s u) c.toNat).numOps →
        exec (.fifoStatusGet u c n flags true) s = .refused .numOpsMismatch)

/-- R211: a read through a reference that is good gives the response data and writes nothing; through any other it has no
meaning. That a read is an event of the step, and the stamp, are the model's (log 4, log 28). -/
def Obligations.ResponseReferenceRead : Prop :=
  ∀ (ref : RespRef) (rest : List Event) (s : State), s.inbox = .readResponse ref :: rest →
    ((channelAt (unitAt s ref.unit) ref.channel).respRef = some ref.stamp →
      ∃ t, step s = .next t ∧ AnswerFrame ref.unit { s with inbox := rest } t ∧
        (unitAt t ref.unit).result = .response (channelAt (unitAt s ref.unit) ref.channel).respMem) ∧
      ((channelAt (unitAt s ref.unit) ref.channel).respRef ≠ some ref.stamp →
        step s = .refused .deadResponseReference)

/-! ## The channel engine -/

/-- R215: an enabled engine completes one operation: the response words that `chan_exec` answers for the batch's command
words and the operation's index are appended, and `DONE` counts up by one. Nothing else changes, and `ACTIVE` is not asked
for (R238). That `chan_exec` is also told the tick is the model's (log 15). -/
def Obligations.EngineCompletesOneOperation : Prop :=
  ∀ (u : Int) (c : Nat) (rest : List Event) (s : State),
    s.inbox = .engine u c :: rest → 0 ≤ u ∧ u < Config.config.numUnits → c < (unitAt s u).channelCount →
    (channelAt (unitAt s u) c).state = .running → (channelAt (unitAt s u) c).done < (channelAt (unitAt s u) c).numOps →
    ∃ t, step s = .next t ∧ ChannelFrame u c { s with inbox := rest } t ∧
      (unitAt t u).result = (unitAt s u).result ∧
      channelAt (unitAt t u) c =
        { channelAt (unitAt s u) c with
          respMem :=
            (channelAt (unitAt s u) c).respMem ++
              Config.config.chanExec u (unitAt s u).tick c
                (Memory.words (channelAt (unitAt s u) c).cmdMem (channelAt (unitAt s u) c).cmdLen)
                (channelAt (unitAt s u) c).done
          done := (channelAt (unitAt s u) c).done + 1 }

/-- R217: an engine without an enabled step takes none. An event for an engine the block does not have is a fault of the
model's schedule (log 21). -/
def Obligations.EngineIdleOrAbsent : Prop :=
  ∀ (u : Int) (c : Nat) (rest : List Event) (s : State), s.inbox = .engine u c :: rest →
    (0 ≤ u ∧ u < Config.config.numUnits → c < (unitAt s u).channelCount →
      ¬((channelAt (unitAt s u) c).state = .running ∧
        (channelAt (unitAt s u) c).done < (channelAt (unitAt s u) c).numOps) →
      ∃ t, step s = .next t ∧ t.inbox = rest ∧ t.simPresent = s.simPresent ∧ ∀ v, unitAt t v = unitAt s v) ∧
      (¬(0 ≤ u ∧ u < Config.config.numUnits ∧ c < (unitAt s u).channelCount) →
        step s = .fault (.noSuchEngine u c))

/-! ## What an instruction may touch -/

/-- R221: an operation on one channel writes no other channel and nothing of the controller. -/
def Obligations.ChannelsWriteOnlyOwn : Prop :=
  ∀ (i : Instr) (c : Int) (s t : State), channelOf i = some c → exec i s = .next t →
    ChannelFrame i.unit c.toNat s t

/-- R221: what an operation on one channel answers, and what it leaves in that channel, does not depend on any other
channel: two states of the unit that differ in the others alone cannot be told apart. -/
def Obligations.ChannelsReadOnlyOwn : Prop :=
  ∀ (i : Instr) (c : Int) (s s' : State), channelOf i = some c →
    SameController (unitAt s i.unit) (unitAt s' i.unit) → (unitAt s' i.unit).tick = (unitAt s i.unit).tick →
    channelAt (unitAt s' i.unit) c.toNat = channelAt (unitAt s i.unit) c.toNat →
    (∀ t, exec i s = .next t →
      ∃ t', exec i s' = .next t' ∧ (unitAt t' i.unit).result = (unitAt t i.unit).result ∧
        channelAt (unitAt t' i.unit) c.toNat = channelAt (unitAt t i.unit) c.toNat) ∧
      ∀ r, exec i s = .refused r → exec i s' = .refused r

/-- R75: an instruction writes nothing of another unit. -/
def Obligations.UnitsWriteOnlyOwn : Prop :=
  ∀ (i : Instr) (s t : State), exec i s = .next t → OnlyUnit i.unit s t

/-- R75: an instruction reads nothing of another unit. -/
def Obligations.UnitsReadOnlyOwn : Prop :=
  ∀ (i : Instr) (s s' : State), unitAt s' i.unit = unitAt s i.unit → s'.simPresent = s.simPresent →
    (∀ t, exec i s = .next t → ∃ t', exec i s' = .next t' ∧ unitAt t' i.unit = unitAt t i.unit) ∧
      ∀ r, exec i s = .refused r → exec i s' = .refused r

/-- R75: instructions of two units may come in either order. -/
def Obligations.DifferentUnitsCommute : Prop :=
  ∀ (a b : Instr) (s t r : State), a.unit ≠ b.unit → exec a s = .next t → exec b t = .next r →
    ∃ t' r', exec b s = .next t' ∧ exec a t' = .next r' ∧ r'.simPresent = r.simPresent ∧ r'.inbox = r.inbox ∧
      ∀ u, unitAt r' u = unitAt r u

/-- R74, R78: two overlapping calls on one unit have no meaning. -/
def Obligations.OverlapOnOneUnitRefused : Prop :=
  ∀ (f g : Frame) (a b : Instr) (rest : List Event) (s : State), s.inbox = .overlap f g :: rest →
    decode f = .ok a → decode g = .ok b → a.unit = b.unit → step s = .refused .unserialised

/-- R275: the status an instruction gives its caller is one of its row, unless an installed hook chose it; only
`select_route` gives none. A transport failure it gives is one of P17's (R251). -/
def Obligations.StatusesByOperation : Prop :=
  ∀ (i : Instr) (s t : State), exec i s = .next t →
    ((∃ st, (unitAt t i.unit).result.status? = some st) ↔ ∀ u ext address, i ≠ .selectRoute u ext address) ∧
      (∀ st, (unitAt t i.unit).result.status? = some st → ¬(isPio i = true ∧ s.simPresent = true) →
        mayReturn i st = true) ∧
      ∀ e, (unitAt t i.unit).result.status? = some (.transport e) → Config.config.isTransportErr e = true

/-- R253: after `E_PARAM` or `E_UNAVAIL` no state of the block has changed; after `E_PROTOCOL` or `E_TRANSPORT` the message
buffer alone; after `E_TIMEOUT` of a FIFO operation no other channel, no controller field and no message word. -/
def Obligations.FailuresLeaveState : Prop :=
  ∀ (i : Instr) (s t : State) (st : Status), exec i s = .next t → (unitAt t i.unit).result.status? = some st →
    (st = .param ∨ st = .unavail → AnswerFrame i.unit s t) ∧
      (st = .protocol ∨ (∃ e, st = .transport e) → MessageFrame i.unit s t) ∧
      (st = .timeout → isPio i = true ∨ ∃ c, channelOf i = some c ∧ ChannelFrame i.unit c.toNat s t)

/-- R252: no instruction faults. -/
def Obligations.InstructionsNeverFault : Prop := ∀ (i : Instr) (s : State) (f : Fault), exec i s ≠ .fault f

/-- R237: no step of any agent clears `PRESENT`. -/
def Obligations.PresentNeverCleared : Prop :=
  ∀ (s t : State) (u : Int), step s = .next t → (unitAt s u).present = true → (unitAt t u).present = true

/-- R262, R28: among the instructions only attach and detach of a unit change its `ACTIVE`, to 1 and to 0. -/
def Obligations.ActiveChangesByAttachDetach : Prop :=
  ∀ (i : Instr) (s t : State) (u : Int), exec i s = .next t → (unitAt t u).active ≠ (unitAt s u).active →
    i = .fifoAttach u ∧ (unitAt t u).active = true ∨ i = .fifoDetach u ∧ (unitAt t u).active = false

/-- R220: where `CHSTATE` of a channel moves, it moves along a row of the table, by the instruction of that row, and the
caller is given `OK`. A single engine step moves no `CHSTATE`. -/
def Obligations.ChannelStateTransitions : Prop :=
  (∀ (i : Instr) (s t : State) (u : Int) (c : Nat), exec i s = .next t →
    (channelAt (unitAt t u) c).state ≠ (channelAt (unitAt s u) c).state →
    Transition u c (channelAt (unitAt s u) c) i (channelAt (unitAt t u) c).state ∧
      (unitAt t u).result.status? = some .ok) ∧
    ∀ (s t : State) (u v : Int) (c d : Nat) (rest : List Event), s.inbox = .engine u c :: rest → step s = .next t →
      (channelAt (unitAt t v) d).state = (channelAt (unitAt s v) d).state

/-- R81, R63: among the instructions only `fifo_ops_send` of that channel, and an attach of its unit, changes a command
memory. -/
def Obligations.CommandMemoryWriters : Prop :=
  ∀ (i : Instr) (s t : State) (u : Int) (c : Nat), exec i s = .next t →
    (channelAt (unitAt t u) c).cmdMem ≠ (channelAt (unitAt s u) c).cmdMem →
    (∃ n words size, i = .fifoOpsSend u c n words size 0) ∨ i = .fifoAttach u

/-- R216, W7: once the engine has been given as many steps as operations are left, one `fifo_status_get` with a poll
allowed gives `OK` with the whole count. That the engine is given them is the fairness assumption, here the inbox (log 4,
log 19); that the reference given is good is R211 (log 28). -/
def Obligations.StartedBatchCompletes : Prop :=
  ∀ (u : Int) (c n : Nat) (s : State),
    Available s u → c < (unitAt s u).channelCount → 1 ≤ n → (channelAt (unitAt s u) c).state = .running →
    (channelAt (unitAt s u) c).numOps = n → (channelAt (unitAt s u) c).done ≤ n → (unitAt s u).maxPolls ≠ 0 →
    s.inbox = List.replicate (n - (channelAt (unitAt s u) c).done) (.engine u c) ++
      [.call (encode (.fifoStatusGet u c n 0 true))] →
    ∃ t ref, Host.Core.run Sys2Proof.core (n - (channelAt (unitAt s u) c).done + 1) s = .next t ∧
      (unitAt t u).result = .completion .ok (some n) ref ∧ ref.unit = u ∧ ref.channel = c ∧
      ChannelZeroed (channelAt (unitAt t u) c) ∧ (channelAt (unitAt t u) c).respRef = some ref.stamp
end

