-- ==== Sys2Proof/Laws/Decode.lean ====
section
/-! SUPPORT. Laws of the header word in any layout (30_encoding.md R91, 40_codec.md R126), of any table of opcode numbers,
and of the operand readers. -/

namespace Sys2Proof

/-! ## The header word in any layout (P5) -/

theorem referenceLayout_valid : referenceLayout.valid = true := by decide

/-- The configured layout is one, whatever the configuration. -/
theorem Configuration.headerLayout_valid (C : Configuration) : C.headerLayout.valid = true := by
  unfold Configuration.headerLayout
  split
  · assumption
  · exact referenceLayout_valid

/-- Configured positions that are a layout are the layout. -/
theorem Configuration.headerLayout_of_valid {C : Configuration} (h : C.headerPositions.valid = true) :
    C.headerLayout = C.headerPositions := if_pos h

/-- What `HeaderLayout.valid` says: every field is inside the word, and any two lie apart. -/
theorem HeaderLayout.valid_iff {L : HeaderLayout} :
    L.valid = true ↔
      (L.opcodeLo + 6 ≤ 32 ∧ L.dstblkLo + 7 ≤ 32 ∧ L.acctypeLo + 5 ≤ 32 ∧ L.datalenLo + 7 ≤ 32 ∧ L.rsvdLo + 7 ≤ 32) ∧
        ((L.opcodeLo + 6 ≤ L.dstblkLo ∨ L.dstblkLo + 7 ≤ L.opcodeLo) ∧
          (L.opcodeLo + 6 ≤ L.acctypeLo ∨ L.acctypeLo + 5 ≤ L.opcodeLo) ∧
          (L.opcodeLo + 6 ≤ L.datalenLo ∨ L.datalenLo + 7 ≤ L.opcodeLo) ∧
          (L.opcodeLo + 6 ≤ L.rsvdLo ∨ L.rsvdLo + 7 ≤ L.opcodeLo)) ∧
        ((L.dstblkLo + 7 ≤ L.acctypeLo ∨ L.acctypeLo + 5 ≤ L.dstblkLo) ∧
          (L.dstblkLo + 7 ≤ L.datalenLo ∨ L.datalenLo + 7 ≤ L.dstblkLo) ∧
          (L.dstblkLo + 7 ≤ L.rsvdLo ∨ L.rsvdLo + 7 ≤ L.dstblkLo)) ∧
        ((L.acctypeLo + 5 ≤ L.datalenLo ∨ L.datalenLo + 7 ≤ L.acctypeLo) ∧
          (L.acctypeLo + 5 ≤ L.rsvdLo ∨ L.rsvdLo + 7 ≤ L.acctypeLo)) ∧
        (L.datalenLo + 7 ≤ L.rsvdLo ∨ L.rsvdLo + 7 ≤ L.datalenLo) := by
  simp [HeaderLayout.valid, HeaderLayout.slots]

/-- A field placed at `lo` stands at `lo` and up. -/
theorem getLsbD_placed {w lo i : Nat} (x : BitVec w) (hi : i < w) (h : lo + w ≤ 32) :
    (x.setWidth 32 <<< lo).getLsbD (lo + i) = x.getLsbD i := by
  have h1 : lo + i < 32 := by omega
  simp [h1]

/-- And nowhere else. -/
theorem getLsbD_placed_outside {w lo j : Nat} (x : BitVec w) (h : j < lo ∨ lo + w ≤ j) :
    (x.setWidth 32 <<< lo).getLsbD j = false := by
  rw [BitVec.getLsbD_shiftLeft]
  rcases h with h | h
  · simp [h]
  · simp [BitVec.getLsbD_of_ge x (j - lo) (by omega)]

theorem headerOpcode_headerWord {L : HeaderLayout} (hL : L.valid = true) (op : BitVec 6) (h : HeaderFields) :
    headerOpcode L (headerWord L op h) = op := by
  obtain ⟨⟨b1, -, -, -, -⟩, ⟨d1, d2, d3, d4⟩, -⟩ := HeaderLayout.valid_iff.mp hL
  apply BitVec.eq_of_getLsbD_eq
  intro i hi
  rw [headerOpcode, BitVec.getLsbD_extractLsb', headerWord]
  simp only [BitVec.getLsbD_or]
  rw [getLsbD_placed op hi b1, getLsbD_placed_outside h.dstblk (by omega), getLsbD_placed_outside h.acctype (by omega),
    getLsbD_placed_outside h.datalen (by omega), getLsbD_placed_outside h.rsvd (by omega)]
  simp [hi]

theorem headerFields_headerWord {L : HeaderLayout} (hL : L.valid = true) (op : BitVec 6) (h : HeaderFields) :
    headerFields L (headerWord L op h) = h := by
  obtain ⟨⟨-, b2, b3, b4, b5⟩, ⟨d1, d2, d3, d4⟩, ⟨e1, e2, e3⟩, ⟨f1, f2⟩, g1⟩ := HeaderLayout.valid_iff.mp hL
  obtain ⟨d, a, l, r⟩ := h
  simp only [headerFields, HeaderFields.mk.injEq]
  refine ⟨?_, ?_, ?_, ?_⟩ <;>
    (apply BitVec.eq_of_getLsbD_eq; intro i hi; rw [BitVec.getLsbD_extractLsb', headerWord]; simp only [BitVec.getLsbD_or])
  · rw [getLsbD_placed d hi b2, getLsbD_placed_outside op (by omega), getLsbD_placed_outside a (by omega),
      getLsbD_placed_outside l (by omega), getLsbD_placed_outside r (by omega)]
    simp [hi]
  · rw [getLsbD_placed a hi b3, getLsbD_placed_outside op (by omega), getLsbD_placed_outside d (by omega),
      getLsbD_placed_outside l (by omega), getLsbD_placed_outside r (by omega)]
    simp [hi]
  · rw [getLsbD_placed l hi b4, getLsbD_placed_outside op (by omega), getLsbD_placed_outside d (by omega),
      getLsbD_placed_outside a (by omega), getLsbD_placed_outside r (by omega)]
    simp [hi]
  · rw [getLsbD_placed r hi b5, getLsbD_placed_outside op (by omega), getLsbD_placed_outside d (by omega),
      getLsbD_placed_outside a (by omega), getLsbD_placed_outside l (by omega)]
    simp [hi]

/-- No bit of a header word is outside the five fields of R91. -/
theorem headerWord_of_fields (w : Word) :
    headerWord referenceLayout (headerOpcode referenceLayout w) (headerFields referenceLayout w) = w := by
  simp only [headerOpcode, headerFields, headerWord, referenceLayout]
  ext i hi
  interval_cases i <;> simp

/-! ## The opcode numbers (P6) -/

theorem referenceNumber_injective : Function.Injective referenceNumber := by
  intro a b h
  cases a <;> cases b <;> first | rfl | exact absurd h (by decide)

/-- The configured numbers differ, whatever the configuration. -/
theorem Configuration.opcodeNumber_injective (C : Configuration) : Function.Injective C.opcodeNumber := by
  unfold Configuration.opcodeNumber
  split
  · rename_i h
    have hm : ∀ op, op ∈ allMsgOpcodes := by intro op; cases op <;> decide
    exact fun a b hab => List.inj_on_of_nodup_map h (hm a) (hm b) hab
  · exact referenceNumber_injective

/-- A table of eight different numbers is read back. -/
theorem msgOpcodeOf_number {number : MsgOpcode → BitVec 6} (hn : Function.Injective number) (op : MsgOpcode) :
    msgOpcodeOf number (number op) = some op := by
  cases hf : msgOpcodeOf number (number op) with
  | none =>
    have hm : op ∈ allMsgOpcodes := by cases op <;> decide
    have := List.find?_eq_none.mp hf op hm
    simp at this
  | some op' =>
    have h : op' = op := hn (by simpa using List.find?_some hf)
    rw [h]

@[simp] theorem msgOpcodeOf_reference (op : MsgOpcode) : msgOpcodeOf referenceNumber (referenceNumber op) = some op :=
  msgOpcodeOf_number referenceNumber_injective op

@[simp] theorem msgOpcodeOf_configured (C : Configuration) (op : MsgOpcode) :
    msgOpcodeOf C.opcodeNumber (C.opcodeNumber op) = some op := msgOpcodeOf_number C.opcodeNumber_injective op

theorem number_of_msgOpcodeOf {number : MsgOpcode → BitVec 6} {n : BitVec 6} {op : MsgOpcode}
    (h : msgOpcodeOf number n = some op) : number op = n := by
  have := List.find?_some h
  simpa using this

@[simp] theorem readWord_wordScalar (w : Word) : readWord (wordScalar w) = .ok w := by
  have h : w.toNat < 4294967296 := w.isLt
  have h1 : (0 : Int) ≤ wordScalar w ∧ wordScalar w < 4294967296 := by simp only [wordScalar]; omega
  rw [readWord, if_pos h1]
  simp [wordScalar]

@[simp] theorem readCount_natCast (n : Nat) : readCount (n : Int) = .ok n := by simp [readCount]

@[simp] theorem readBool_boolScalar (b : Bool) : readBool (boolScalar b) = .ok b := by cases b <;> rfl

theorem wordScalar_of_readWord {n : Int} {w : Word} (h : readWord n = .ok w) : n = wordScalar w := by
  simp only [readWord] at h
  split at h
  · rename_i hr
    simp only [Except.ok.injEq] at h
    subst h
    simp only [wordScalar, BitVec.toNat_ofInt]
    omega
  · cases h

theorem natCast_of_readCount {n : Int} {k : Nat} (h : readCount n = .ok k) : n = k := by
  simp only [readCount] at h
  split at h
  · simp only [Except.ok.injEq] at h; omega
  · cases h

theorem boolScalar_of_readBool {n : Int} {b : Bool} (h : readBool n = .ok b) : n = boolScalar b := by
  simp only [readBool] at h
  split at h
  · simp only [Except.ok.injEq] at h; subst h; simpa [boolScalar] using ‹n = 0›
  · split at h
    · simp only [Except.ok.injEq] at h; subst h; simpa [boolScalar] using ‹n = 1›
    · cases h

/-- No ordinal is a message header: its opcode field is 0 (R100, R107). -/
theorem msgOpcodeOf_ordinal (n : Nat) (h : n < 16) :
    msgOpcodeOf referenceNumber (headerOpcode referenceLayout (BitVec.ofNat 32 n)) = none := by
  interval_cases n <;> decide

/-- What an operand reader passes on where it succeeds. -/
theorem bind_eq_ok {α β : Type} {x : Except DecodeError α} {f : α → Except DecodeError β} {b : β}
    (h : (x >>= f) = .ok b) : ∃ a, x = .ok a ∧ f a = .ok b := by
  cases x with
  | error e => cases h
  | ok a => exact ⟨a, rfl, h⟩

/-- The decoder on a message frame (R93). -/
theorem decode_messageFrame (op : MsgOpcode) (host : Int) (h : HeaderFields) (body : List Word) :
    decode (messageFrame op host h body) = decodeMessage op h host body := by
  simp only [decode, messageFrame, headerOpcode_headerWord referenceLayout_valid, msgOpcodeOf_reference,
    headerFields_headerWord referenceLayout_valid]

/-- The decoder on a call frame (R107). -/
theorem decode_callFrame (n : Nat) (xs : List Int) (ws : Option (List Word)) (h : n < 16) :
    decode (callFrame n xs ws) = decodeCall n xs ws := by
  have hn : (BitVec.ofNat 32 n).toNat = n := by simp only [BitVec.toNat_ofNat]; omega
  simp only [decode, callFrame, msgOpcodeOf_ordinal n h, hn]

end Sys2Proof
end

