-- ==== Sys2Proof/Laws/Tables.lean ====
section
/-! SUPPORT. Laws of the sparse tables: a key reads what was last set under it, every other key is untouched, and every
operation keeps the canonical form. -/

namespace Sys2Proof.Machine

variable {κ α : Type} [LinearOrder κ]

@[simp] theorem tableFind_nil (k : κ) : tableFind k ([] : List (κ × α)) = none := rfl

theorem tableFind_insert (k j : κ) (v : α) (m : List (κ × α)) :
    tableFind j (tableInsert k v m) = if j = k then some v else tableFind j m := by
  induction m with
  | nil => simp [tableInsert, tableFind]
  | cons e m ih =>
    by_cases hk : k = e.1
    · by_cases hj : j = k <;> simp [tableInsert, tableFind, ← hk, hj]
    · by_cases hlt : k < e.1
      · simp [tableInsert, hk, hlt, tableFind]
      · by_cases hj : j = e.1
        · have hne : j ≠ k := fun h => hk (h.symm.trans hj)
          subst hj
          simp [tableInsert, hk, hlt, tableFind, hne]
        · simp [tableInsert, hk, hlt, tableFind, hj, ih]

theorem tableFind_erase (k j : κ) (m : List (κ × α)) :
    tableFind j (tableErase k m) = if j = k then none else tableFind j m := by
  induction m with
  | nil => simp [tableErase]
  | cons e m ih =>
    simp only [tableErase, ne_eq, decide_not] at ih ⊢
    by_cases he : e.1 = k
    · have hf : List.filter (fun e => !decide (e.1 = k)) (e :: m) = List.filter (fun e => !decide (e.1 = k)) m := by
        simp [he]
      rw [hf, ih]
      by_cases hj : j = k
      · simp [hj]
      · simp [hj, tableFind, he]
    · by_cases hj : j = e.1
      · have hne : j ≠ k := fun h => he (hj ▸ h)
        subst hj
        simp [hne, tableFind]
      · simp only [List.filter_cons, he, decide_false, Bool.not_false, if_true, tableFind, hj, if_false, ih]

@[simp] theorem tableGet_nil (d : α) (k : κ) : tableGet d ([] : List (κ × α)) k = d := rfl

/-- A table after one key is set: that key reads the new value, every other key what it read before. -/
theorem tableGet_set [DecidableEq α] (d : α) (m : List (κ × α)) (k j : κ) (v : α) :
    tableGet d (tableSet d m k v) j = if j = k then v else tableGet d m j := by
  by_cases hv : v = d
  · by_cases hj : j = k <;> simp [tableGet, tableSet, hv, tableFind_erase, hj]
  · by_cases hj : j = k <;> simp [tableGet, tableSet, hv, tableFind_insert, hj]

@[simp] theorem tableGet_set_same [DecidableEq α] (d : α) (m : List (κ × α)) (k : κ) (v : α) :
    tableGet d (tableSet d m k v) k = v := by simp [tableGet_set]

theorem tableGet_set_other [DecidableEq α] (d : α) (m : List (κ × α)) {k j : κ} (v : α) (h : j ≠ k) :
    tableGet d (tableSet d m k v) j = tableGet d m j := by simp [tableGet_set, h]

/-! ## The canonical form -/

theorem tableSorted_tail {e : κ × α} {m : List (κ × α)} (h : tableSorted (e :: m) = true) : tableSorted m = true := by
  cases m with
  | nil => rfl
  | cons e' m => simp only [tableSorted, Bool.and_eq_true] at h; exact h.2

/-- The keys of a sorted table lie above its first. -/
theorem tableSorted_head_lt {e : κ × α} {m : List (κ × α)} (h : tableSorted (e :: m) = true) :
    ∀ e' ∈ m, e.1 < e'.1 := by
  induction m generalizing e with
  | nil => simp
  | cons f m ih =>
    simp only [tableSorted, Bool.and_eq_true, decide_eq_true_eq] at h
    intro e' he'
    rcases List.mem_cons.mp he' with rfl | he'
    · exact h.1
    · exact lt_trans h.1 (ih h.2 e' he')

theorem tableSorted_cons {e : κ × α} {m : List (κ × α)} (hm : tableSorted m = true) (h : ∀ e' ∈ m, e.1 < e'.1) :
    tableSorted (e :: m) = true := by
  cases m with
  | nil => rfl
  | cons f m => simp [tableSorted, h f (by simp), hm]

theorem mem_tableInsert {k : κ} {v : α} {m : List (κ × α)} {e : κ × α} (h : e ∈ tableInsert k v m) :
    e = (k, v) ∨ e ∈ m := by
  induction m with
  | nil => simpa [tableInsert] using h
  | cons f m ih =>
    simp only [tableInsert] at h
    split at h
    · rcases List.mem_cons.mp h with h | h
      · exact .inl h
      · exact .inr (List.mem_cons_of_mem _ h)
    · split at h
      · rcases List.mem_cons.mp h with h | h
        · exact .inl h
        · exact .inr h
      · rcases List.mem_cons.mp h with h | h
        · exact .inr (h ▸ List.mem_cons_self)
        · exact (ih h).imp id (List.mem_cons_of_mem _)

theorem tableSorted_insert (k : κ) (v : α) {m : List (κ × α)} (h : tableSorted m = true) :
    tableSorted (tableInsert k v m) = true := by
  induction m with
  | nil => rfl
  | cons e m ih =>
    simp only [tableInsert]
    split
    · rename_i hk
      exact tableSorted_cons (tableSorted_tail h) fun e' he' => hk ▸ tableSorted_head_lt h e' he'
    · split
      · rename_i hk hlt
        exact tableSorted_cons h fun e' he' => by
          rcases List.mem_cons.mp he' with rfl | he'
          · exact hlt
          · exact lt_trans hlt (tableSorted_head_lt h e' he')
      · rename_i hk hlt
        refine tableSorted_cons (ih (tableSorted_tail h)) fun e' he' => ?_
        rcases mem_tableInsert he' with rfl | he'
        · exact lt_of_le_of_ne (not_lt.mp hlt) (Ne.symm hk)
        · exact tableSorted_head_lt h e' he'

theorem tableSorted_filter (p : κ × α → Bool) {m : List (κ × α)} (h : tableSorted m = true) :
    tableSorted (m.filter p) = true := by
  induction m with
  | nil => rfl
  | cons e m ih =>
    rw [List.filter_cons]
    split
    · exact tableSorted_cons (ih (tableSorted_tail h)) fun e' he' =>
        tableSorted_head_lt h e' (List.mem_of_mem_filter he')
    · exact ih (tableSorted_tail h)

/-- Setting a key keeps the canonical form. -/
theorem tableCanonical_set [DecidableEq α] (d : α) {m : List (κ × α)} (k : κ) (v : α)
    (h : tableCanonical d m = true) : tableCanonical d (tableSet d m k v) = true := by
  simp only [tableCanonical, Bool.and_eq_true, List.all_eq_true, decide_eq_true_eq] at h ⊢
  by_cases hv : v = d
  · simp only [tableSet, if_pos hv]
    exact ⟨tableSorted_filter _ h.1, fun e he => h.2 e (List.mem_of_mem_filter he)⟩
  · simp only [tableSet, if_neg hv]
    refine ⟨tableSorted_insert k v h.1, fun e he => ?_⟩
    rcases mem_tableInsert he with rfl | he
    · exact hv
    · exact h.2 e he

theorem tableFind_mem {k : κ} {v : α} {m : List (κ × α)} (h : tableFind k m = some v) : (k, v) ∈ m := by
  induction m with
  | nil => simp at h
  | cons e m ih =>
    simp only [tableFind] at h
    split at h
    · rename_i hk
      simp only [Option.some.injEq] at h
      subst h; subst hk
      exact List.mem_cons_self
    · exact List.mem_cons_of_mem _ (ih h)

theorem tableFind_of_mem {k : κ} {v : α} {m : List (κ × α)} (hs : tableSorted m = true) (h : (k, v) ∈ m) :
    tableFind k m = some v := by
  induction m with
  | nil => simp at h
  | cons e m ih =>
    rcases List.mem_cons.mp h with rfl | h
    · simp [tableFind]
    · have hlt := tableSorted_head_lt hs (k, v) h
      simp only [tableFind, if_neg (ne_of_gt hlt)]
      exact ih (tableSorted_tail hs) h

/-! ## Tables built whole -/

theorem tableSorted_range_map {α : Type} (n lo : Nat) (f : Nat → α) :
    tableSorted ((List.range' lo n).map fun k => (k, f k)) = true := by
  induction n generalizing lo with
  | zero => rfl
  | succ n ih =>
    rw [List.range'_succ, List.map_cons]
    refine tableSorted_cons (ih (lo + 1)) fun e he => ?_
    obtain ⟨k, hk, rfl⟩ := List.mem_map.mp he
    exact Nat.lt_of_lt_of_le (Nat.lt_succ_self lo) (List.mem_range'_1.mp hk).1

/-- A table built whole is canonical. -/
theorem tableCanonical_build {α : Type} [DecidableEq α] (d : α) (n : Nat) (f : Nat → α) :
    tableCanonical d (tableBuild d n f) = true := by
  simp only [tableCanonical, tableBuild, Bool.and_eq_true, List.all_eq_true]
  refine ⟨tableSorted_filter _ ?_, fun e he => (List.mem_filter.mp he).2⟩
  rw [List.range_eq_range']
  exact tableSorted_range_map n 0 f

/-- A table built whole reads, under each of its keys, the value it was built from. -/
theorem tableGet_build {α : Type} [DecidableEq α] (d : α) (n : Nat) (f : Nat → α) (k : Nat) :
    tableGet d (tableBuild d n f) k = if k < n then f k else d := by
  have hs : tableSorted (tableBuild d n f) = true := by
    have := tableCanonical_build d n f
    simp only [tableCanonical, Bool.and_eq_true] at this
    exact this.1
  have hmem : ∀ v, (k, v) ∈ tableBuild d n f ↔ k < n ∧ v = f k ∧ v ≠ d := by
    intro v
    simp only [tableBuild, List.mem_filter, List.mem_map, List.mem_range, Prod.mk.injEq, decide_eq_true_eq]
    constructor
    · rintro ⟨⟨j, hj, rfl, rfl⟩, hd⟩
      exact ⟨hj, rfl, hd⟩
    · rintro ⟨hk, rfl, hd⟩
      exact ⟨⟨k, hk, rfl, rfl⟩, hd⟩
  unfold tableGet
  cases hf : tableFind k (tableBuild d n f) with
  | some v =>
    obtain ⟨hk, rfl, -⟩ := (hmem v).mp (tableFind_mem hf)
    rw [if_pos hk]
    rfl
  | none =>
    split
    · rename_i hk
      by_contra hd
      rw [tableFind_of_mem hs ((hmem (f k)).mpr ⟨hk, rfl, fun h => hd h.symm⟩)] at hf
      cases hf
    · rfl

end Sys2Proof.Machine
end

