-- ==== Sys2Proof/Laws/State.lean ====
section
/-! SUPPORT. One lemma per field per update of the state's records, true by rfl, so that no later proof unfolds an update;
and what a unit or a channel reads after one is replaced. -/

namespace Sys2Proof.Machine

/-! ## The state -/

@[simp] theorem setUnit_simPresent (s : State) (u : Int) (us : UnitState) :
    (setUnit s u us).simPresent = s.simPresent := rfl
@[simp] theorem setUnit_inbox (s : State) (u : Int) (us : UnitState) : (setUnit s u us).inbox = s.inbox := rfl
@[simp] theorem placeCall_simPresent (s : State) (f : Frame) : (placeCall s f).simPresent = s.simPresent := rfl
@[simp] theorem placeCall_units (s : State) (f : Frame) : (placeCall s f).units = s.units := rfl
@[simp] theorem placeCall_inbox (s : State) (f : Frame) : (placeCall s f).inbox = .call f :: s.inbox := rfl
@[simp] theorem unitAt_inbox (s : State) (es : List Event) (u : Int) :
    unitAt { s with inbox := es } u = unitAt s u := rfl
@[simp] theorem unitAt_reset (u : Int) : unitAt State.reset u = UnitState.reset := rfl
@[simp] theorem channelAt_unitReset (c : Nat) : channelAt UnitState.reset c = Channel.reset := rfl

/-! ## Returning to the caller -/

@[simp] theorem finish_present (us : UnitState) (r : Result) : (us.finish r).present = us.present := rfl
@[simp] theorem finish_active (us : UnitState) (r : Result) : (us.finish r).active = us.active := rfl
@[simp] theorem finish_bound (us : UnitState) (r : Result) : (us.finish r).bound = us.bound := rfl
@[simp] theorem finish_ops (us : UnitState) (r : Result) : (us.finish r).ops = us.ops := rfl
@[simp] theorem finish_channelCount (us : UnitState) (r : Result) :
    (us.finish r).channelCount = us.channelCount := rfl
@[simp] theorem finish_cmdMemWsize (us : UnitState) (r : Result) : (us.finish r).cmdMemWsize = us.cmdMemWsize := rfl
@[simp] theorem finish_maxPolls (us : UnitState) (r : Result) : (us.finish r).maxPolls = us.maxPolls := rfl
@[simp] theorem finish_initFlags (us : UnitState) (r : Result) : (us.finish r).initFlags = us.initFlags := rfl
@[simp] theorem finish_channels (us : UnitState) (r : Result) : (us.finish r).channels = us.channels := rfl
@[simp] theorem finish_msg (us : UnitState) (r : Result) : (us.finish r).msg = us.msg := rfl
@[simp] theorem finish_result (us : UnitState) (r : Result) : (us.finish r).result = r := rfl
@[simp] theorem finish_tick (us : UnitState) (r : Result) : (us.finish r).tick = us.tick + 1 := rfl
@[simp] theorem finish_channelAt (us : UnitState) (r : Result) (c : Nat) :
    channelAt (us.finish r) c = channelAt us c := rfl
@[simp] theorem finish_msgWord (us : UnitState) (r : Result) (i : Nat) : msgWord (us.finish r) i = msgWord us i := rfl

/-! ## Setting a channel -/

@[simp] theorem setChannel_present (us : UnitState) (c : Nat) (ch : Channel) :
    (setChannel us c ch).present = us.present := rfl
@[simp] theorem setChannel_active (us : UnitState) (c : Nat) (ch : Channel) :
    (setChannel us c ch).active = us.active := rfl
@[simp] theorem setChannel_bound (us : UnitState) (c : Nat) (ch : Channel) :
    (setChannel us c ch).bound = us.bound := rfl
@[simp] theorem setChannel_ops (us : UnitState) (c : Nat) (ch : Channel) : (setChannel us c ch).ops = us.ops := rfl
@[simp] theorem setChannel_channelCount (us : UnitState) (c : Nat) (ch : Channel) :
    (setChannel us c ch).channelCount = us.channelCount := rfl
@[simp] theorem setChannel_cmdMemWsize (us : UnitState) (c : Nat) (ch : Channel) :
    (setChannel us c ch).cmdMemWsize = us.cmdMemWsize := rfl
@[simp] theorem setChannel_maxPolls (us : UnitState) (c : Nat) (ch : Channel) :
    (setChannel us c ch).maxPolls = us.maxPolls := rfl
@[simp] theorem setChannel_initFlags (us : UnitState) (c : Nat) (ch : Channel) :
    (setChannel us c ch).initFlags = us.initFlags := rfl
@[simp] theorem setChannel_msg (us : UnitState) (c : Nat) (ch : Channel) : (setChannel us c ch).msg = us.msg := rfl
@[simp] theorem setChannel_result (us : UnitState) (c : Nat) (ch : Channel) :
    (setChannel us c ch).result = us.result := rfl
@[simp] theorem setChannel_tick (us : UnitState) (c : Nat) (ch : Channel) : (setChannel us c ch).tick = us.tick := rfl
@[simp] theorem setChannel_msgWord (us : UnitState) (c : Nat) (ch : Channel) (i : Nat) :
    msgWord (setChannel us c ch) i = msgWord us i := rfl

/-! ## A freshly attached unit (R230) -/

@[simp] theorem attachedUnit_present (C : Configuration) (u : Int) (b : Option Backend) (us : UnitState) :
    (attachedUnit C u b us).present = true := rfl
@[simp] theorem attachedUnit_active (C : Configuration) (u : Int) (b : Option Backend) (us : UnitState) :
    (attachedUnit C u b us).active = true := rfl
@[simp] theorem attachedUnit_bound (C : Configuration) (u : Int) (b : Option Backend) (us : UnitState) :
    (attachedUnit C u b us).bound = b.isSome := rfl
@[simp] theorem attachedUnit_ops (C : Configuration) (u : Int) (b : Option Backend) (us : UnitState) :
    (attachedUnit C u b us).ops = b := rfl
@[simp] theorem attachedUnit_channelCount (C : Configuration) (u : Int) (b : Option Backend) (us : UnitState) :
    (attachedUnit C u b us).channelCount = (b.map Backend.channelCount).getD 0 := rfl
@[simp] theorem attachedUnit_cmdMemWsize (C : Configuration) (u : Int) (b : Option Backend) (us : UnitState) :
    (attachedUnit C u b us).cmdMemWsize = (b.map Backend.cmdMemWsize).getD 0 := rfl
@[simp] theorem attachedUnit_maxPolls (C : Configuration) (u : Int) (b : Option Backend) (us : UnitState) :
    (attachedUnit C u b us).maxPolls = 0 := rfl
@[simp] theorem attachedUnit_initFlags (C : Configuration) (u : Int) (b : Option Backend) (us : UnitState) :
    (attachedUnit C u b us).initFlags = 0 := rfl
@[simp] theorem attachedUnit_msg (C : Configuration) (u : Int) (b : Option Backend) (us : UnitState) :
    (attachedUnit C u b us).msg = us.msg := rfl
@[simp] theorem attachedUnit_result (C : Configuration) (u : Int) (b : Option Backend) (us : UnitState) :
    (attachedUnit C u b us).result = us.result := rfl
@[simp] theorem attachedUnit_tick (C : Configuration) (u : Int) (b : Option Backend) (us : UnitState) :
    (attachedUnit C u b us).tick = us.tick := rfl
@[simp] theorem attachedUnit_channels (C : Configuration) (u : Int) (b : Option Backend) (us : UnitState) :
    (attachedUnit C u b us).channels =
      tableBuild Channel.reset ((b.map Backend.channelCount).getD 0)
        (attachedChannel C u us.tick ((b.map Backend.cmdMemWsize).getD 0)) := rfl
@[simp] theorem attachedUnit_msgWord (C : Configuration) (u : Int) (b : Option Backend) (us : UnitState) (i : Nat) :
    msgWord (attachedUnit C u b us) i = msgWord us i := rfl

/-! ## A channel of a freshly attached unit (R230 line 8) -/

@[simp] theorem attachedChannel_state (C : Configuration) (u : Int) (k w c : Nat) :
    (attachedChannel C u k w c).state = .idle := rfl
@[simp] theorem attachedChannel_start (C : Configuration) (u : Int) (k w c : Nat) :
    (attachedChannel C u k w c).start = false := rfl
@[simp] theorem attachedChannel_numOps (C : Configuration) (u : Int) (k w c : Nat) :
    (attachedChannel C u k w c).numOps = 0 := rfl
@[simp] theorem attachedChannel_done (C : Configuration) (u : Int) (k w c : Nat) :
    (attachedChannel C u k w c).done = 0 := rfl
@[simp] theorem attachedChannel_timedOut (C : Configuration) (u : Int) (k w c : Nat) :
    (attachedChannel C u k w c).timedOut = false := rfl
@[simp] theorem attachedChannel_cmdLen (C : Configuration) (u : Int) (k w c : Nat) :
    (attachedChannel C u k w c).cmdLen = 0 := rfl
@[simp] theorem attachedChannel_cmdMem (C : Configuration) (u : Int) (k w c : Nat) :
    (attachedChannel C u k w c).cmdMem = Memory.redraw [] 0 w (C.freeCmdWord u k c) := rfl
@[simp] theorem attachedChannel_respMem (C : Configuration) (u : Int) (k w c : Nat) :
    (attachedChannel C u k w c).respMem = C.freeRespMem u k c := rfl
@[simp] theorem attachedChannel_respRef (C : Configuration) (u : Int) (k w c : Nat) :
    (attachedChannel C u k w c).respRef = none := rfl

/-! ## A queued channel (R190) -/

@[simp] theorem queuedChannel_state (w n : Nat) (ws : List Word) (z : Nat) (g : Nat → Word) (ch : Channel) :
    (queuedChannel w n ws z g ch).state = .queued := rfl
@[simp] theorem queuedChannel_start (w n : Nat) (ws : List Word) (z : Nat) (g : Nat → Word) (ch : Channel) :
    (queuedChannel w n ws z g ch).start = false := rfl
@[simp] theorem queuedChannel_numOps (w n : Nat) (ws : List Word) (z : Nat) (g : Nat → Word) (ch : Channel) :
    (queuedChannel w n ws z g ch).numOps = n := rfl
@[simp] theorem queuedChannel_done (w n : Nat) (ws : List Word) (z : Nat) (g : Nat → Word) (ch : Channel) :
    (queuedChannel w n ws z g ch).done = 0 := rfl
@[simp] theorem queuedChannel_timedOut (w n : Nat) (ws : List Word) (z : Nat) (g : Nat → Word) (ch : Channel) :
    (queuedChannel w n ws z g ch).timedOut = false := rfl
@[simp] theorem queuedChannel_cmdLen (w n : Nat) (ws : List Word) (z : Nat) (g : Nat → Word) (ch : Channel) :
    (queuedChannel w n ws z g ch).cmdLen = z := rfl
@[simp] theorem queuedChannel_cmdMem (w n : Nat) (ws : List Word) (z : Nat) (g : Nat → Word) (ch : Channel) :
    (queuedChannel w n ws z g ch).cmdMem = (ch.cmdMem.writeAll 0 (ws.take z)).redraw z w g := rfl
@[simp] theorem queuedChannel_respMem (w n : Nat) (ws : List Word) (z : Nat) (g : Nat → Word) (ch : Channel) :
    (queuedChannel w n ws z g ch).respMem = [] := rfl
@[simp] theorem queuedChannel_respRef (w n : Nat) (ws : List Word) (z : Nat) (g : Nat → Word) (ch : Channel) :
    (queuedChannel w n ws z g ch).respRef = none := rfl

/-! ## A started channel (R198) -/

@[simp] theorem startedChannel_state (ch : Channel) : (startedChannel ch).state = .running := rfl
@[simp] theorem startedChannel_start (ch : Channel) : (startedChannel ch).start = true := rfl
@[simp] theorem startedChannel_numOps (ch : Channel) : (startedChannel ch).numOps = ch.numOps := rfl
@[simp] theorem startedChannel_done (ch : Channel) : (startedChannel ch).done = ch.done := rfl
@[simp] theorem startedChannel_timedOut (ch : Channel) : (startedChannel ch).timedOut = ch.timedOut := rfl
@[simp] theorem startedChannel_cmdLen (ch : Channel) : (startedChannel ch).cmdLen = ch.cmdLen := rfl
@[simp] theorem startedChannel_cmdMem (ch : Channel) : (startedChannel ch).cmdMem = ch.cmdMem := rfl
@[simp] theorem startedChannel_respMem (ch : Channel) : (startedChannel ch).respMem = ch.respMem := rfl
@[simp] theorem startedChannel_respRef (ch : Channel) : (startedChannel ch).respRef = ch.respRef := rfl

/-! ## An aborted channel (R198) -/

@[simp] theorem abortedChannel_state (r : List Word) (ch : Channel) : (abortedChannel r ch).state = .idle := rfl
@[simp] theorem abortedChannel_start (r : List Word) (ch : Channel) : (abortedChannel r ch).start = false := rfl
@[simp] theorem abortedChannel_numOps (r : List Word) (ch : Channel) : (abortedChannel r ch).numOps = 0 := rfl
@[simp] theorem abortedChannel_done (r : List Word) (ch : Channel) : (abortedChannel r ch).done = 0 := rfl
@[simp] theorem abortedChannel_timedOut (r : List Word) (ch : Channel) : (abortedChannel r ch).timedOut = false := rfl
@[simp] theorem abortedChannel_cmdLen (r : List Word) (ch : Channel) : (abortedChannel r ch).cmdLen = 0 := rfl
@[simp] theorem abortedChannel_cmdMem (r : List Word) (ch : Channel) : (abortedChannel r ch).cmdMem = ch.cmdMem := rfl
@[simp] theorem abortedChannel_respMem (r : List Word) (ch : Channel) : (abortedChannel r ch).respMem = r := rfl
@[simp] theorem abortedChannel_respRef (r : List Word) (ch : Channel) : (abortedChannel r ch).respRef = none := rfl

/-! ## A completed channel (R205) -/

@[simp] theorem completedChannel_state (k : Nat) (ch : Channel) : (completedChannel k ch).state = .idle := rfl
@[simp] theorem completedChannel_start (k : Nat) (ch : Channel) : (completedChannel k ch).start = false := rfl
@[simp] theorem completedChannel_numOps (k : Nat) (ch : Channel) : (completedChannel k ch).numOps = 0 := rfl
@[simp] theorem completedChannel_done (k : Nat) (ch : Channel) : (completedChannel k ch).done = 0 := rfl
@[simp] theorem completedChannel_timedOut (k : Nat) (ch : Channel) : (completedChannel k ch).timedOut = false := rfl
@[simp] theorem completedChannel_cmdLen (k : Nat) (ch : Channel) : (completedChannel k ch).cmdLen = 0 := rfl
@[simp] theorem completedChannel_cmdMem (k : Nat) (ch : Channel) : (completedChannel k ch).cmdMem = ch.cmdMem := rfl
@[simp] theorem completedChannel_respMem (k : Nat) (ch : Channel) :
    (completedChannel k ch).respMem = ch.respMem := rfl
@[simp] theorem completedChannel_respRef (k : Nat) (ch : Channel) : (completedChannel k ch).respRef = some k := rfl

/-! ## A timed-out channel (R205) -/

@[simp] theorem timedOutChannel_state (ch : Channel) : (timedOutChannel ch).state = ch.state := rfl
@[simp] theorem timedOutChannel_start (ch : Channel) : (timedOutChannel ch).start = ch.start := rfl
@[simp] theorem timedOutChannel_numOps (ch : Channel) : (timedOutChannel ch).numOps = ch.numOps := rfl
@[simp] theorem timedOutChannel_done (ch : Channel) : (timedOutChannel ch).done = ch.done := rfl
@[simp] theorem timedOutChannel_timedOut (ch : Channel) : (timedOutChannel ch).timedOut = true := rfl
@[simp] theorem timedOutChannel_cmdLen (ch : Channel) : (timedOutChannel ch).cmdLen = ch.cmdLen := rfl
@[simp] theorem timedOutChannel_cmdMem (ch : Channel) : (timedOutChannel ch).cmdMem = ch.cmdMem := rfl
@[simp] theorem timedOutChannel_respMem (ch : Channel) : (timedOutChannel ch).respMem = ch.respMem := rfl
@[simp] theorem timedOutChannel_respRef (ch : Channel) : (timedOutChannel ch).respRef = ch.respRef := rfl

/-! ## A channel after an engine step (R215) -/

@[simp] theorem completedOp_state (p : List Word) (ch : Channel) : (completedOp p ch).state = ch.state := rfl
@[simp] theorem completedOp_start (p : List Word) (ch : Channel) : (completedOp p ch).start = ch.start := rfl
@[simp] theorem completedOp_numOps (p : List Word) (ch : Channel) : (completedOp p ch).numOps = ch.numOps := rfl
@[simp] theorem completedOp_done (p : List Word) (ch : Channel) : (completedOp p ch).done = ch.done + 1 := rfl
@[simp] theorem completedOp_timedOut (p : List Word) (ch : Channel) : (completedOp p ch).timedOut = ch.timedOut := rfl
@[simp] theorem completedOp_cmdLen (p : List Word) (ch : Channel) : (completedOp p ch).cmdLen = ch.cmdLen := rfl
@[simp] theorem completedOp_cmdMem (p : List Word) (ch : Channel) : (completedOp p ch).cmdMem = ch.cmdMem := rfl
@[simp] theorem completedOp_respMem (p : List Word) (ch : Channel) :
    (completedOp p ch).respMem = ch.respMem ++ p := rfl
@[simp] theorem completedOp_respRef (p : List Word) (ch : Channel) : (completedOp p ch).respRef = ch.respRef := rfl

/-! ## A channel at process start (R34) -/

@[simp] theorem channelReset_state : (Channel.reset).state = .idle := rfl
@[simp] theorem channelReset_start : (Channel.reset).start = false := rfl
@[simp] theorem channelReset_numOps : (Channel.reset).numOps = 0 := rfl
@[simp] theorem channelReset_done : (Channel.reset).done = 0 := rfl
@[simp] theorem channelReset_timedOut : (Channel.reset).timedOut = false := rfl
@[simp] theorem channelReset_cmdLen : (Channel.reset).cmdLen = 0 := rfl
@[simp] theorem channelReset_cmdMem : (Channel.reset).cmdMem = [] := rfl
@[simp] theorem channelReset_respMem : (Channel.reset).respMem = [] := rfl
@[simp] theorem channelReset_respRef : (Channel.reset).respRef = none := rfl

/-! ## A unit at process start (R41) -/

@[simp] theorem unitReset_present : UnitState.reset.present = false := rfl
@[simp] theorem unitReset_active : UnitState.reset.active = false := rfl
@[simp] theorem unitReset_bound : UnitState.reset.bound = false := rfl
@[simp] theorem unitReset_ops : UnitState.reset.ops = none := rfl
@[simp] theorem unitReset_channelCount : UnitState.reset.channelCount = 0 := rfl
@[simp] theorem unitReset_cmdMemWsize : UnitState.reset.cmdMemWsize = 0 := rfl
@[simp] theorem unitReset_maxPolls : UnitState.reset.maxPolls = 0 := rfl
@[simp] theorem unitReset_initFlags : UnitState.reset.initFlags = 0 := rfl
@[simp] theorem unitReset_channels : UnitState.reset.channels = [] := rfl
@[simp] theorem unitReset_msg : UnitState.reset.msg = [] := rfl
@[simp] theorem unitReset_result : UnitState.reset.result = .nothing := rfl
@[simp] theorem unitReset_tick : UnitState.reset.tick = 0 := rfl

/-! ## What is read after a unit or a channel is replaced -/

/-- The channels of a freshly attached unit: as many as the backend has, each with drawn memories. -/
theorem channelAt_attachedUnit (C : Configuration) (u : Int) (b : Option Backend) (us : UnitState) (c : Nat) :
    channelAt (attachedUnit C u b us) c =
      if c < (b.map Backend.channelCount).getD 0 then
        attachedChannel C u us.tick ((b.map Backend.cmdMemWsize).getD 0) c
      else Channel.reset := tableGet_build ..

/-- The units after one is replaced. -/
theorem unitAt_setUnit (s : State) (u v : Int) (us : UnitState) :
    unitAt (setUnit s u us) v = if v = u then us else unitAt s v := tableGet_set ..

@[simp] theorem unitAt_setUnit_same (s : State) (u : Int) (us : UnitState) : unitAt (setUnit s u us) u = us := by
  simp [unitAt_setUnit]

theorem unitAt_setUnit_other (s : State) {u v : Int} (us : UnitState) (h : v ≠ u) :
    unitAt (setUnit s u us) v = unitAt s v := by simp [unitAt_setUnit, h]

/-- The channels after one is replaced. -/
theorem channelAt_setChannel (us : UnitState) (c d : Nat) (ch : Channel) :
    channelAt (setChannel us c ch) d = if d = c then ch else channelAt us d := tableGet_set ..

@[simp] theorem channelAt_setChannel_same (us : UnitState) (c : Nat) (ch : Channel) :
    channelAt (setChannel us c ch) c = ch := by simp [channelAt_setChannel]

theorem channelAt_setChannel_other (us : UnitState) {c d : Nat} (ch : Channel) (h : d ≠ c) :
    channelAt (setChannel us c ch) d = channelAt us d := by simp [channelAt_setChannel, h]

@[simp] theorem channelAt_tick (us : UnitState) (k c : Nat) : channelAt { us with tick := k } c = channelAt us c := rfl

@[simp] theorem channelAt_msg (us : UnitState) (m : List Word) (c : Nat) :
    channelAt { us with msg := m } c = channelAt us c := rfl

@[simp] theorem channelAt_active (us : UnitState) (b : Bool) (c : Nat) :
    channelAt { us with active := b } c = channelAt us c := rfl

@[simp] theorem channelAt_init (us : UnitState) (p f : Word) (c : Nat) :
    channelAt { us with maxPolls := p, initFlags := f } c = channelAt us c := rfl

end Sys2Proof.Machine
end

