-- ==== Sys2Proof/Laws/Memory.lean ====
section
/-! SUPPORT. Laws of the command memory (20_memory.md R63): what a word reads after a write, a batch of writes or a
draw of the words after a batch, and that each keeps the canonical form. -/

namespace Sys2Proof.Machine

@[simp] theorem Memory.read_nil (i : Nat) : Memory.read [] i = none := rfl

@[simp] theorem Memory.wf_nil : Memory.wf [] = true := rfl

theorem Memory.read_write (m : Memory) (i j : Nat) (w : Word) :
    (m.write i w).read j = if j = i then some w else m.read j := tableFind_insert ..

theorem Memory.wf_write {m : Memory} (i : Nat) (w : Word) (h : m.wf = true) : (m.write i w).wf = true :=
  tableSorted_insert i w h

theorem Memory.wf_writeAll {m : Memory} (i : Nat) (ws : List Word) (h : m.wf = true) :
    (m.writeAll i ws).wf = true := by
  induction ws generalizing m i with
  | nil => exact h
  | cons w ws ih => exact ih (i + 1) (Memory.wf_write i w h)

theorem Memory.wf_redraw {m : Memory} (lo hi : Nat) (draw : Nat → Word) (h : m.wf = true) :
    (m.redraw lo hi draw).wf = true := Memory.wf_writeAll _ _ h

/-- A word after a batch of writes: the batch's word inside it, the old word outside. -/
theorem Memory.read_writeAll (m : Memory) (i j : Nat) (ws : List Word) :
    (m.writeAll i ws).read j = if i ≤ j ∧ j < i + ws.length then ws[j - i]? else m.read j := by
  induction ws generalizing m i with
  | nil => simp [Memory.writeAll]
  | cons w ws ih =>
    simp only [Memory.writeAll, ih, Memory.read_write, List.length_cons]
    by_cases h1 : i + 1 ≤ j ∧ j < i + 1 + ws.length
    · have h2 : i ≤ j ∧ j < i + (ws.length + 1) := by omega
      have h3 : j - i = (j - (i + 1)) + 1 := by omega
      simp [h1, h2, h3]
    · by_cases h2 : j = i
      · have h3 : i ≤ j ∧ j < i + (ws.length + 1) := by omega
        simp [h2]
      · have h3 : ¬(i ≤ j ∧ j < i + (ws.length + 1)) := by omega
        simp only [h1, h3, h2, if_false]

/-- A word after the words `lo .. hi-1` are drawn. -/
theorem Memory.read_redraw (m : Memory) (lo hi j : Nat) (draw : Nat → Word) :
    (m.redraw lo hi draw).read j = if lo ≤ j ∧ j < hi then some (draw j) else m.read j := by
  rw [Memory.redraw, Memory.read_writeAll, List.length_map, List.length_range]
  by_cases h : lo ≤ j ∧ j < hi
  · have h1 : lo ≤ j ∧ j < lo + (hi - lo) := by omega
    have h2 : j - lo < hi - lo := by omega
    rw [if_pos h1, if_pos h, List.getElem?_map, List.getElem?_range h2, Option.map_some]
    congr 2
    omega
  · have h1 : ¬(lo ≤ j ∧ j < lo + (hi - lo)) := by omega
    rw [if_neg h1, if_neg h]

/-- A command memory after `fifo_ops_send`'s lines 11 and 12 (R190): the batch's words, then drawn ones up to the size, and
beyond the size what was there. -/
theorem Memory.read_batch (m : Memory) (ws : List Word) (size wsize j : Nat) (draw : Nat → Word)
    (hs : size ≤ ws.length) :
    ((m.writeAll 0 (ws.take size)).redraw size wsize draw).read j =
      if j < size then ws[j]? else if j < wsize then some (draw j) else m.read j := by
  rw [Memory.read_redraw, Memory.read_writeAll, List.length_take]
  by_cases h : j < size
  · have h1 : ¬(size ≤ j ∧ j < wsize) := by omega
    have h2 : 0 ≤ j ∧ j < 0 + min size ws.length := by omega
    rw [if_neg h1, if_pos h2, if_pos h, List.getElem?_take]
    simp [h]
  · have h2 : ¬(0 ≤ j ∧ j < 0 + min size ws.length) := by omega
    rw [if_neg h, if_neg h2]
    by_cases hw : j < wsize
    · rw [if_pos ⟨by omega, hw⟩, if_pos hw]
    · rw [if_neg (fun hc => hw hc.2), if_neg hw]

/-- A memory of `wsize` words has exactly those words after a batch is written into it. -/
theorem Memory.isSome_batch {m : Memory} {ws : List Word} {size wsize j : Nat} {draw : Nat → Word}
    (hs : size ≤ ws.length) (hz : size ≤ wsize) (hm : (m.read j).isSome = true ↔ j < wsize) :
    (((m.writeAll 0 (ws.take size)).redraw size wsize draw).read j).isSome = true ↔ j < wsize := by
  rw [Memory.read_batch m ws size wsize j draw hs]
  by_cases h : j < size
  · rw [if_pos h, List.getElem?_eq_getElem (by omega)]
    simp only [Option.isSome_some, true_iff]
    omega
  · by_cases hw : j < wsize
    · rw [if_neg h, if_pos hw]
      simp [hw]
    · rw [if_neg h, if_neg hw]
      exact hm

/-- The words the engine reads from a memory that has them all (R215 line 1). -/
theorem Memory.length_words {m : Memory} {n : Nat} (h : ∀ i, i < n → (m.read i).isSome = true) :
    (m.words n).length = n := by
  induction n with
  | zero => rfl
  | succ n ih =>
    have hw : Memory.words m (n + 1) = Memory.words m n ++ (m.read n).toList := by
      simp only [Memory.words, List.range_succ, List.filterMap_append, List.filterMap_cons, List.filterMap_nil]
      cases m.read n <;> rfl
    obtain ⟨w, hx⟩ := Option.isSome_iff_exists.mp (h n (Nat.lt_succ_self n))
    rw [hw, List.length_append, ih fun i hi => h i (Nat.lt_succ_of_lt hi), hx]
    rfl

end Sys2Proof.Machine
end

