-- ==== Sys2Proof/Laws/Ops.lean ====
section
/-! SUPPORT. For each shared operation, what it can do, said once: later proofs cite these lemmas and unfold neither the
operation nor the configuration. -/

namespace Sys2Proof

/-! ## The configuration's bounds (00_scope.md R11) -/

theorem Configuration.respCapacity_pos (C : Configuration) : 1 ≤ C.respCapacity := Nat.le_add_left ..

theorem Configuration.respCapacity_le (C : Configuration) : C.respCapacity ≤ 31 := by
  have := C.respCapacityLess1.isLt
  simp only [Configuration.respCapacity]
  omega

theorem Configuration.numUnits_pos (C : Configuration) : 1 ≤ C.numUnits := Nat.le_add_left ..

theorem Configuration.backendOf_channelCount {C : Configuration} {u : Int} {b : Backend} (h : C.backendOf u = some b) :
    1 ≤ b.channelCount := by
  simp only [Configuration.backendOf, Option.map_eq_some_iff] at h
  obtain ⟨_, _, rfl⟩ := h
  exact Nat.le_add_left ..

namespace Machine

/-! ## Host operations -/

/-- A host operation answers a next state exactly when it is not refused, and then changes its unit alone. -/
theorem perform_next_iff {s t : State} {u : Int} {r : Option Refusal} {f : UnitState → UnitState} :
    perform s u r f = .next t ↔ r = none ∧ t = setUnit s u (f (unitAt s u)) := by
  cases r with
  | some r => simp [perform]
  | none => simp [perform, eq_comm]

theorem perform_refused_iff {s : State} {u : Int} {r : Option Refusal} {f : UnitState → UnitState} {q : Refusal} :
    perform s u r f = .refused q ↔ r = some q := by
  cases r <;> simp [perform]

@[simp] theorem perform_none (s : State) (u : Int) (f : UnitState → UnitState) :
    perform s u none f = .next (setUnit s u (f (unitAt s u))) := rfl

/-- No host operation faults. -/
theorem perform_ne_fault {s : State} {u : Int} {r : Option Refusal} {f : UnitState → UnitState} {q : Fault} :
    perform s u r f ≠ .fault q := by
  cases r <;> simp [perform]

theorem onlyUnit_setUnit (s : State) (u : Int) (us : UnitState) : OnlyUnit u s (setUnit s u us) :=
  { others := fun _ h => unitAt_setUnit_other s us h, simPresent := rfl, inbox := rfl }

theorem perform_onlyUnit {s t : State} {u : Int} {r : Option Refusal} {f : UnitState → UnitState}
    (h : perform s u r f = .next t) : OnlyUnit u s t := by
  obtain ⟨-, rfl⟩ := perform_next_iff.mp h
  exact onlyUnit_setUnit ..

/-- Frames of a unit that only its message buffer, result and tick are changed of. -/
theorem messageFrame_setUnit (s : State) (u : Int) (m : List Word) (r : Result) (k : Nat) :
    MessageFrame u s (setUnit s u { unitAt s u with msg := m, result := r, tick := k }) :=
  { onlyUnit := onlyUnit_setUnit ..
    controller := by rw [unitAt_setUnit_same]; exact ⟨rfl, rfl, rfl, rfl, rfl, rfl, rfl, rfl⟩
    channels := by rw [unitAt_setUnit_same]; exact fun _ => rfl }

theorem answerFrame_setUnit (s : State) (u : Int) (r : Result) (k : Nat) :
    AnswerFrame u s (setUnit s u { unitAt s u with result := r, tick := k }) :=
  { message := messageFrame_setUnit s u (unitAt s u).msg r k
    msg := by rw [unitAt_setUnit_same]; exact fun _ => rfl }

/-- An operation that only answers (R253: a local failure among them). -/
theorem answerFrame_finish (s : State) (u : Int) (r : Result) : AnswerFrame u s (setUnit s u ((unitAt s u).finish r)) :=
  answerFrame_setUnit ..

/-- An operation on one channel. -/
theorem channelFrame_finish (s : State) (u : Int) (c : Nat) (ch : Channel) (r : Result) :
    ChannelFrame u c s (setUnit s u ((setChannel (unitAt s u) c ch).finish r)) :=
  { onlyUnit := onlyUnit_setUnit ..
    controller := by rw [unitAt_setUnit_same]; exact ⟨rfl, rfl, rfl, rfl, rfl, rfl, rfl, rfl⟩
    channels := by
      rw [unitAt_setUnit_same]
      exact fun d h => by rw [finish_channelAt, channelAt_setChannel_other _ _ h]
    msg := by rw [unitAt_setUnit_same]; exact fun _ => rfl }

/-! ## Flags -/

theorem unitInRange_iff {C : Configuration} {u : Int} : unitInRange C u = true ↔ 0 ≤ u ∧ u < C.numUnits := by
  simp [unitInRange]

/-- Unit 0 has a slot in every configuration (R11 P7). -/
theorem unitInRange_zero (C : Configuration) : unitInRange C 0 = true := by
  have := C.numUnits_pos
  rw [unitInRange_iff]
  omega

theorem avail_iff {C : Configuration} {u : Int} {us : UnitState} :
    avail C u us = true ↔
      us.present = true ∧ us.active = true ∧ us.bound = true ∧ 0 ≤ u ∧ u < C.numUnits := by
  simp [avail, unitInRange_iff, and_assoc]

theorem badChannel_false_iff {us : UnitState} {c : Int} :
    badChannel us c = false ↔ 0 ≤ c ∧ c.toNat < us.channelCount := by
  simp only [badChannel, Bool.or_eq_false_iff, decide_eq_false_iff_not]
  omega

theorem overCapacity_iff {C : Configuration} {n : Nat} : overCapacity C n = true ↔ C.respCapacity < n := by
  simp [overCapacity]

theorem overCapacity_false_iff {C : Configuration} {n : Nat} : overCapacity C n = false ↔ n ≤ C.respCapacity := by
  simp [overCapacity]

/-- The test of R230 line 2 says what its words say. -/
theorem someChannelRunning_iff {us : UnitState} :
    someChannelRunning us = true ↔ ∃ c, (channelAt us c).state = .running := by
  simp only [someChannelRunning, List.any_eq_true, decide_eq_true_eq]
  constructor
  · rintro ⟨e, -, he⟩
    exact ⟨e.1, he⟩
  · rintro ⟨c, hc⟩
    cases hf : tableFind c us.channels with
    | none => simp [channelAt, tableGet, hf] at hc
    | some ch => exact ⟨(c, ch), tableFind_mem hf, hc⟩

/-! ## The message buffer -/

theorem msgWord_msg (us : UnitState) (m : List Word) (i : Nat) : msgWord { us with msg := m } i = m.getD i 0 := rfl

/-- A buffer holding a command: the frame's words, then 0. -/
theorem msgWithCommand_getD (C : Configuration) (frame : List Word) (i : Nat) :
    (msgWithCommand C frame).getD i 0 = frame.getD i 0 := by
  simp only [msgWithCommand, List.getD_eq_getElem?_getD, List.getElem?_append, List.getElem?_replicate]
  split
  · rfl
  · rename_i h
    rw [List.getElem?_eq_none (Nat.not_lt.mp h)]
    split <;> rfl

theorem msgWithCommand_length {C : Configuration} {frame : List Word} (h : frame.length ≤ C.msgWords) :
    (msgWithCommand C frame).length = C.msgWords := by
  simp only [msgWithCommand, List.length_append, List.length_replicate]
  omega

/-- A buffer holding a response: its words first. -/
theorem msgWithResponse_getD {C : Configuration} {u : Int} {k i : Nat} {resp : List Word} (h : i < resp.length) :
    (msgWithResponse C u k resp).getD i 0 = resp.getD i 0 := by
  simp only [msgWithResponse, List.getD_eq_getElem?_getD, List.getElem?_append, h, if_true]

theorem msgWithResponse_length {C : Configuration} {u : Int} {k : Nat} {resp : List Word}
    (h : resp.length ≤ C.msgWords) : (msgWithResponse C u k resp).length = C.msgWords := by
  simp only [msgWithResponse, List.length_append, List.length_map, List.length_range]
  omega

/-- The data words decoded from a buffer that holds a response of `1 + n` words are the response's (R123). -/
theorem responseWords_of_response (C : Configuration) (us : UnitState) (u : Int) (k : Nat) (x : Word)
    (data : List Word) :
    responseWords { us with msg := msgWithResponse C u k (x :: data) } data.length = data := by
  apply List.ext_getElem?
  intro i
  simp only [responseWords, List.getElem?_map, msgWord_msg]
  by_cases hi : i < data.length
  · have h1 : 1 + i < (x :: data).length := by simp only [List.length_cons]; omega
    rw [List.getElem?_range hi, Option.map_some, msgWithResponse_getD h1, Nat.add_comm 1 i]
    simp [hi]
  · simp [hi]

theorem responseOpcode_of_response (C : Configuration) (us : UnitState) (u : Int) (k : Nat) (x : Word)
    (data : List Word) :
    responseOpcode C { us with msg := msgWithResponse C u k (x :: data) } = headerOpcode C.headerLayout x := by
  simp only [responseOpcode, msgWord_msg]
  rw [msgWithResponse_getD (by simp)]
  rfl

/-- Every failure the exchange layer answers with is one of P17. -/
theorem transportErr_mem (C : Configuration) (t : TransportErr) : C.isTransportErr (C.transportErr t) = true := by
  unfold Configuration.transportErr
  split
  · assumption
  · rfl

/-- An oracle's answer within P17 is taken as it is (R251, "unmodified"). -/
theorem transportErr_of_mem {C : Configuration} {t : TransportErr} (h : C.isTransportErr t = true) :
    C.transportErr t = t := if_pos h

theorem hookStatus_transport {C : Configuration} {st : Status} {t : TransportErr}
    (h : C.hookStatus st = .transport t) : C.isTransportErr t = true := by
  cases st <;> simp only [Configuration.hookStatus, reduceCtorEq, Status.transport.injEq] at h
  rw [← h]
  exact transportErr_mem C _

theorem exchange_transport {C : Configuration} {u : Int} {k n : Nat} {cmd : List Word} {t : TransportErr}
    (h : exchangeWords C u k cmd n = .error t) : C.isTransportErr t = true := by
  unfold exchangeWords Configuration.exchange at h
  cases hx : C.exchanges u k cmd n with
  | ok answer => rw [hx] at h; cases h
  | error e =>
    rw [hx] at h
    cases h
    exact transportErr_mem C e

/-- An answer of the exchange layer has exactly the words asked for (R66). -/
theorem exchangeWords_length {C : Configuration} {u : Int} {k n : Nat} {cmd resp : List Word}
    (h : exchangeWords C u k cmd n = .ok resp) : resp.length = n := by
  simp only [exchangeWords] at h
  split at h
  · simp only [Except.ok.injEq] at h; subst h; simp
  · cases h

theorem freeBuffer_length (C : Configuration) (u : Int) (k n : Nat) : (freeBuffer C u k n).length = n := by
  simp [freeBuffer]

/-! ## Commands -/

theorem isCommand_of_isWriteCmd {op : MsgOpcode} (h : op.isWriteCmd = true) : op.isCommand = true := by
  simp [MsgOpcode.isCommand, h]

theorem isCommand_of_isReadCmd {op : MsgOpcode} (h : op.isReadCmd = true) : op.isCommand = true := by
  simp [MsgOpcode.isCommand, h]

/-- A command opcode is found under its own number (R100, R102). -/
theorem commandOf_number (C : Configuration) {op : MsgOpcode} (h : op.isCommand = true) :
    commandOf C (C.opcodeNumber op).toNat = some op := by
  simp [commandOf, Option.filter, h]

/-- What is found under a number is a command opcode, and the number is its own. -/
theorem commandOf_eq_some {C : Configuration} {opcode : Nat} {op : MsgOpcode} (ho : opcode < 64)
    (h : commandOf C opcode = some op) : op.isCommand = true ∧ (C.opcodeNumber op).toNat = opcode := by
  simp only [commandOf, Option.filter_eq_some_iff] at h
  refine ⟨h.2, ?_⟩
  rw [number_of_msgOpcodeOf h.1, BitVec.toNat_ofNat]
  omega

/-- A value below 64 that is no command's number has no meaning (R102). -/
theorem commandOf_eq_none {C : Configuration} {opcode : Nat} (ho : opcode < 64)
    (h : ∀ op : MsgOpcode, op.isCommand = true → (C.opcodeNumber op).toNat ≠ opcode) : commandOf C opcode = none := by
  cases hf : commandOf C opcode with
  | none => rfl
  | some op =>
    obtain ⟨h1, h2⟩ := commandOf_eq_some ho hf
    exact absurd h2 (h op h1)

/-- R93: a write command is `2 + word_count` words long, a read command 2. -/
theorem commandFrame_length {C : Configuration} {op : MsgOpcode} {acctype dstblk n : Nat} {address : Word}
    {words : List Word} (h : op.isWriteCmd = true → n ≤ words.length) :
    (commandFrame C op acctype dstblk address n words).length = if op.isWriteCmd then 2 + n else 2 := by
  simp only [commandFrame, List.length_cons]
  by_cases hw : op.isWriteCmd = true
  · simp only [hw, if_true, List.length_take]
    have := h hw
    omega
  · simp [hw]

/-- Every command frame fits the message buffer (R122 (b), R165). -/
theorem commandFrame_fits {C : Configuration} {op : MsgOpcode} {acctype dstblk n : Nat} {address : Word}
    {words : List Word} (h : n ≤ C.respCapacity) :
    (commandFrame C op acctype dstblk address n words).length ≤ C.msgWords := by
  simp only [commandFrame, List.length_cons, Configuration.msgWords]
  split
  · simp only [List.length_take]; omega
  · simp

/-! ## The engine -/

theorem engineEnabled_iff {ch : Channel} : engineEnabled ch = true ↔ ch.state = .running ∧ ch.done < ch.numOps := by
  simp [engineEnabled]

/-- The response words the next operation of channel `c` leaves (R215 line 1). -/
def nextPiece (C : Configuration) (u : Int) (c : Nat) (us : UnitState) : List Word :=
  C.chanExec u us.tick c ((channelAt us c).cmdMem.words (channelAt us c).cmdLen) (channelAt us c).done

/-- An enabled engine completes one operation of its channel (R215); nothing else of the unit changes but the tick. -/
theorem engineStep_enabled {C : Configuration} {u : Int} {c : Nat} {us : UnitState}
    (h : engineEnabled (channelAt us c) = true) :
    engineStep C u c us =
      { setChannel us c (completedOp (nextPiece C u c us) (channelAt us c)) with tick := us.tick + 1 } := by
  simp only [engineStep, h, if_true, nextPiece]

theorem engineStep_disabled {C : Configuration} {u : Int} {c : Nat} {us : UnitState}
    (h : engineEnabled (channelAt us c) = false) : engineStep C u c us = us := by
  simp [engineStep, h]

/-- Two units with everything equal but the channels, the result and the tick. -/
structure SameBase (a b : UnitState) : Prop where
  controller : SameController a b
  msg : b.msg = a.msg

theorem engineStep_base (C : Configuration) (u : Int) (c : Nat) (us : UnitState) : SameBase us (engineStep C u c us) := by
  cases h : engineEnabled (channelAt us c) with
  | true =>
    rw [engineStep_enabled h]
    exact ⟨⟨rfl, rfl, rfl, rfl, rfl, rfl, rfl, rfl⟩, rfl⟩
  | false => rw [engineStep_disabled h]; exact ⟨⟨rfl, rfl, rfl, rfl, rfl, rfl, rfl, rfl⟩, rfl⟩

theorem engineStep_other (C : Configuration) (u : Int) {c d : Nat} (us : UnitState) (h : d ≠ c) :
    channelAt (engineStep C u c us) d = channelAt us d := by
  cases he : engineEnabled (channelAt us c) with
  | true =>
    rw [engineStep_enabled he, channelAt_tick, channelAt_setChannel_other _ _ h]
  | false => rw [engineStep_disabled he]

theorem setChannel_canonical {us : UnitState} (c : Nat) (ch : Channel)
    (h : tableCanonical Channel.reset us.channels = true) :
    tableCanonical Channel.reset (setChannel us c ch).channels = true := tableCanonical_set _ c ch h

theorem engineStep_canonical (C : Configuration) (u : Int) (c : Nat) {us : UnitState}
    (h : tableCanonical Channel.reset us.channels = true) :
    tableCanonical Channel.reset (engineStep C u c us).channels = true := by
  cases he : engineEnabled (channelAt us c) with
  | true =>
    rw [engineStep_enabled he]
    exact setChannel_canonical c _ h
  | false => rwa [engineStep_disabled he]

theorem engineRun_canonical (C : Configuration) (u : Int) (c k : Nat) {us : UnitState}
    (h : tableCanonical Channel.reset us.channels = true) :
    tableCanonical Channel.reset (engineRun C u c k us).channels = true := by
  induction k generalizing us with
  | zero => exact h
  | succ k ih => exact ih (engineStep_canonical C u c h)

/-- Everything `k` engine steps can do, where the channel has `k` operations left: `DONE` grows by `k`, response words are
appended, and nothing else of the unit changes but the tick. -/
theorem engineRun_spec (C : Configuration) (u : Int) (c k : Nat) (us : UnitState)
    (hr : (channelAt us c).state = .running) (hk : (channelAt us c).done + k ≤ (channelAt us c).numOps) :
    ∃ pieces, channelAt (engineRun C u c k us) c =
        { channelAt us c with respMem := (channelAt us c).respMem ++ pieces, done := (channelAt us c).done + k } ∧
      (∀ d, d ≠ c → channelAt (engineRun C u c k us) d = channelAt us d) ∧
      SameBase us (engineRun C u c k us) ∧ (engineRun C u c k us).tick = us.tick + k := by
  induction k generalizing us with
  | zero =>
    refine ⟨[], ?_, fun _ _ => rfl, ⟨⟨rfl, rfl, rfl, rfl, rfl, rfl, rfl, rfl⟩, rfl⟩, rfl⟩
    rw [List.append_nil]
    rfl
  | succ k ih =>
    have he : engineEnabled (channelAt us c) = true := engineEnabled_iff.mpr ⟨hr, by omega⟩
    have hs := engineStep_enabled (C := C) (u := u) he
    have hc : channelAt (engineStep C u c us) c = completedOp (nextPiece C u c us) (channelAt us c) := by
      rw [hs, channelAt_tick, channelAt_setChannel_same]
    have hb := engineStep_base C u c us
    obtain ⟨pieces, h1, h2, h3, h4⟩ := ih (engineStep C u c us) (by rw [hc]; exact hr) (by rw [hc]; simp; omega)
    refine ⟨nextPiece C u c us ++ pieces, ?_, fun d hd => ?_, ?_, ?_⟩
    · show channelAt (engineRun C u c k (engineStep C u c us)) c = _
      rw [h1, hc]
      simp only [completedOp, List.append_assoc, Nat.add_assoc, Nat.add_comm 1 k]
    · show channelAt (engineRun C u c k (engineStep C u c us)) d = _
      rw [h2 d hd, engineStep_other C u us hd]
    · show SameBase us (engineRun C u c k (engineStep C u c us))
      have a := hb.controller
      have b := h3.controller
      exact ⟨⟨b.present.trans a.present, b.active.trans a.active, b.bound.trans a.bound, b.ops.trans a.ops,
        b.channelCount.trans a.channelCount, b.cmdMemWsize.trans a.cmdMemWsize, b.maxPolls.trans a.maxPolls,
        b.initFlags.trans a.initFlags⟩, h3.msg.trans hb.msg⟩
    · show (engineRun C u c k (engineStep C u c us)).tick = _
      rw [h4, hs]
      simp only
      omega

end Machine

end Sys2Proof
end

