-- ==== Sys2Proof/Laws/Codec.lean ====
section
/-! SUPPORT. What the codec and the PIO engine can do, said once (40_codec.md R121 to R128, 42_pio_engine.md R155 to
R169). -/

namespace Sys2Proof.Machine

/-! ## Building a command -/

/-- The calls of `encode_command` that have a meaning, past the opcode (R121 lines 2 and 4). -/
theorem buildRefusal_none_iff {C : Configuration} {op : MsgOpcode} {acctype dstblk n : Nat} {words : List Word} :
    buildRefusal C op acctype dstblk n words = none ↔
      acctype < 32 ∧ dstblk < 128 ∧ (n ≤ C.respCapacity → op.isWriteCmd = true → n ≤ words.length) := by
  unfold buildRefusal
  by_cases h1 : 32 ≤ acctype ∨ 128 ≤ dstblk
  · rw [if_pos h1]
    simp only [reduceCtorEq, false_iff]
    omega
  · rw [if_neg h1]
    have h2 : acctype < 32 ∧ dstblk < 128 := by omega
    simp only [h2, true_and]
    by_cases hw : op.isWriteCmd = true <;> by_cases hl : words.length < n <;>
      by_cases hc : overCapacity C n = true <;> simp [hw, hl, hc] <;> rw [overCapacity_iff] at hc <;> omega

/-- What a call of `encode_command` with a command opcode does (R121). -/
theorem encodeCommand_command {C : Configuration} {u : Int} {op : MsgOpcode} {acctype dstblk n : Nat} {address : Word}
    {words : List Word} {s : State} (h : op.isCommand = true) :
    encodeCommand C u (C.opcodeNumber op).toNat acctype dstblk address n words s =
      buildCommand C u op acctype dstblk address n words s := by
  have := (C.opcodeNumber op).isLt
  unfold encodeCommand
  rw [if_neg (by omega), commandOf_number C h]

/-- A call of `encode_command` with a next state had a command opcode (R121 line 1). -/
theorem encodeCommand_next {C : Configuration} {u : Int} {opcode acctype dstblk n : Nat} {address : Word}
    {words : List Word} {s t : State} (h : encodeCommand C u opcode acctype dstblk address n words s = .next t) :
    ∃ op : MsgOpcode, op.isCommand = true ∧ (C.opcodeNumber op).toNat = opcode ∧
      buildCommand C u op acctype dstblk address n words s = .next t := by
  unfold encodeCommand at h
  split at h
  · cases h
  · rename_i ho
    cases hf : commandOf C opcode with
    | none => rw [hf] at h; cases h
    | some op =>
      rw [hf] at h
      obtain ⟨h1, h2⟩ := commandOf_eq_some (by omega) hf
      exact ⟨op, h1, h2, h⟩

theorem buildReturn_within {C : Configuration} {u : Int} {op : MsgOpcode} {acctype dstblk n : Nat} {address : Word}
    {words : List Word} {us : UnitState} (h : n ≤ C.respCapacity) :
    buildReturn C u op acctype dstblk address n words us =
      { us with msg := msgWithCommand C (commandFrame C op acctype dstblk address n words) }.finish
        (.encoded .ok (commandFrame C op acctype dstblk address n words).length) := by
  simp only [buildReturn]
  rw [if_neg (by rw [overCapacity_iff]; omega)]

theorem buildReturn_over {C : Configuration} {u : Int} {op : MsgOpcode} {acctype dstblk n : Nat} {address : Word}
    {words : List Word} {us : UnitState} (h : C.respCapacity < n) :
    buildReturn C u op acctype dstblk address n words us = us.finish (.encoded .param (C.freeNat u us.tick 0)) := by
  simp only [buildReturn]
  rw [if_pos (by rw [overCapacity_iff]; omega)]

/-- The words of a command frame by index. -/
theorem commandFrame_getD (C : Configuration) (op : MsgOpcode) (acctype dstblk : Nat) (address : Word) (n : Nat)
    (words : List Word) (i : Nat) :
    (commandFrame C op acctype dstblk address n words).getD i 0 =
      match i with
      | 0 => commandHeader C op acctype dstblk n
      | 1 => address
      | i + 2 => if op.isWriteCmd = true ∧ i < n then words.getD i 0 else 0 := by
  unfold commandFrame
  match i with
  | 0 => rfl
  | 1 => rfl
  | i + 2 =>
    simp only [List.getD_cons_succ]
    by_cases hw : op.isWriteCmd = true
    · simp only [hw, if_true, true_and, List.getD_eq_getElem?_getD, List.getElem?_take]
      split <;> rfl
    · simp [hw]

/-! ## Taking a response apart -/

theorem decodeReturn_within {C : Configuration} {u : Int} {response : List Word} {n : Nat} {us : UnitState}
    (h : n ≤ C.respCapacity) :
    decodeReturn C u response n us =
      us.finish (.decoded .ok (responseOpcode C { us with msg := msgWithResponse C u us.tick response })
        (responseWords { us with msg := msgWithResponse C u us.tick response } n)) := by
  simp only [decodeReturn]
  rw [if_neg (by rw [overCapacity_iff]; omega)]

theorem decodeReturn_over {C : Configuration} {u : Int} {response : List Word} {n : Nat} {us : UnitState}
    (h : C.respCapacity < n) :
    decodeReturn C u response n us =
      us.finish (.decoded .param (C.freeOpcode u us.tick) (C.freeWords u us.tick)) := by
  simp only [decodeReturn]
  rw [if_pos (by rw [overCapacity_iff]; omega)]

/-! ## One change of a unit that touches the message buffer and the result alone -/

/-- What the codec, the selector and the PIO engine can do to a unit (R23, R171): the message buffer is written whole or not
at all, and a parameter error, an unavailable unit and a good `select_route` leave it alone (R253). -/
structure MessageEffect (C : Configuration) (us us' : UnitState) : Prop where
  shape : us' = { us with msg := us'.msg, result := us'.result, tick := us.tick + 1 }
  length : us'.msg = us.msg ∨ us'.msg.length = C.msgWords
  kept : us'.result.status? = some .param ∨ us'.result.status? = some .unavail → us'.msg = us.msg

theorem MessageEffect.finish (C : Configuration) (us : UnitState) (r : Result) : MessageEffect C us (us.finish r) :=
  { shape := rfl, length := .inl rfl, kept := fun _ => rfl }

theorem MessageEffect.finish_msg {C : Configuration} {us : UnitState} {m : List Word} {r : Result}
    (hm : m.length = C.msgWords) (hr : ∀ st, r.status? = some st → st ≠ .param ∧ st ≠ .unavail) :
    MessageEffect C us ({ us with msg := m }.finish r) :=
  { shape := rfl
    length := .inr hm
    kept := by
      rintro (h | h)
      · exact absurd rfl (hr _ h).1
      · exact absurd rfl (hr _ h).2 }

theorem buildReturn_effect {C : Configuration} {u : Int} {op : MsgOpcode} {acctype dstblk n : Nat} {address : Word}
    {words : List Word} (us : UnitState) :
    MessageEffect C us (buildReturn C u op acctype dstblk address n words us) := by
  by_cases h : n ≤ C.respCapacity
  · rw [buildReturn_within h]
    exact .finish_msg (msgWithCommand_length (commandFrame_fits h)) fun st hst => by cases hst; simp
  · rw [buildReturn_over (by omega)]
    exact .finish ..

theorem decodeReturn_effect (C : Configuration) (u : Int) (response : List Word) (n : Nat) (us : UnitState) :
    MessageEffect C us (decodeReturn C u response n us) := by
  simp only [decodeReturn]
  split <;> exact .finish ..

theorem responseReturn_effect (C : Configuration) (op : MsgOpcode) (u : Int) (h : HeaderFields) (data : List Word)
    (us : UnitState) : MessageEffect C us (responseReturn C op u h data us) := by
  simp only [responseReturn]
  by_cases hc : data.length ≤ C.respCapacity
  · rw [if_neg (by rw [overCapacity_iff]; omega), decodeReturn_within hc]
    refine .finish_msg (msgWithResponse_length ?_) fun st hst => by cases hst; simp
    simp only [List.length_cons, Configuration.msgWords]
    omega
  · rw [if_pos (by rw [overCapacity_iff]; omega)]
    exact decodeReturn_effect ..

theorem memReadReturn_effect (C : Configuration) (simPresent : Bool) (u : Int) (ext address : Word) (n : Nat)
    (buf : List Word) (us : UnitState) : MessageEffect C us (memReadReturn C simPresent u ext address n buf us) := by
  unfold memReadReturn
  split
  · exact .finish ..
  split
  · exact .finish ..
  rename_i hc
  have hn : n ≤ C.respCapacity := by rw [overCapacity_iff] at hc; omega
  split
  · unfold simRead
    simp only
    split <;> exact .finish ..
  unfold busRead
  simp only
  split
  · exact .finish_msg (msgWithCommand_length (commandFrame_fits hn)) fun st hst => by cases hst; simp
  · rename_i resp he
    have hl : (msgWithResponse C u us.tick resp).length = C.msgWords := by
      apply msgWithResponse_length
      have := exchangeWords_length he
      simp only [Configuration.msgWords]
      omega
    split
    · exact .finish_msg hl fun st hst => by cases hst; simp
    · exact .finish_msg hl fun st hst => by cases hst; simp

theorem memWriteReturn_effect (C : Configuration) (simPresent : Bool) (u : Int) (ext address : Word)
    (words : List Word) (n : Nat) (us : UnitState) :
    MessageEffect C us (memWriteReturn C simPresent u ext address words n us) := by
  unfold memWriteReturn
  split
  · exact .finish ..
  split
  · exact .finish ..
  rename_i hc
  have hn : n ≤ C.respCapacity := by rw [overCapacity_iff] at hc; omega
  split
  · exact .finish ..
  unfold busWrite
  simp only
  split
  · exact .finish_msg (msgWithCommand_length (commandFrame_fits hn)) fun st hst => by cases hst; simp
  · rename_i resp he
    have hl : (msgWithResponse C u us.tick resp).length = C.msgWords := by
      apply msgWithResponse_length
      have := exchangeWords_length he
      simp only [Configuration.msgWords]
      omega
    split
    · exact .finish_msg hl fun st hst => by cases hst; simp
    · exact .finish_msg hl fun st hst => by cases hst; simp

end Sys2Proof.Machine
end

