-- ==== Sys2Proof/Laws/Fifo.lean ====
section
/-! SUPPORT. What the controller's checks and its poll loop can do, said once (43_fifo_controller.md R182, R190 to
R207). -/

namespace Sys2Proof.Machine

/-! ## The checks, in the terms of Safety.lean -/

theorem avail_iff_available {s : State} {u : Int} : avail Config.config u (unitAt s u) = true ↔ Available s u :=
  avail_iff.trans ⟨fun ⟨a, b, c, d⟩ => ⟨a, b, c, d⟩, fun ⟨a, b, c, d⟩ => ⟨a, b, c, d⟩⟩

theorem avail_false_iff {s : State} {u : Int} : avail Config.config u (unitAt s u) = false ↔ ¬Available s u := by
  rw [← avail_iff_available, Bool.not_eq_true]

theorem badChannel_false_iff_inRange {s : State} {u c : Int} :
    badChannel (unitAt s u) c = false ↔ ChannelInRange s u c := by
  rw [badChannel_false_iff, ChannelInRange]
  omega

theorem badChannel_true_iff {s : State} {u c : Int} : badChannel (unitAt s u) c = true ↔ ¬ChannelInRange s u c := by
  rw [← badChannel_false_iff_inRange, Bool.not_eq_false]

/-- R191: the four parameter errors of `fifo_ops_send`. -/
theorem opsSendBadParam_iff {us : UnitState} {c : Int} {n : Nat} {words : Option (List Word)} {size : Nat} :
    opsSendBadParam us c n words size = true ↔
      c < 0 ∨ us.channelCount ≤ c ∨ n = 0 ∨ words = none ∨ us.cmdMemWsize < size := by
  simp [opsSendBadParam, badChannel, or_assoc]

/-- R206: the three parameter errors of `fifo_status_get`. -/
theorem statusGetBadParam_iff {us : UnitState} {c : Int} {n : Nat} {doneRef : Bool} :
    statusGetBadParam us c n doneRef = true ↔ c < 0 ∨ us.channelCount ≤ c ∨ n = 0 ∨ doneRef = false := by
  simp [statusGetBadParam, badChannel, or_assoc]

/-! ## The poll loop -/

/-- Everything `pollRunning` can do on a Running channel with a batch of `n` operations: the engine completes `k` of those
that are left; then, where a poll is allowed and none is left, the channel is completed, or, unless the batch was complete
on entry and a poll is allowed, it is marked as timed out (R207). -/
theorem pollRunning_spec (C : Configuration) (u : Int) (c n : Nat) (doneRef : Bool) (us : UnitState)
    (hr : (channelAt us c).state = .running) (hn : (channelAt us c).numOps = n) :
    ∃ k pieces, k ≤ n - (channelAt us c).done ∧ SameBase us (engineRun C u c k us) ∧
      (engineRun C u c k us).tick = us.tick + k ∧
      (∀ d, d ≠ c → channelAt (engineRun C u c k us) d = channelAt us d) ∧
      channelAt (engineRun C u c k us) c =
        { channelAt us c with
          respMem := (channelAt us c).respMem ++ pieces, done := (channelAt us c).done + k } ∧
      (us.maxPolls ≠ 0 ∧ (channelAt us c).done + k = n ∧
          pollRunning C u c n doneRef us =
            (setChannel (engineRun C u c k us) c
                (completedChannel (engineRun C u c k us).tick (channelAt (engineRun C u c k us) c))).finish
              (.completion .ok (if doneRef then some n else none)
                { unit := u, channel := c, stamp := (engineRun C u c k us).tick }) ∨
        ¬(us.maxPolls ≠ 0 ∧ (channelAt us c).done = n) ∧
          ∃ count ref,
            pollRunning C u c n doneRef us =
              (setChannel (engineRun C u c k us) c (timedOutChannel (channelAt (engineRun C u c k us) c))).finish
                (.completion .timeout (if doneRef then some count else none) ref)) := by
  by_cases hd : (channelAt us c).done ≤ n
  · have hk : pollSteps C u us (channelAt us c) ≤ n - (channelAt us c).done := by unfold pollSteps; omega
    obtain ⟨pieces, h1, h2, h3, h4⟩ := engineRun_spec C u c (pollSteps C u us (channelAt us c)) us hr (by omega)
    refine ⟨_, pieces, hk, h3, h4, h2, h1, ?_⟩
    unfold pollRunning
    simp only
    split
    · rename_i hs
      unfold pollSucceeds at hs
      rw [h1] at hs
      simp only [Bool.and_eq_true, Bool.or_eq_true, decide_eq_true_eq] at hs
      exact .inl ⟨hs.1, by omega, rfl⟩
    · rename_i hs
      refine .inr ⟨fun h => hs ?_, _, _, rfl⟩
      unfold pollSucceeds
      simpa [h.2] using h.1
  · have hz : pollSteps C u us (channelAt us c) = 0 := by unfold pollSteps; omega
    refine ⟨0, [], Nat.zero_le _, ⟨⟨rfl, rfl, rfl, rfl, rfl, rfl, rfl, rfl⟩, rfl⟩, rfl, fun _ _ => rfl, ?_,
      .inr ⟨by omega, ?_⟩⟩
    · rw [List.append_nil]
      rfl
    · unfold pollRunning
      simp only [hz, engineRun]
      rw [if_neg]
      · exact ⟨_, _, rfl⟩
      · unfold pollSucceeds
        simp only [Bool.and_eq_true, Bool.or_eq_true, decide_eq_true_eq]
        omega

end Sys2Proof.Machine
end

