-- ==== Sys2Proof/Laws/Exec.lean ====
section
/-! SUPPORT. What an instruction can do, said once over all of them: every instruction is one host operation on its own
unit (00_scope.md R17, 20_memory.md R75), and its next state is one of ten kinds of change. -/

namespace Sys2Proof.Machine

/-- Every instruction is a host operation of its unit: the refusal depends on that unit alone, the effect on that unit and
on whether a hook is installed. -/
theorem exec_perform (i : Instr) :
    ∃ (refusal : UnitState → Option Refusal) (effect : Bool → UnitState → UnitState),
      ∀ s, exec i s = perform s i.unit (refusal (unitAt s i.unit)) (effect s.simPresent) := by
  cases i with
  | readMemoryCmd u h a =>
    exact ⟨fun _ => buildRefusal Config.config _ _ _ _ _, fun _ => buildReturn Config.config u _ _ _ a _ [], fun _ => rfl⟩
  | readMemoryAck u h d => exact ⟨fun _ => none, fun _ => responseReturn Config.config _ u h d, fun _ => rfl⟩
  | writeMemoryCmd u h a d =>
    exact ⟨fun _ => buildRefusal Config.config _ _ _ _ _, fun _ => buildReturn Config.config u _ _ _ a _ d, fun _ => rfl⟩
  | writeMemoryAck u h => exact ⟨fun _ => none, fun _ => responseReturn Config.config _ u h [], fun _ => rfl⟩
  | readRegisterCmd u h a =>
    exact ⟨fun _ => buildRefusal Config.config _ _ _ _ _, fun _ => buildReturn Config.config u _ _ _ a _ [], fun _ => rfl⟩
  | readRegisterAck u h d => exact ⟨fun _ => none, fun _ => responseReturn Config.config _ u h d, fun _ => rfl⟩
  | writeRegisterCmd u h a d =>
    exact ⟨fun _ => buildRefusal Config.config _ _ _ _ _, fun _ => buildReturn Config.config u _ _ _ a _ d, fun _ => rfl⟩
  | writeRegisterAck u h => exact ⟨fun _ => none, fun _ => responseReturn Config.config _ u h [], fun _ => rfl⟩
  | encodeCommand u o at' d a n w =>
    by_cases ho : 64 ≤ o
    · exact ⟨fun _ => some .fieldOverflow, fun _ us => us, fun _ => if_pos ho⟩
    · cases hf : commandOf Config.config o with
      | none =>
        refine ⟨fun _ => some .unknownCommandOpcode, fun _ us => us, fun s => ?_⟩
        show encodeCommand Config.config u o at' d a n (presentWords w) s = _
        rw [encodeCommand, if_neg ho, hf]
        rfl
      | some op =>
        refine ⟨fun _ => buildRefusal Config.config op at' d n (presentWords w),
          fun _ => buildReturn Config.config u op at' d a n (presentWords w), fun s => ?_⟩
        show encodeCommand Config.config u o at' d a n (presentWords w) s = _
        rw [encodeCommand, if_neg ho, hf]
        rfl
  | decodeResponse u x => exact ⟨fun _ => none, fun _ => decodeReturn Config.config u x.msg x.wordCount, fun _ => rfl⟩
  | selectRoute u e a => exact ⟨fun _ => none, fun b us => us.finish (.route (routeOf Config.config b u e a)), fun _ => rfl⟩
  | memRead u e a n b =>
    exact ⟨fun _ => memReadRefusal Config.config u e a n b, fun p => memReadReturn Config.config p u e a n b, fun _ => rfl⟩
  | memWrite u e a w n =>
    exact ⟨fun _ => memWriteRefusal Config.config u e a w n, fun p => memWriteReturn Config.config p u e a w n, fun _ => rfl⟩
  | fifoAttach u => exact ⟨attachRefusal Config.config u, fun _ => attachReturn Config.config u, fun _ => rfl⟩
  | fifoDetach u => exact ⟨fun _ => none, fun _ => detachReturn Config.config u, fun _ => rfl⟩
  | fifoInfoGet u => exact ⟨fun _ => none, fun _ => infoGetReturn Config.config u, fun _ => rfl⟩
  | fifoInit u m f => exact ⟨initRefusal Config.config u f, fun _ => initReturn Config.config u m f, fun _ => rfl⟩
  | fifoOpsSend u c n w z f =>
    exact ⟨opsSendRefusal Config.config u c n w z f, fun _ => opsSendReturn Config.config u c n w z, fun _ => rfl⟩
  | fifoSetStart u c b => exact ⟨setStartRefusal Config.config u c b, fun _ => setStartReturn Config.config u c b, fun _ => rfl⟩
  | fifoStatusGet u c n f d =>
    exact ⟨statusGetRefusal Config.config u c n f d, fun _ => statusGetReturn Config.config u c n d, fun _ => rfl⟩

/-- The kinds of change an instruction can make of its unit `u`. -/
inductive UnitEffect (C : Configuration) (u : Int) (us : UnitState) : Instr → UnitState → Prop where
  /-- The result alone: every FIFO operation that is turned away, among others (R253). -/
  | answer (i : Instr) (r : Result) : UnitEffect C u us i (us.finish r)
  /-- The message buffer and the result, by the codec, the selector or the PIO engine (R23). -/
  | message (i : Instr) (us' : UnitState) : channelOf i = none → MessageEffect C us us' → UnitEffect C u us i us'
  /-- R230. -/
  | attach :
    unitInRange C u = true → (∀ c, (channelAt us c).state ≠ .running) →
    UnitEffect C u us (.fifoAttach u) ((attachedUnit C u (C.backendOf u) us).finish (.status .ok))
  /-- R236. -/
  | detach :
    us.present = true → UnitEffect C u us (.fifoDetach u) ({ us with active := false }.finish (.status .ok))
  /-- R185. -/
  | init (maxPolls : Word) :
    avail C u us = true →
    UnitEffect C u us (.fifoInit u maxPolls 0) ({ us with maxPolls := maxPolls, initFlags := 0 }.finish (.status .ok))
  /-- R190. -/
  | send (c n : Nat) (words : List Word) (size : Nat) :
    avail C u us = true → c < us.channelCount → 1 ≤ n → size ≤ us.cmdMemWsize → size ≤ words.length →
    ((channelAt us c).state = .running → (channelAt us c).timedOut = true) →
    UnitEffect C u us (.fifoOpsSend u c n (some words) size 0)
      ((setChannel us c (queuedChannel us.cmdMemWsize n words size (C.freeCmdWord u us.tick c) (channelAt us c))).finish (.status .ok))
  /-- R198, asserting. -/
  | start (c : Nat) :
    avail C u us = true → c < us.channelCount → (channelAt us c).state = .queued →
    UnitEffect C u us (.fifoSetStart u c true)
      ((setChannel us c (startedChannel (channelAt us c))).finish (.status .ok))
  /-- R198, de-asserting on a Running channel. -/
  | stop (c : Nat) :
    avail C u us = true → c < us.channelCount → (channelAt us c).state = .running →
    UnitEffect C u us (.fifoSetStart u c false)
      ((setChannel us c (abortedChannel (C.freeRespMem u us.tick c) (channelAt us c))).finish (.status .ok))
  /-- R198, de-asserting on a channel that is not Running. -/
  | stopNothing (c : Nat) :
    avail C u us = true → c < us.channelCount → (channelAt us c).state ≠ .running →
    UnitEffect C u us (.fifoSetStart u c false) ((setChannel us c (channelAt us c)).finish (.status .ok))
  /-- R205 on a Running channel. -/
  | poll (c n : Nat) :
    avail C u us = true → c < us.channelCount → 1 ≤ n → (channelAt us c).state = .running →
    (channelAt us c).numOps = n → UnitEffect C u us (.fifoStatusGet u c n 0 true) (pollRunning C u c n true us)

/-- A message effect of the operation that `perform` runs. -/
theorem message_of_perform {s t : State} {u : Int} {i : Instr} {r : Option Refusal} {f : UnitState → UnitState}
    (hi : channelOf i = none) (h : perform s u r f = .next t) (hf : MessageEffect Config.config (unitAt s u) (f (unitAt s u))) :
    UnitEffect Config.config u (unitAt s u) i (unitAt t u) := by
  obtain ⟨-, rfl⟩ := perform_next_iff.mp h
  rw [unitAt_setUnit_same]
  exact .message i _ hi hf

/-- A channel index in range is a natural number. -/
theorem channel_eq_natCast {us : UnitState} {c : Int} (h : badChannel us c = false) :
    ∃ k : Nat, c = k ∧ k < us.channelCount := by
  obtain ⟨h1, h2⟩ := badChannel_false_iff.mp h
  exact ⟨c.toNat, by omega, h2⟩

theorem opsSend_effect {s t : State} {u c : Int} {n : Nat} {words : Option (List Word)} {size : Nat} {flags : Word}
    (h : exec (.fifoOpsSend u c n words size flags) s = .next t) :
    UnitEffect Config.config u (unitAt s u) (.fifoOpsSend u c n words size flags) (unitAt t u) := by
  obtain ⟨hr, rfl⟩ := perform_next_iff.mp h
  rw [unitAt_setUnit_same]
  unfold opsSendReturn
  cases ha : avail Config.config u (unitAt s u) with
  | false => exact .answer _ _
  | true =>
    cases hb : opsSendBadParam (unitAt s u) c n words size with
    | true => exact .answer _ _
    | false =>
      have hp := mt opsSendBadParam_iff.mpr (by rw [hb]; decide)
      obtain ⟨ws, rfl⟩ : ∃ ws, words = some ws := by
        cases words with
        | none => exact absurd (.inr (.inr (.inr (.inl rfl)))) hp
        | some ws => exact ⟨ws, rfl⟩
      obtain ⟨k, rfl, hk⟩ := channel_eq_natCast (us := unitAt s u) (c := c) (by rw [badChannel_false_iff]; omega)
      unfold opsSendRefusal at hr
      rw [ha, hb] at hr
      simp only [Bool.not_true, Bool.false_eq_true, if_false, Int.toNat_natCast] at hr
      split at hr
      · cases hr
      rename_i hf
      split at hr
      · cases hr
      rename_i hw
      split at hr
      · cases hr
      rename_i hx
      rw [not_not.mp hf]
      refine .send k n ws size ha hk (by omega) (by omega) (Nat.not_lt.mp hw) fun hrun => ?_
      by_contra ht
      exact hx ⟨hrun, Bool.not_eq_true _ ▸ ht⟩

theorem setStart_effect {s t : State} {u c : Int} {start : Bool} (h : exec (.fifoSetStart u c start) s = .next t) :
    UnitEffect Config.config u (unitAt s u) (.fifoSetStart u c start) (unitAt t u) := by
  obtain ⟨hr, rfl⟩ := perform_next_iff.mp h
  rw [unitAt_setUnit_same]
  unfold setStartReturn
  cases ha : avail Config.config u (unitAt s u) with
  | false => exact .answer _ _
  | true =>
    cases hb : badChannel (unitAt s u) c with
    | true => exact .answer _ _
    | false =>
      obtain ⟨k, rfl, hk⟩ := channel_eq_natCast hb
      unfold setStartRefusal at hr
      rw [ha, hb] at hr
      simp only [Bool.not_true, Bool.false_eq_true, if_false, Int.toNat_natCast, setStartChannel] at hr ⊢
      cases start with
      | true =>
        cases hq : (channelAt (unitAt s u) k).state with
        | queued => exact .start k ha hk hq
        | idle => rw [hq] at hr; cases hr
        | running => rw [hq] at hr; cases hr
      | false =>
        cases hq : (channelAt (unitAt s u) k).state with
        | running => exact .stop k ha hk hq
        | queued => exact .stopNothing k ha hk (by rw [hq]; decide)
        | idle => exact .stopNothing k ha hk (by rw [hq]; decide)

theorem statusGet_effect {s t : State} {u c : Int} {n : Nat} {flags : Word} {doneRef : Bool}
    (h : exec (.fifoStatusGet u c n flags doneRef) s = .next t) :
    UnitEffect Config.config u (unitAt s u) (.fifoStatusGet u c n flags doneRef) (unitAt t u) := by
  obtain ⟨hr, rfl⟩ := perform_next_iff.mp h
  rw [unitAt_setUnit_same]
  unfold statusGetReturn
  cases ha : avail Config.config u (unitAt s u) with
  | false => exact .answer _ _
  | true =>
    cases hb : statusGetBadParam (unitAt s u) c n doneRef with
    | true => exact .answer _ _
    | false =>
      have hp := mt statusGetBadParam_iff.mpr (by rw [hb]; decide)
      obtain ⟨k, rfl, hk⟩ := channel_eq_natCast (us := unitAt s u) (c := c) (by rw [badChannel_false_iff]; omega)
      obtain rfl : doneRef = true := by
        by_contra hd
        exact hp (.inr (.inr (.inr (Bool.not_eq_true _ ▸ hd))))
      unfold statusGetRefusal at hr
      rw [ha, hb] at hr
      simp only [Bool.not_true, Bool.false_eq_true, if_false, Int.toNat_natCast] at hr ⊢
      split at hr
      · cases hr
      rename_i hf
      split at hr
      · cases hr
      rename_i hm
      rw [not_not.mp hf]
      cases hq : (channelAt (unitAt s u) k).state with
      | running => exact .poll k n ha hk (by omega) hq (by_contra fun hne => hm ⟨hq, Ne.symm hne⟩)
      | queued => exact .answer _ _
      | idle => exact .answer _ _

/-- Everything an instruction's next state can be, at its unit. -/
theorem exec_effect {i : Instr} {s t : State} (h : exec i s = .next t) :
    UnitEffect Config.config i.unit (unitAt s i.unit) i (unitAt t i.unit) := by
  cases i with
  | readMemoryCmd u hd a => exact message_of_perform rfl h (buildReturn_effect _)
  | readMemoryAck u hd d =>
    exact message_of_perform (r := none) (f := responseReturn Config.config .readMemoryAck u hd d) rfl h (responseReturn_effect ..)
  | writeMemoryCmd u hd a d => exact message_of_perform rfl h (buildReturn_effect _)
  | writeMemoryAck u hd =>
    exact message_of_perform (r := none) (f := responseReturn Config.config .writeMemoryAck u hd []) rfl h (responseReturn_effect ..)
  | readRegisterCmd u hd a => exact message_of_perform rfl h (buildReturn_effect _)
  | readRegisterAck u hd d =>
    exact message_of_perform (r := none) (f := responseReturn Config.config .readRegisterAck u hd d) rfl h (responseReturn_effect ..)
  | writeRegisterCmd u hd a d => exact message_of_perform rfl h (buildReturn_effect _)
  | writeRegisterAck u hd =>
    exact message_of_perform (r := none) (f := responseReturn Config.config .writeRegisterAck u hd []) rfl h (responseReturn_effect ..)
  | encodeCommand u o at' d a n w =>
    obtain ⟨op, -, -, hb⟩ := encodeCommand_next h
    exact message_of_perform rfl hb (buildReturn_effect _)
  | decodeResponse u x =>
    exact message_of_perform (r := none) (f := decodeReturn Config.config u x.msg x.wordCount) rfl h (decodeReturn_effect ..)
  | selectRoute u e a =>
    exact message_of_perform (r := none) (f := fun us => us.finish (.route (routeOf Config.config s.simPresent u e a))) rfl h
      (.finish ..)
  | memRead u e a n b => exact message_of_perform rfl h (memReadReturn_effect ..)
  | memWrite u e a w n => exact message_of_perform rfl h (memWriteReturn_effect ..)
  | fifoAttach u =>
    obtain ⟨hr, rfl⟩ := perform_next_iff.mp h
    simp only [Instr.unit, unitAt_setUnit_same, attachReturn]
    split
    · rename_i hin
      refine .attach hin fun c hc => ?_
      unfold attachRefusal at hr
      rw [hin, someChannelRunning_iff.mpr ⟨c, hc⟩] at hr
      cases hr
    · exact .answer _ _
  | fifoDetach u =>
    obtain ⟨-, rfl⟩ := (perform_next_iff (r := none) (f := detachReturn Config.config u)).mp h
    simp only [Instr.unit, unitAt_setUnit_same, detachReturn]
    split
    · rename_i hp
      rw [Bool.and_eq_true] at hp
      exact .detach hp.1
    · exact .answer _ _
  | fifoInfoGet u =>
    refine message_of_perform (r := none) (f := infoGetReturn Config.config u) rfl h ?_
    unfold infoGetReturn
    split <;> exact .finish ..
  | fifoInit u m f =>
    obtain ⟨hr, rfl⟩ := perform_next_iff.mp h
    simp only [Instr.unit, unitAt_setUnit_same, initReturn]
    split
    · rename_i ha
      unfold initRefusal at hr
      rw [ha] at hr
      obtain rfl : f = 0 := by
        by_contra hf
        simp only [Bool.true_and, decide_eq_true_eq] at hr
        rw [if_pos hf] at hr
        cases hr
      exact .init m ha
    · exact .answer _ _
  | fifoOpsSend u c n w z f => exact opsSend_effect h
  | fifoSetStart u c b => exact setStart_effect h
  | fifoStatusGet u c n f d => exact statusGet_effect h

/-- No instruction changes anything outside its unit. -/
theorem exec_onlyUnit {i : Instr} {s t : State} (h : exec i s = .next t) :
    t = setUnit s i.unit (unitAt t i.unit) := by
  obtain ⟨r, f, hp⟩ := exec_perform i
  rw [hp] at h
  obtain ⟨-, rfl⟩ := perform_next_iff.mp h
  rw [unitAt_setUnit_same]

end Sys2Proof.Machine
end

