-- ==== Sys2Proof/Laws/PerInstr.lean ====
section
/-! SUPPORT. A statement made of every instruction, one lemma per constructor: the head word the encoder writes matches
the instruction's row of spec/opcode_table.json. -/

namespace Sys2Proof.Laws.HeadMatchesRow

/-- The mask and match of the instruction's row (30_encoding.md R100, R107). An ordinal is a 4-bit field; every bit above
it is zero in a head word, which is asked for here as well. -/
def row : Instr → Word × Word
  | .readMemoryCmd _ _ _ => (0xFC000000, 0x1C000000)
  | .readMemoryAck _ _ _ => (0xFC000000, 0x20000000)
  | .writeMemoryCmd _ _ _ _ => (0xFC000000, 0x24000000)
  | .writeMemoryAck _ _ => (0xFC000000, 0x28000000)
  | .readRegisterCmd _ _ _ => (0xFC000000, 0x2C000000)
  | .readRegisterAck _ _ _ => (0xFC000000, 0x30000000)
  | .writeRegisterCmd _ _ _ _ => (0xFC000000, 0x34000000)
  | .writeRegisterAck _ _ => (0xFC000000, 0x38000000)
  | .encodeCommand _ _ _ _ _ _ _ => (0xFFFFFFFF, 0x0)
  | .decodeResponse _ _ => (0xFFFFFFFF, 0x1)
  | .selectRoute _ _ _ => (0xFFFFFFFF, 0x2)
  | .memRead _ _ _ _ _ => (0xFFFFFFFF, 0x3)
  | .memWrite _ _ _ _ _ => (0xFFFFFFFF, 0x4)
  | .fifoAttach _ => (0xFFFFFFFF, 0x5)
  | .fifoDetach _ => (0xFFFFFFFF, 0x6)
  | .fifoInfoGet _ => (0xFFFFFFFF, 0x7)
  | .fifoInit _ _ _ => (0xFFFFFFFF, 0x8)
  | .fifoOpsSend _ _ _ _ _ _ => (0xFFFFFFFF, 0x9)
  | .fifoSetStart _ _ _ => (0xFFFFFFFF, 0xA)
  | .fifoStatusGet _ _ _ _ _ => (0xFFFFFFFF, 0xB)

/-- The statement. -/
def Statement (i : Instr) : Prop := (encode i).head &&& (row i).1 = (row i).2

/-- The mask `0xFC00_0000` keeps a header's opcode and nothing else. -/
theorem headerWord_masked (op : BitVec 6) (h : HeaderFields) :
    headerWord referenceLayout op h &&& 0xFC000000 = op.setWidth 32 <<< 26 := by
  obtain ⟨d, a, l, r⟩ := h
  apply BitVec.eq_of_getLsbD_eq
  intro i hi
  simp only [headerWord, referenceLayout, BitVec.getLsbD_and, BitVec.getLsbD_or, BitVec.getLsbD_shiftLeft,
    BitVec.getLsbD_setWidth]
  interval_cases i <;> simp

/-- An ordinal is its own head word. -/
theorem ordinal_masked (n : Nat) (h : n < 16) : BitVec.ofNat 32 n &&& 0xFFFFFFFF = BitVec.ofNat 32 n := by
  interval_cases n <;> decide

theorem readMemoryCmd (host : Int) (h : HeaderFields) (address : Word) :
    Statement (.readMemoryCmd host h address) := headerWord_masked 0x07 h

theorem readMemoryAck (host : Int) (h : HeaderFields) (data : List Word) :
    Statement (.readMemoryAck host h data) := headerWord_masked 0x08 h

theorem writeMemoryCmd (host : Int) (h : HeaderFields) (address : Word) (data : List Word) :
    Statement (.writeMemoryCmd host h address data) := headerWord_masked 0x09 h

theorem writeMemoryAck (host : Int) (h : HeaderFields) :
    Statement (.writeMemoryAck host h) := headerWord_masked 0x0A h

theorem readRegisterCmd (host : Int) (h : HeaderFields) (address : Word) :
    Statement (.readRegisterCmd host h address) := headerWord_masked 0x0B h

theorem readRegisterAck (host : Int) (h : HeaderFields) (data : List Word) :
    Statement (.readRegisterAck host h data) := headerWord_masked 0x0C h

theorem writeRegisterCmd (host : Int) (h : HeaderFields) (address : Word) (data : List Word) :
    Statement (.writeRegisterCmd host h address data) := headerWord_masked 0x0D h

theorem writeRegisterAck (host : Int) (h : HeaderFields) :
    Statement (.writeRegisterAck host h) := headerWord_masked 0x0E h

theorem encodeCommand (host : Int) (opcode acctype dstblk : Nat) (address : Word) (n : Nat)
    (words : Option (List Word)) :
    Statement (.encodeCommand host opcode acctype dstblk address n words) := ordinal_masked 0 (by decide)

theorem decodeResponse (host : Int) (asked : ResponseCall) : Statement (.decodeResponse host asked) :=
  ordinal_masked 1 (by decide)

theorem selectRoute (unit : Int) (ext address : Word) : Statement (.selectRoute unit ext address) := ordinal_masked 2 (by decide)

theorem memRead (unit : Int) (ext address : Word) (n : Nat) (buf : List Word) :
    Statement (.memRead unit ext address n buf) := ordinal_masked 3 (by decide)

theorem memWrite (unit : Int) (ext address : Word) (words : List Word) (n : Nat) :
    Statement (.memWrite unit ext address words n) := ordinal_masked 4 (by decide)

theorem fifoAttach (unit : Int) : Statement (.fifoAttach unit) := ordinal_masked 5 (by decide)

theorem fifoDetach (unit : Int) : Statement (.fifoDetach unit) := ordinal_masked 6 (by decide)

theorem fifoInfoGet (unit : Int) : Statement (.fifoInfoGet unit) := ordinal_masked 7 (by decide)

theorem fifoInit (unit : Int) (maxPolls flags : Word) : Statement (.fifoInit unit maxPolls flags) := ordinal_masked 8 (by decide)

theorem fifoOpsSend (unit channel : Int) (n : Nat) (words : Option (List Word)) (size : Nat) (flags : Word) :
    Statement (.fifoOpsSend unit channel n words size flags) := ordinal_masked 9 (by decide)

theorem fifoSetStart (unit channel : Int) (start : Bool) : Statement (.fifoSetStart unit channel start) := ordinal_masked 10 (by decide)

theorem fifoStatusGet (unit channel : Int) (n : Nat) (flags : Word) (doneRef : Bool) :
    Statement (.fifoStatusGet unit channel n flags doneRef) := ordinal_masked 11 (by decide)

end Sys2Proof.Laws.HeadMatchesRow
end

