-- ==== Sys2Proof/Laws/Step.lean ====
section
/-! SUPPORT. What a step can do, said once: nothing, or one event; and an event is one instruction, one engine step, two
instructions of different units, or the result of a read through a reference (10_state.md R20). Then, runs of several
steps. -/

namespace Sys2Proof.Machine

/-- A step with a next state found no event, or took the oldest. -/
theorem step_cases {s t : State} (h : step s = .next t) :
    (s.inbox = [] ∧ t = s) ∨
      ∃ e rest, s.inbox = e :: rest ∧ runEvent e { s with inbox := rest } = .next t := by
  simp only [step, nextEvent] at h
  split at h
  · rename_i hs
    cases h
    exact .inl ⟨hs, rfl⟩
  · rename_i e rest hs
    exact .inr ⟨e, rest, hs, h⟩

/-- Everything an event with a next state can do. -/
theorem event_cases {e : Event} {s t : State} (h : runEvent e s = .next t) :
    (∃ i, exec i s = .next t) ∨
      (∃ u c, engineExists Config.config u c (unitAt s u) = true ∧
        t = setUnit s u (engineStep Config.config u c (unitAt s u))) ∨
      (∃ a b m, a.unit ≠ b.unit ∧ exec a s = .next m ∧ exec b m = .next t) ∨
      ∃ u r, t = setUnit s u ((unitAt s u).finish r) := by
  cases e with
  | call f =>
    simp only [runEvent, runCall] at h
    split at h
    · exact .inl ⟨_, h⟩
    · cases h
  | engine u c =>
    simp only [runEvent, runEngine] at h
    split at h
    · rename_i hx
      cases h
      exact .inr (.inl ⟨u, c, hx, rfl⟩)
    · cases h
  | overlap f g =>
    simp only [runEvent, runOverlap] at h
    split at h
    · split at h
      · cases h
      · rename_i hne
        split at h
        · rename_i hx
          exact .inr (.inr (.inl ⟨_, _, _, hne, hx, h⟩))
        · cases h
        · cases h
    · cases h
    · cases h
  | readResponse ref =>
    simp only [runEvent, readResponse] at h
    obtain ⟨-, rfl⟩ := perform_next_iff.mp h
    exact .inr (.inr (.inr ⟨_, _, rfl⟩))

/-- What an instruction leaves of the inbox and of the hook. -/
theorem exec_inbox_sim {i : Instr} {s t : State} (h : exec i s = .next t) :
    t.inbox = s.inbox ∧ t.simPresent = s.simPresent := by
  rw [exec_onlyUnit h]
  exact ⟨rfl, rfl⟩

/-! ## Several steps -/

theorem run_succ (M : Host.Core) (k : Nat) (s : M.State) :
    M.run (k + 1) s =
      match M.step s with
      | .next s' => M.run k s'
      | .fault f => .fault f
      | .refused r => .refused r := rfl

theorem run_next {M : Host.Core} {k : Nat} {s t : M.State} (h : M.step s = .next t) : M.run (k + 1) s = M.run k t := by
  rw [run_succ, h]

/-- One step more at the end. -/
theorem run_snoc {M : Host.Core} {k : Nat} {s t : M.State} (h : M.run k s = .next t) : M.run (k + 1) s = M.step t := by
  induction k generalizing s with
  | zero =>
    cases h
    rw [run_succ]
    cases M.step t <;> rfl
  | succ k ih =>
    rw [run_succ] at h ⊢
    cases hs : M.step s with
    | next m => rw [hs] at h; exact ih h
    | fault f => rw [hs] at h; cases h
    | refused f => rw [hs] at h; cases h

end Sys2Proof.Machine
end

