-- ==== Sys2Proof/Tests/Slice0.lean ====
section
/-! SUPPORT. Tests on fixed values: the well-formedness checks refuse, the words of 95_test_vectors.md decode, and each
instruction does in one step what its vectors say; expected values are those of the vectors named in the comments. Then, for
each statement with hypotheses, a state and operands that meet them. -/

namespace Sys2Proof.Tests

open Sys2Proof Sys2Proof.Machine

/-! ## Well-formedness: the two checks, each refusing too few and too many data words -/

theorem test_wellFormed_writeMemory_short :
    (Instr.writeMemoryCmd 0 { dstblk := 5, acctype := 3, datalen := 8, rsvd := 0 } 0x1000 [1]).wellFormed = false := by
  decide

theorem test_wellFormed_writeRegister_long :
    (Instr.writeRegisterCmd 0 { dstblk := 3, acctype := 1, datalen := 4, rsvd := 0 } 8 [5, 6]).wellFormed = false := by
  decide

/-- The decoder refuses the frame such a term would have. -/
theorem test_decode_writeMemory_short :
    decode { head := 0x2428C400, scalars := [0], words := some [0x1000, 1] } = .error .frameLength := by decide

/-! ## Decoding: one word for each constructor, message headers bit by bit from R91 and R100 (vectors of 3.1) -/

/-- E-5: opcode 000111, dstblk 0000101, acctype 00011, datalen 0001000, rsvd 0000000. -/
theorem test_decode_readMemoryCmd :
    decode { head := 0b00011100001010001100010000000000, scalars := [0], words := some [0x1000] } =
      .ok (.readMemoryCmd 0 { dstblk := 5, acctype := 3, datalen := 8, rsvd := 0 } 0x1000) := by decide

/-- Reserved bits all 1 (C-15). -/
theorem test_decode_readMemoryAck :
    decode { head := 0b00100000001010001100010001111111, scalars := [1], words := some [7, 8] } =
      .ok (.readMemoryAck 1 { dstblk := 5, acctype := 3, datalen := 8, rsvd := 127 } [7, 8]) := by decide

/-- E-4. -/
theorem test_decode_writeMemoryCmd :
    decode { head := 0b00100100100100000000001000000000, scalars := [0], words := some [0x40, 9] } =
      .ok (.writeMemoryCmd 0 { dstblk := 0x12, acctype := 0, datalen := 4, rsvd := 0 } 0x40 [9]) := by decide

theorem test_decode_writeMemoryAck :
    decode { head := 0b00101000000010001000000000000000, scalars := [0], words := some [] } =
      .ok (.writeMemoryAck 0 { dstblk := 1, acctype := 2, datalen := 0, rsvd := 0 }) := by decide

/-- E-12. -/
theorem test_decode_readRegisterCmd :
    decode { head := 0b00101100000110000100001000000000, scalars := [0], words := some [8] } =
      .ok (.readRegisterCmd 0 { dstblk := 3, acctype := 1, datalen := 4, rsvd := 0 } 8) := by decide

theorem test_decode_readRegisterAck :
    decode { head := 0b00110000000110000100001000000000, scalars := [0], words := some [5] } =
      .ok (.readRegisterAck 0 { dstblk := 3, acctype := 1, datalen := 4, rsvd := 0 } [5]) := by decide

/-- E-13. -/
theorem test_decode_writeRegisterCmd :
    decode { head := 0b00110100000110000100001000000000, scalars := [0], words := some [8, 5] } =
      .ok (.writeRegisterCmd 0 { dstblk := 3, acctype := 1, datalen := 4, rsvd := 0 } 8 [5]) := by decide

theorem test_decode_writeRegisterAck :
    decode { head := 0b00111000000110000100000000000000, scalars := [0], words := some [] } =
      .ok (.writeRegisterAck 0 { dstblk := 3, acctype := 1, datalen := 0, rsvd := 0 }) := by decide

theorem test_decode_encodeCommand :
    decode { head := 0b0000, scalars := [0, 9, 3, 5, 0x1000, 2], words := some [1, 2] } =
      .ok (.encodeCommand 0 9 3 5 0x1000 2 (some [1, 2])) := by decide

theorem test_decode_decodeResponse :
    decode { head := 0b0001, scalars := [0, 2], words := some [1, 2, 3] } =
      .ok (.decodeResponse 0 { msg := [1, 2, 3], wordCount := 2 }) := by decide

theorem test_decode_selectRoute :
    decode { head := 0b0010, scalars := [0, 0x305, 0x1000], words := none } = .ok (.selectRoute 0 0x305 0x1000) := by
  decide

theorem test_decode_memRead :
    decode { head := 0b0011, scalars := [0, 0x305, 0x1000, 2], words := some [0, 0] } =
      .ok (.memRead 0 0x305 0x1000 2 [0, 0]) := by decide

theorem test_decode_memWrite :
    decode { head := 0b0100, scalars := [0, 0x305, 0x1000, 1], words := some [7, 8] } =
      .ok (.memWrite 0 0x305 0x1000 [7, 8] 1) := by decide

theorem test_decode_fifoAttach :
    decode { head := 0b0101, scalars := [-1], words := none } = .ok (.fifoAttach (-1)) := by decide

theorem test_decode_fifoDetach :
    decode { head := 0b0110, scalars := [0], words := none } = .ok (.fifoDetach 0) := by decide

theorem test_decode_fifoInfoGet :
    decode { head := 0b0111, scalars := [0], words := none } = .ok (.fifoInfoGet 0) := by decide

theorem test_decode_fifoInit :
    decode { head := 0b1000, scalars := [0, 4294967295, 0], words := none } = .ok (.fifoInit 0 0xFFFFFFFF 0) := by
  decide

theorem test_decode_fifoOpsSend :
    decode { head := 0b1001, scalars := [0, -1, 2, 10, 0], words := none } =
      .ok (.fifoOpsSend 0 (-1) 2 none 10 0) := by decide

theorem test_decode_fifoSetStart :
    decode { head := 0b1010, scalars := [0, 1, 1], words := none } = .ok (.fifoSetStart 0 1 true) := by decide

theorem test_decode_fifoStatusGet :
    decode { head := 0b1011, scalars := [0, 1, 2, 0, 0], words := none } = .ok (.fifoStatusGet 0 1 2 0 false) := by
  decide

/-- R107: ordinal 12 selects nothing; R102: nor is a header with opcode 001111 a message. -/
theorem test_decode_nothing :
    decode { head := 0b1100, scalars := [], words := none } = .error .noRow ∧
      decode { head := 0b00111100000000000000000000000000, scalars := [0], words := some [] } = .error .noRow := by
  decide

/-! ## The fixtures of 95_test_vectors.md section 2 -/

/-- RefConfig, with no hook and an exchange layer that fails; a vector puts its own in place. -/
def refConfig : Configuration :=
  { (default : Configuration) with
    respCapacityLess1 := 19
    headerPositions := referenceLayout
    opcodeNumbers := referenceNumber
    numUnitsLess1 := 1
    backendInfo := fun u => if u = 0 then some (0, 3, 64) else none
    isBypassed := fun _ _ address => decide (0x2000 ≤ address.toNat) && decide (address.toNat ≤ 0x20FF)
    adextDecode := fun ext => (ext.extractLsb' 8 5, ext.extractLsb' 0 7)
    tagMem := fun ext _ => ext ||| 0x80000000
    exchanges := fun _ _ _ _ => .error { code := 1 }
    transportErrs := fun n => n == 1
    chanExec := fun _ _ _ _ k => [0xC0DE0000 ||| BitVec.ofNat 32 k] }

/-- RefConfig with an exchange layer that answers one command, sent for so many words, and fails on any other. -/
def answering (cmd : List Word) (asks : Nat) (answer : List Word) : Configuration :=
  { refConfig with
    exchanges := fun _ _ c n => if c = cmd ∧ n = asks then .ok (fun i => answer.getD i 0) else .error { code := 1 } }

/-- Process start without a hook. -/
def blank : State := { simPresent := false, units := [], inbox := [] }

/-- Unit 0 as a fresh attach under RefConfig leaves it, with `MAX_POLLS = 3` and one channel as given. -/
def readyUnit (c : Nat) (ch : Channel) : UnitState :=
  { UnitState.reset with
    present := true, active := true, bound := true
    ops := some { generation := 0, channelCount := 4, cmdMemWsize := 64 }
    channelCount := 4, cmdMemWsize := 64, maxPolls := 3, channels := [(c, ch)] }

/-- The block with that unit. -/
def ready (c : Nat) (ch : Channel) : State := { simPresent := false, units := [(0, readyUnit c ch)], inbox := [] }

/-- A command memory of 64 words, a batch in the first two. -/
def batchMem : Memory := (0, 1) :: (1, 2) :: (List.range 62).map fun i => (i + 2, 0)

/-- A channel with a queued batch of two operations in two words. -/
def queuedCh : Channel :=
  { Channel.reset with state := .queued, numOps := 2, cmdLen := 2, cmdMem := batchMem, respMem := [] }

/-- The same, running, with some of its operations done. -/
def runningCh (done : Nat) (resp : List Word) : Channel :=
  { queuedCh with state := .running, start := true, done := done, respMem := resp }

/-- Unit `u` after an operation that answered. -/
def unitAfter (u : Int) (o : Outcome) : UnitState :=
  match o with
  | .next t => unitAt t u
  | .fault _ => UnitState.reset
  | .refused _ => UnitState.reset

/-- The reason an operation was refused for. -/
def refusalOf (o : Outcome) : Option Refusal :=
  match o with
  | .next _ => none
  | .fault _ => none
  | .refused r => some r

/-- What the caller on unit `u` was given, with the first words of the message buffer. -/
def given (u : Int) (words : Nat) (o : Outcome) : Result × List Word :=
  ((unitAfter u o).result, (List.range words).map (msgWord (unitAfter u o)))

/-! ## The codec (vectors of 3.2) -/

/-- C-1. -/
theorem test_encodeCommand_write :
    given 0 5 (encodeCommand refConfig 0 0x09 3 5 0x1000 2 [0x11111111, 0x22222222] blank) =
      (.encoded .ok 4, [0x2428C400, 0x1000, 0x11111111, 0x22222222, 0]) := by decide

/-- C-9: an acknowledge opcode. -/
theorem test_encodeCommand_ack :
    refusalOf (encodeCommand refConfig 0 0x08 0 0 0 1 [] blank) = some .unknownCommandOpcode := by decide

/-- C-16: the `datalen` of a response is ignored. -/
theorem test_decodeResponse_datalen :
    given 0 0 (decodeResponse refConfig 0 [0x2028C200, 7, 8] 2 blank) = (.decoded .ok 0x08 [7, 8], []) := by decide

/-- C-18. -/
theorem test_decodeResponse_over :
    (unitAfter 0 (decodeResponse refConfig 0 [0x2028C200] 21 blank)).result.status? = some .param := by decide

/-- C-2. -/
theorem test_readMemoryCmd :
    given 0 3 (commandMessage refConfig .readMemoryCmd 0 { dstblk := 5, acctype := 3, datalen := 8, rsvd := 0 } 0x1000 []
      blank) = (.encoded .ok 2, [0x1C28C400, 0x1000, 0]) := by decide

/-- C-12. -/
theorem test_readMemoryAck :
    given 0 3 (responseMessage refConfig .readMemoryAck 0 { dstblk := 5, acctype := 3, datalen := 8, rsvd := 0 }
      [0x11111111, 0x22222222] blank) =
      (.decoded .ok 0x08 [0x11111111, 0x22222222], [0x2028C400, 0x11111111, 0x22222222]) := by decide

/-- C-13. -/
theorem test_writeMemoryCmd :
    given 0 6 (commandMessage refConfig .writeMemoryCmd 0 { dstblk := 1, acctype := 2, datalen := 16, rsvd := 0 } 0x40
      [0xA, 0xB, 0xC, 0xD] blank) = (.encoded .ok 6, [0x24088800, 0x40, 0xA, 0xB, 0xC, 0xD]) := by decide

/-- C-14. -/
theorem test_writeMemoryAck :
    given 0 1 (responseMessage refConfig .writeMemoryAck 0 { dstblk := 5, acctype := 3, datalen := 0, rsvd := 0 } []
      blank) = (.decoded .ok 0x0A [], [0x2828C000]) := by decide

/-- C-20. -/
theorem test_readRegisterCmd :
    given 0 2 (commandMessage refConfig .readRegisterCmd 0 { dstblk := 3, acctype := 1, datalen := 4, rsvd := 0 } 8 []
      blank) = (.encoded .ok 2, [0x2C184200, 8]) := by decide

/-- The response headers listed after 3.1. -/
theorem test_readRegisterAck :
    given 0 2 (responseMessage refConfig .readRegisterAck 0 { dstblk := 3, acctype := 1, datalen := 4, rsvd := 0 } [5]
      blank) = (.decoded .ok 0x0C [5], [0x30184200, 5]) := by decide

/-- C-20. -/
theorem test_writeRegisterCmd :
    given 0 3 (commandMessage refConfig .writeRegisterCmd 0 { dstblk := 3, acctype := 1, datalen := 4, rsvd := 0 } 8 [5]
      blank) = (.encoded .ok 3, [0x34184200, 8, 5]) := by decide

/-- The response headers listed after 3.1. -/
theorem test_writeRegisterAck :
    given 0 1 (responseMessage refConfig .writeRegisterAck 0 { dstblk := 3, acctype := 1, datalen := 0, rsvd := 0 } []
      blank) = (.decoded .ok 0x0E [], [0x38184000]) := by decide

/-! ## The selector and the PIO engine (vectors of 3.3 and 3.4) -/

/-- S-2: bypass comes before the hook. -/
theorem test_selectRoute_bypass :
    (unitAfter 0 (selectRoute refConfig 0 0x305 0x20FF { blank with simPresent := true })).result = .route .bypass := by
  decide

/-- S-5. -/
theorem test_selectRoute_bus : (unitAfter 0 (selectRoute refConfig 0 0x305 0x2100 blank)).result = .route .bus := by
  decide

/-- P-8: the second word of the buffer is untouched. -/
theorem test_memRead_bus :
    (unitAfter 0 (memRead (answering [0x1C28C200, 0x1000] 2 [0x2028C200, 5]) 0 0x305 0x1000 1 [7, 8] blank)).result =
      .read .ok [5, 8] := by decide

/-- P-9: a write acknowledge. -/
theorem test_memRead_protocol :
    (unitAfter 0
      (memRead (answering [0x1C28C200, 0x1000] 2 [0x2828C000, 5]) 0 0x305 0x1000 1 [0] blank)).result.status? =
      some .protocol := by decide

/-- P-21: words beyond the count are not sent. -/
theorem test_memWrite_bus :
    (unitAfter 0
      (memWrite (answering [0x2428C200, 0x1000, 1] 1 [0x2828C000]) 0 0x305 0x1000 [1, 2, 3] 1 blank)).result =
      .status .ok := by decide

/-- P-19: a register-write acknowledge. -/
theorem test_memWrite_protocol :
    (unitAfter 0
      (memWrite (answering [0x2428C200, 0x1000, 1] 1 [0x3828C000]) 0 0x305 0x1000 [1] 1 blank)).result =
      .status .protocol := by decide

/-! ## The registry (vectors of 3.6) -/

/-- L-2. -/
theorem test_fifoAttach :
    ((unitAfter 0 (fifoAttach refConfig 0 blank)).result, (unitAfter 0 (fifoAttach refConfig 0 blank)).bound,
      (unitAfter 0 (fifoAttach refConfig 0 blank)).channelCount,
      (unitAfter 0 (fifoAttach refConfig 0 blank)).cmdMemWsize) = (.status .ok, true, 4, 64) := by decide

/-- L-9. -/
theorem test_fifoAttach_running :
    refusalOf (fifoAttach refConfig 0 (ready 1 (runningCh 0 []))) = some .attachWhileRunning := by decide

/-- L-1. -/
theorem test_fifoDetach_never : (unitAfter 0 (fifoDetach refConfig 0 blank)).result = .status .unavail := by decide

/-- L-5: the bound backend is kept. -/
theorem test_fifoDetach :
    ((unitAfter 0 (fifoDetach refConfig 0 (ready 1 queuedCh))).result,
      (unitAfter 0 (fifoDetach refConfig 0 (ready 1 queuedCh))).active,
      (unitAfter 0 (fifoDetach refConfig 0 (ready 1 queuedCh))).bound) = (.status .ok, false, true) := by decide

/-! ## The FIFO controller and the engine (vectors of 3.5) -/

/-- F-1. -/
theorem test_fifoInfoGet : (unitAfter 0 (fifoInfoGet refConfig 0 (ready 1 queuedCh))).result = .info .ok 4 64 := by
  decide

/-- F-2. -/
theorem test_fifoInit : (unitAfter 0 (fifoInit refConfig 0 100 0 (ready 1 queuedCh))).maxPolls = 100 := by decide

/-- F-14: a queued batch is replaced; the last word of the memory is there, whatever it is. -/
theorem test_fifoOpsSend_queued :
    let ch := channelAt (unitAfter 0 (fifoOpsSend refConfig 0 1 5 (some [7, 8]) 2 0 (ready 1 queuedCh))) 1
    (ch.state, ch.numOps, ch.cmdLen, ch.cmdMem.words 2, (ch.cmdMem.read 63).isSome, ch.cmdMem.read 64) =
      (.queued, 5, 2, [7, 8], true, none) := by decide

/-- F-28. -/
theorem test_fifoOpsSend_running :
    refusalOf (fifoOpsSend refConfig 0 1 3 (some [9]) 1 0 (ready 1 (runningCh 0 []))) = some .opsSendWhileRunning := by
  decide

/-- F-15. -/
theorem test_fifoSetStart :
    channelAt (unitAfter 0 (fifoSetStart refConfig 0 1 true (ready 1 queuedCh))) 1 = runningCh 0 [] := by decide

/-- F-19: the response memory is whatever was drawn, which the vector does not say. -/
theorem test_fifoSetStart_abort :
    let ch := channelAt (unitAfter 0 (fifoSetStart refConfig 0 1 false (ready 1 (runningCh 1 [0xC0DE0000])))) 1
    { ch with respMem := [] } = { Channel.reset with cmdMem := batchMem } := by decide

/-- F-21. -/
theorem test_fifoStatusGet_complete :
    (unitAfter 0 (fifoStatusGet refConfig 0 1 2 0 true (ready 1 (runningCh 2 [0xC0DE0000, 0xC0DE0001])))).result =
      .completion .ok (some 2) { unit := 0, channel := 1, stamp := 0 } := by decide

/-- F-22. -/
theorem test_fifoStatusGet_timeout :
    channelAt (unitAfter 0 (fifoStatusGet refConfig 0 1 2 0 true (ready 1 (runningCh 1 [0xC0DE0000])))) 1 =
      { runningCh 1 [0xC0DE0000] with timedOut := true } := by decide

/-- Program 3, step 9. -/
theorem test_engineStep :
    channelAt (engineStep refConfig 0 1 (readyUnit 1 (runningCh 1 [0xC0DE0000]))) 1 =
      runningCh 2 [0xC0DE0000, 0xC0DE0001] := by decide

/-- F-31. -/
theorem test_readResponse_dead :
    refusalOf (readResponse { unit := 0, channel := 1, stamp := 0 } (ready 1 queuedCh)) = some .deadResponseReference := by
  decide

/-! ## Witnesses: every statement's hypotheses are met somewhere, in every configuration -/

/-- A channel that timed out. -/
def timedOutCh : Channel := { runningCh 0 [] with timedOut := true }

/-- The state with one event to come. -/
def withEvent (s : State) (e : Event) : State := { s with inbox := [e] }

theorem ready_available (c : Nat) (ch : Channel) : Available (ready c ch) 0 :=
  { present := rfl, active := rfl, bound := rfl, slot := unitInRange_iff.mp (unitInRange_zero _) }

theorem ready_avail (c : Nat) (ch : Channel) : avail Config.config 0 (readyUnit c ch) = true :=
  avail_iff_available.mpr (ready_available c ch)

theorem blank_not_available (u : Int) : ¬Available blank u := fun h => Bool.false_ne_true h.present

/-- Channels 0 and 3, the first and the last, are in range; -1 and 4 are not. -/
theorem ready_channels (c : Nat) (ch : Channel) :
    ChannelInRange (ready c ch) 0 0 ∧ ChannelInRange (ready c ch) 0 3 ∧ ¬ChannelInRange (ready c ch) 0 (-1) ∧
      ¬ChannelInRange (ready c ch) 0 4 := by
  have h : (unitAt (ready c ch) 0).channelCount = 4 := rfl
  simp [ChannelInRange, h]

theorem slot_zero : (0 : Int) ≤ 0 ∧ (0 : Int) < Config.config.numUnits := unitInRange_iff.mp (unitInRange_zero _)

/-- Attach of a slot without a channel Running runs, whatever the configuration. -/
theorem attach_next : ∃ t, exec (.fifoAttach 0) blank = .next t := ⟨_, rfl⟩

/-- Start of a queued channel runs, whatever the configuration. -/
theorem start_next : ∃ t, exec (.fifoSetStart 0 3 true) (ready 3 queuedCh) = .next t := by
  refine ⟨_, perform_next_iff.mpr ⟨?_, rfl⟩⟩
  show setStartRefusal Config.config 0 3 true (readyUnit 3 queuedCh) = none
  unfold setStartRefusal
  rw [ready_avail]
  rfl

theorem witness_DecodeEncode :
    (Instr.writeMemoryCmd 0 { dstblk := 127, acctype := 31, datalen := 127, rsvd := 127 } 0
      (List.replicate 31 0)).wellFormed = true := by decide

theorem witness_EncodeDecode :
    ∃ i, decode { head := 0x27FFE800, scalars := [0], words := some (0xFFFFFFFF :: List.replicate 20 1) } = .ok i :=
  ⟨_, rfl⟩

theorem witness_StepRunsDecodedCall :
    (withEvent blank (.call { head := 5, scalars := [0], words := none })).inbox =
        .call { head := 5, scalars := [0], words := none } :: [] ∧
      decode { head := 5, scalars := [0], words := none } = .ok (.fifoAttach 0) := by decide

theorem witness_FetchWordRuns : decodeTableWord 8 5 = some (.fifoAttach 0) ∧ decodeTableWord 8 0 ≠ none := by decide

theorem witness_StepTakesOldestEvent :
    ∃ t, step (withEvent blank (.call { head := 5, scalars := [0], words := none })) = .next t := ⟨_, rfl⟩

theorem channelInv_reset (wsize : Nat) : ChannelInv wsize Channel.reset := by
  constructor <;> simp

theorem unitInv_reset (C : Configuration) (u : Int) : UnitInv C u UnitState.reset :=
  { activePresent := by simp, boundPresent := by simp, boundOps := rfl, opsBackend := by simp, channelCount := rfl
    cmdMemWsize := rfl, initFlags := rfl, presentInRange := by simp, fresh := fun _ => rfl, canonical := rfl
    listed := fun _ h => absurd rfl h, channels := fun _ => channelInv_reset _
    memories := fun _ h => absurd h (Nat.not_lt_zero _), stamps := fun _ _ h => by cases h
    msgLength := .inl rfl }

/-- A state that is not the reset state: an attach is to come. -/
theorem witness_InvKept :
    ∃ s t : State, s.Inv ∧ s.inbox ≠ [] ∧ step s = .next t :=
  ⟨withEvent { blank with simPresent := Config.config.simPresent } (.call { head := 5, scalars := [0], words := none }), _,
    { canonical := rfl, simPresent := rfl, units := fun u => unitInv_reset _ u }, by simp [withEvent], rfl⟩

/-- A read and a write, the largest field values, a count at the capacity and a count of one with as many words. -/
theorem witness_EncodeCommandBuilds :
    ((MsgOpcode.readMemoryCmd.isReadCmd = true ∨ MsgOpcode.readMemoryCmd.isWriteCmd = true) ∧ 31 < 32 ∧ 127 < 128 ∧
        Config.config.respCapacity ≤ Config.config.respCapacity ∧
        (MsgOpcode.readMemoryCmd.isWriteCmd = true → Config.config.respCapacity ≤ 0)) ∧
      (MsgOpcode.writeRegisterCmd.isReadCmd = true ∨ MsgOpcode.writeRegisterCmd.isWriteCmd = true) ∧
        1 ≤ Config.config.respCapacity ∧
        (MsgOpcode.writeRegisterCmd.isWriteCmd = true → 1 ≤ ((some [7] : Option (List Word)).getD []).length) := by
  simp [Configuration.respCapacity_pos, MsgOpcode.isReadCmd, MsgOpcode.isWriteCmd]

theorem capacity_lt_32 : Config.config.respCapacity < 32 := by
  have := Config.config.respCapacity_le
  omega

theorem witness_EncodeCommandOverCapacity :
    (MsgOpcode.writeMemoryCmd.isReadCmd = true ∨ MsgOpcode.writeMemoryCmd.isWriteCmd = true) ∧ 31 < 32 ∧ 127 < 128 ∧
      Config.config.respCapacity < 32 := ⟨.inr rfl, by decide, by decide, capacity_lt_32⟩

/-- One witness for each clause: 64, the number of an acknowledge, fields one too large, a write whose word
sequence is present and empty. -/
theorem witness_EncodeCommandRefusals :
    64 ≤ 64 ∧
      ((Config.config.opcodeNumber .readMemoryAck).toNat < 64 ∧
        ∀ op : MsgOpcode, op.isReadCmd = true ∨ op.isWriteCmd = true →
          (Config.config.opcodeNumber op).toNat ≠ (Config.config.opcodeNumber .readMemoryAck).toNat) ∧
      ((MsgOpcode.readRegisterCmd.isReadCmd = true ∨ MsgOpcode.readRegisterCmd.isWriteCmd = true) ∧
        (32 ≤ 32 ∨ 128 ≤ 0) ∧ (32 ≤ 31 ∨ 128 ≤ 128)) ∧
      (MsgOpcode.writeMemoryCmd.isWriteCmd = true ∧ 31 < 32 ∧ 127 < 128 ∧ 1 ≤ Config.config.respCapacity ∧
        ((some [] : Option (List Word)).getD []).length < 1) := by
  refine ⟨le_refl _, ⟨(Config.config.opcodeNumber .readMemoryAck).isLt, fun op hop h => ?_⟩, ⟨.inl rfl, by decide, by decide⟩,
    rfl, by decide, by decide, Config.config.respCapacity_pos, by decide⟩
  have := Config.config.opcodeNumber_injective (BitVec.eq_of_toNat_eq h)
  subst this
  revert hop
  decide

theorem witness_WriteCommandMessages :
    ([5] : List Word).length = (HeaderFields.wordCount { dstblk := 0, acctype := 0, datalen := 7, rsvd := 1 }) ∧
      ([] : List Word).length = (HeaderFields.wordCount { dstblk := 0, acctype := 0, datalen := 3, rsvd := 0 }) := by decide

/-- A count of one with a response of a header and a word, and a count over capacity. -/
theorem witness_DecodeResponseSlices :
    (1 ≤ Config.config.respCapacity ∧ ([5, 7] : List Word) ≠ [] ∧ 0 < 1 ∧ 1 + 0 < ([5, 7] : List Word).length) ∧
      Config.config.respCapacity < 32 :=
  ⟨⟨Config.config.respCapacity_pos, by decide, by decide, by decide⟩, capacity_lt_32⟩

theorem witness_CommandFieldsInverse :
    ∃ t, exec (.encodeCommand 0 (Config.config.opcodeNumber .writeMemoryCmd).toNat 31 127 0 1 (some [7])) blank = .next t ∧
      (unitAt t 0).result = .encoded .ok 3 := by
  refine ⟨_, (encodeCommand_command rfl).trans (perform_next_iff.mpr ⟨buildRefusal_none_iff.mpr ?_, rfl⟩), ?_⟩
  · exact ⟨by decide, by decide, fun _ _ => by decide⟩
  · rw [unitAt_setUnit_same, buildReturn_within Config.config.respCapacity_pos]
    rfl

theorem witness_EchoRoundTrip : ([7] : List Word).length ≤ Config.config.respCapacity ∧ 31 < 32 ∧ 127 < 128 :=
  ⟨Config.config.respCapacity_pos, by decide, by decide⟩

theorem witness_BypassedRead : refConfig.isBypassed 0 0x305 0x2000 = true ∧ refConfig.isBypassed 0 0x305 0x20FF = true := by
  decide

theorem witness_MemReadAnswers : 1 ≤ Config.config.respCapacity ∧ 1 ≤ ([7] : List Word).length :=
  ⟨Config.config.respCapacity_pos, by decide⟩

theorem witness_MemReadTurnedAway :
    Config.config.respCapacity < 32 ∧ 1 ≤ Config.config.respCapacity ∧ ([] : List Word).length < 1 :=
  ⟨capacity_lt_32, Config.config.respCapacity_pos, by decide⟩

theorem witness_MemWriteAnswers : 1 ≤ Config.config.respCapacity ∧ 1 ≤ ([7, 8] : List Word).length :=
  ⟨Config.config.respCapacity_pos, by decide⟩

theorem witness_MemWriteTurnedAway :
    Config.config.respCapacity < 32 ∧ 1 ≤ Config.config.respCapacity ∧ ([] : List Word).length < 1 :=
  witness_MemReadTurnedAway

/-- A read answered in two different states, and a `decode_response` answered in two that differ in the buffer. -/
theorem witness_PioIgnoresController :
    isPio (.memRead 0 0 0 0 []) = true ∧ (ready 1 queuedCh).simPresent = blank.simPresent ∧
      (unitAt (ready 1 queuedCh) 0).tick = (unitAt blank 0).tick ∧ ready 1 queuedCh ≠ blank ∧
      (∃ t, exec (.memRead 0 0 0 0 []) blank = .next t) ∧
      (setUnit blank 0 { unitAt blank 0 with msg := [7] }).simPresent = blank.simPresent ∧
      unitAt (setUnit blank 0 { unitAt blank 0 with msg := [7] }) 0 = { unitAt blank 0 with msg := [7] } ∧
      ({ unitAt blank 0 with msg := [7] } : UnitState) ≠ unitAt blank 0 ∧
      ∃ t, exec (.decodeResponse 0 { msg := [1], wordCount := 0 }) blank = .next t :=
  ⟨rfl, rfl, rfl, by decide, ⟨_, rfl⟩, rfl, rfl, by decide, _, rfl⟩

/-- One witness for each clause: the two nearest units without a slot, a channel Running, none Running. -/
theorem witness_AttachOutcomes :
    ¬(0 ≤ (-1 : Int) ∧ (-1 : Int) < Config.config.numUnits) ∧
      ¬(0 ≤ (Config.config.numUnits : Int) ∧ (Config.config.numUnits : Int) < Config.config.numUnits) ∧
      ((0 ≤ (0 : Int) ∧ (0 : Int) < Config.config.numUnits) ∧
        ∃ c, (channelAt (unitAt (ready 1 (runningCh 0 [])) 0) c).state = .running) ∧
      ∀ c, (channelAt (unitAt blank 0) c).state ≠ .running :=
  ⟨by omega, by omega, ⟨slot_zero, 1, rfl⟩, fun _ => by simp [blank, unitAt, tableGet, channelAt]⟩

/-- An attach that is answered `OK`, of a unit with a completed channel. -/
theorem witness_AttachEndsReferences :
    ∃ t, exec (.fifoAttach 0) (ready 3 (completedChannel 5 (runningCh 2 [7]))) = .next t ∧
      (unitAt t 0).result = .status .ok := by
  refine ⟨_, rfl, ?_⟩
  show (unitAt (setUnit (ready 3 (completedChannel 5 (runningCh 2 [7]))) 0
    (attachReturn Config.config 0 (readyUnit 3 (completedChannel 5 (runningCh 2 [7]))))) 0).result = _
  rw [unitAt_setUnit_same, attachReturn, unitInRange_zero]
  rfl

theorem witness_DetachOutcomes :
    ¬(0 ≤ (-1 : Int) ∧ (-1 : Int) < Config.config.numUnits) ∧ (unitAt blank 0).present = false ∧
      ((0 ≤ (0 : Int) ∧ (0 : Int) < Config.config.numUnits) ∧ (unitAt (ready 1 queuedCh) 0).present = true) :=
  ⟨by omega, rfl, slot_zero, rfl⟩

theorem witness_ControllerUnavailable :
    ¬Available blank (Instr.fifoStatusGet 0 9 0 1 false).unit ∧
      (channelOf (.fifoStatusGet 0 9 0 1 false)).isSome = true := ⟨blank_not_available 0, rfl⟩

theorem witness_InfoGetOutcomes : Available (ready 1 queuedCh) 0 ∧ ¬Available blank 0 :=
  ⟨ready_available .., blank_not_available 0⟩

theorem witness_InitOutcomes : Available (ready 1 queuedCh) 0 ∧ ¬Available blank 0 ∧ (1 : Word) ≠ 0 :=
  ⟨ready_available .., blank_not_available 0, by decide⟩

/-- Channels 0 (Idle) and 3 (timed out), a batch that fills the command memory. -/
theorem witness_OpsSendQueues :
    Available (ready 3 timedOutCh) 0 ∧ ChannelInRange (ready 3 timedOutCh) 0 0 ∧ ChannelInRange (ready 3 timedOutCh) 0 3 ∧
      64 ≤ (unitAt (ready 3 timedOutCh) 0).cmdMemWsize ∧ 64 ≤ (List.replicate 64 (0 : Word)).length ∧
      (channelAt (unitAt (ready 3 timedOutCh) 0) 0).state = .idle ∧
      (channelAt (unitAt (ready 3 timedOutCh) 0) 3).state = .running ∧
      (channelAt (unitAt (ready 3 timedOutCh) 0) 3).timedOut = true :=
  ⟨ready_available .., (ready_channels ..).1, (ready_channels ..).2.1, by decide, by decide, rfl, rfl, rfl⟩

theorem witness_OpsSendParameterErrors :
    Available (ready 1 queuedCh) 0 ∧ ((unitAt (ready 1 queuedCh) 0).channelCount : Int) ≤ 4 ∧
      (unitAt (ready 1 queuedCh) 0).cmdMemWsize < 65 := ⟨ready_available .., by decide, by decide⟩

theorem witness_OpsSendRefusals :
    Available (ready 3 (runningCh 0 [])) 0 ∧ ChannelInRange (ready 3 (runningCh 0 [])) 0 3 ∧ (1 : Word) ≠ 0 ∧
      ([] : List Word).length < 1 ∧ 1 ≤ (unitAt (ready 3 (runningCh 0 [])) 0).cmdMemWsize ∧
      (channelAt (unitAt (ready 3 (runningCh 0 [])) 0) 3).state = .running ∧
      (channelAt (unitAt (ready 3 (runningCh 0 [])) 0) 3).timedOut = false :=
  ⟨ready_available .., (ready_channels ..).2.1, by decide, by decide, by decide, rfl, rfl⟩

theorem witness_SetStartStarts :
    Available (ready 3 queuedCh) 0 ∧ ChannelInRange (ready 3 queuedCh) 0 3 ∧
      (channelAt (unitAt (ready 3 queuedCh) 0) 3).state = .queued :=
  ⟨ready_available .., (ready_channels ..).2.1, rfl⟩

theorem witness_SetStartStops :
    Available (ready 3 timedOutCh) 0 ∧ ChannelInRange (ready 3 timedOutCh) 0 3 ∧
      (channelAt (unitAt (ready 3 timedOutCh) 0) 3).state = .running ∧ ChannelInRange (ready 3 timedOutCh) 0 0 ∧
      (channelAt (unitAt (ready 3 timedOutCh) 0) 0).state = .idle :=
  ⟨ready_available .., (ready_channels ..).2.1, rfl, (ready_channels ..).1, rfl⟩

theorem witness_SetStartTurnedAway :
    Available (ready 3 timedOutCh) 0 ∧ ¬ChannelInRange (ready 3 timedOutCh) 0 (-1) ∧
      ¬ChannelInRange (ready 3 timedOutCh) 0 4 ∧ ChannelInRange (ready 3 timedOutCh) 0 0 ∧
      (channelAt (unitAt (ready 3 timedOutCh) 0) 0).state = .idle ∧ ChannelInRange (ready 3 timedOutCh) 0 3 ∧
      (channelAt (unitAt (ready 3 timedOutCh) 0) 3).state = .running :=
  ⟨ready_available .., (ready_channels ..).2.2.1, (ready_channels ..).2.2.2, (ready_channels ..).1, rfl,
    (ready_channels ..).2.1, rfl⟩

theorem witness_StatusGetCompletes :
    Available (ready 3 (runningCh 2 [])) 0 ∧ ChannelInRange (ready 3 (runningCh 2 [])) 0 3 ∧
      (channelAt (unitAt (ready 3 (runningCh 2 [])) 0) 3).state = .running ∧
      (channelAt (unitAt (ready 3 (runningCh 2 [])) 0) 3).numOps = 2 ∧
      (channelAt (unitAt (ready 3 (runningCh 2 [])) 0) 3).done = 2 ∧
      (unitAt (ready 3 (runningCh 2 [])) 0).maxPolls ≠ 0 :=
  ⟨ready_available .., (ready_channels ..).2.1, rfl, rfl, rfl, by decide⟩

theorem witness_StatusGetPolls :
    Available (ready 3 (runningCh 0 [])) 0 ∧ ChannelInRange (ready 3 (runningCh 0 [])) 0 3 ∧
      (channelAt (unitAt (ready 3 (runningCh 0 [])) 0) 3).state = .running ∧
      (channelAt (unitAt (ready 3 (runningCh 0 [])) 0) 3).numOps = 2 :=
  ⟨ready_available .., (ready_channels ..).2.1, rfl, rfl⟩

/-- The same block with no poll allowed. -/
def noPolls (c : Nat) (ch : Channel) : State :=
  { simPresent := false, units := [(0, { readyUnit c ch with maxPolls := 0 })], inbox := [] }

theorem witness_StatusGetTimesOut :
    (Available (noPolls 0 (runningCh 2 [])) 0 ∧ ChannelInRange (noPolls 0 (runningCh 2 [])) 0 0 ∧
        (channelAt (unitAt (noPolls 0 (runningCh 2 [])) 0) 0).state = .running ∧
        (channelAt (unitAt (noPolls 0 (runningCh 2 [])) 0) 0).numOps = 2 ∧
        (unitAt (noPolls 0 (runningCh 2 [])) 0).maxPolls = 0) ∧
      Available (ready 3 queuedCh) 0 ∧ ChannelInRange (ready 3 queuedCh) 0 3 ∧
        (channelAt (unitAt (ready 3 queuedCh) 0) 3).state ≠ .running :=
  ⟨⟨⟨rfl, rfl, rfl, slot_zero⟩, ⟨by decide, by decide⟩, rfl, rfl, rfl⟩, ready_available .., (ready_channels ..).2.1,
    by decide⟩

theorem witness_StatusGetParameterErrors :
    Available (ready 3 queuedCh) 0 ∧ ((unitAt (ready 3 queuedCh) 0).channelCount : Int) ≤ 4 ∧ (-1 : Int) < 0 :=
  ⟨ready_available .., by decide, by decide⟩

theorem witness_StatusGetRefusals :
    Available (ready 3 (runningCh 0 [])) 0 ∧ ChannelInRange (ready 3 (runningCh 0 [])) 0 3 ∧ (1 : Word) ≠ 0 ∧
      (channelAt (unitAt (ready 3 (runningCh 0 [])) 0) 3).state = .running ∧
      1 ≠ (channelAt (unitAt (ready 3 (runningCh 0 [])) 0) 3).numOps :=
  ⟨ready_available .., (ready_channels ..).2.1, by decide, rfl, by decide⟩

/-- A completed channel and a read through the reference with its stamp, which is good, or another, which is dead. -/
def completedRead (stamp : Nat) : State :=
  withEvent (ready 3 (completedChannel 5 (runningCh 2 [7]))) (.readResponse { unit := 0, channel := 3, stamp := stamp })

theorem witness_ResponseReferenceRead :
    ((completedRead 5).inbox = [.readResponse { unit := 0, channel := 3, stamp := 5 }] ∧
        (channelAt (unitAt (completedRead 5) 0) 3).respRef = some 5 ∧
        (channelAt (unitAt (completedRead 5) 0) 3).respMem = [7]) ∧
      (completedRead 4).inbox = [.readResponse { unit := 0, channel := 3, stamp := 4 }] ∧
        (channelAt (unitAt (completedRead 4) 0) 3).respRef ≠ some 4 := by decide

/-- A channel with some of its two operations done, and a step of an engine to come. -/
def stepping (done : Nat) (unit : Int) (channel : Nat) : State :=
  withEvent (ready 3 (runningCh done [])) (.engine unit channel)

theorem witness_EngineCompletesOneOperation :
    (stepping 1 0 3).inbox = [.engine 0 3] ∧ (0 ≤ (0 : Int) ∧ (0 : Int) < Config.config.numUnits) ∧
      3 < (unitAt (stepping 1 0 3) 0).channelCount ∧ (channelAt (unitAt (stepping 1 0 3) 0) 3).state = .running ∧
      (channelAt (unitAt (stepping 1 0 3) 0) 3).done < (channelAt (unitAt (stepping 1 0 3) 0) 3).numOps :=
  ⟨rfl, slot_zero, by decide, rfl, by decide⟩

/-- A batch that is complete, a unit without a slot, and the first channel the unit does not have. -/
theorem witness_EngineIdleOrAbsent :
    ((stepping 2 0 3).inbox = [.engine 0 3] ∧ (0 ≤ (0 : Int) ∧ (0 : Int) < Config.config.numUnits) ∧
        3 < (unitAt (stepping 2 0 3) 0).channelCount ∧
        ¬((channelAt (unitAt (stepping 2 0 3) 0) 3).state = .running ∧
          (channelAt (unitAt (stepping 2 0 3) 0) 3).done < (channelAt (unitAt (stepping 2 0 3) 0) 3).numOps)) ∧
      ((stepping 2 (-1) 3).inbox = [.engine (-1) 3] ∧
        ¬(0 ≤ (-1 : Int) ∧ (-1 : Int) < Config.config.numUnits ∧ 3 < (unitAt (stepping 2 (-1) 3) (-1)).channelCount)) ∧
      (stepping 2 0 4).inbox = [.engine 0 4] ∧
        ¬(0 ≤ (0 : Int) ∧ (0 : Int) < Config.config.numUnits ∧ 4 < (unitAt (stepping 2 0 4) 0).channelCount) :=
  ⟨⟨rfl, slot_zero, by decide, by decide⟩, ⟨rfl, by omega⟩, rfl, fun h => absurd h.2.2 (by decide)⟩

theorem witness_ChannelsWriteOnlyOwn :
    channelOf (.fifoSetStart 0 3 true) = some 3 ∧ ∃ t, exec (.fifoSetStart 0 3 true) (ready 3 queuedCh) = .next t :=
  ⟨rfl, start_next⟩

/-- Two blocks that differ in channel 1 alone. -/
def twoChannels (other : Channel) : State :=
  { simPresent := false, units := [(0, { readyUnit 3 queuedCh with channels := [(1, other), (3, queuedCh)] })], inbox := [] }

theorem witness_ChannelsReadOnlyOwn :
    channelOf (.fifoSetStart 0 3 true) = some 3 ∧
      SameController (unitAt (twoChannels queuedCh) 0) (unitAt (twoChannels (runningCh 0 [])) 0) ∧
      (unitAt (twoChannels (runningCh 0 [])) 0).tick = (unitAt (twoChannels queuedCh) 0).tick ∧
      channelAt (unitAt (twoChannels (runningCh 0 [])) 0) 3 = channelAt (unitAt (twoChannels queuedCh) 0) 3 ∧
      twoChannels (runningCh 0 []) ≠ twoChannels queuedCh :=
  ⟨rfl, ⟨rfl, rfl, rfl, rfl, rfl, rfl, rfl, rfl⟩, rfl, rfl, by decide⟩

theorem witness_UnitsWriteOnlyOwn : ∃ t, exec (.fifoAttach 0) blank = .next t := attach_next

theorem witness_UnitsReadOnlyOwn :
    unitAt (ready 1 queuedCh) 1 = unitAt blank 1 ∧ (ready 1 queuedCh).simPresent = blank.simPresent ∧
      ready 1 queuedCh ≠ blank ∧ ∃ t, exec (.fifoAttach 1) blank = .next t := ⟨rfl, rfl, by decide, _, rfl⟩

theorem witness_DifferentUnitsCommute :
    ∃ t r, (Instr.fifoAttach 0).unit ≠ (Instr.fifoDetach 1).unit ∧ exec (.fifoAttach 0) blank = .next t ∧
      exec (.fifoDetach 1) t = .next r := ⟨_, _, by decide, rfl, rfl⟩

theorem witness_OverlapOnOneUnitRefused :
    (withEvent blank (.overlap { head := 5, scalars := [0], words := none }
        { head := 6, scalars := [0], words := none })).inbox =
      [.overlap { head := 5, scalars := [0], words := none } { head := 6, scalars := [0], words := none }] ∧
      decode { head := 5, scalars := [0], words := none } = .ok (.fifoAttach 0) ∧
      decode { head := 6, scalars := [0], words := none } = .ok (.fifoDetach 0) ∧
      (Instr.fifoAttach 0).unit = (Instr.fifoDetach 0).unit := by decide

theorem witness_StatusesByOperation :
    ∃ t, exec (.fifoDetach 0) blank = .next t ∧ (unitAt t 0).result.status? = some .unavail := ⟨_, rfl, rfl⟩

/-- An unavailable unit, and a timeout on a queued channel. -/
theorem witness_FailuresLeaveState :
    (∃ t, exec (.fifoDetach 0) blank = .next t ∧ (unitAt t 0).result.status? = some .unavail) ∧
      ∃ t, exec (.fifoStatusGet 0 3 1 0 true) (ready 3 queuedCh) = .next t ∧
        (unitAt t 0).result.status? = some .timeout := by
  refine ⟨witness_StatusesByOperation, _, perform_next_iff.mpr ⟨?_, rfl⟩, ?_⟩
  · show statusGetRefusal Config.config 0 3 1 0 true (readyUnit 3 queuedCh) = none
    unfold statusGetRefusal
    rw [ready_avail]
    rfl
  · rw [unitAt_setUnit_same]
    show (statusGetReturn Config.config 0 3 1 true (readyUnit 3 queuedCh)).result.status? = _
    unfold statusGetReturn
    rw [ready_avail]
    rfl

theorem witness_PresentNeverCleared :
    (unitAt (withEvent (ready 1 queuedCh) (.call { head := 6, scalars := [0], words := none })) 0).present = true ∧
      ∃ t, step (withEvent (ready 1 queuedCh) (.call { head := 6, scalars := [0], words := none })) = .next t :=
  ⟨rfl, _, rfl⟩

theorem witness_ActiveChangesByAttachDetach :
    ∃ t, exec (.fifoAttach 0) blank = .next t ∧ (unitAt t 0).active ≠ (unitAt blank 0).active := by
  refine ⟨_, rfl, ?_⟩
  show (unitAt (setUnit blank 0 (attachReturn Config.config 0 UnitState.reset)) 0).active ≠ false
  rw [unitAt_setUnit_same, attachReturn, unitInRange_zero]
  simp

/-- The start of a queued channel moves its state; an engine step that is not enabled is a step. -/
theorem witness_ChannelStateTransitions :
    (∃ t, exec (.fifoSetStart 0 3 true) (ready 3 queuedCh) = .next t ∧
        (channelAt (unitAt t 0) 3).state ≠ (channelAt (unitAt (ready 3 queuedCh) 0) 3).state) ∧
      ∃ t, step (withEvent (ready 3 queuedCh) (.engine 0 3)) = .next t := by
  constructor
  · refine ⟨_, perform_next_iff.mpr ⟨?_, rfl⟩, ?_⟩
    · show setStartRefusal Config.config 0 3 true (readyUnit 3 queuedCh) = none
      unfold setStartRefusal
      rw [ready_avail]
      rfl
    · rw [unitAt_setUnit_same]
      show (channelAt (setStartReturn Config.config 0 3 true (readyUnit 3 queuedCh)) 3).state ≠ .queued
      unfold setStartReturn
      rw [ready_avail]
      decide
  · refine ⟨setUnit (ready 3 queuedCh) 0 (engineStep Config.config 0 3 (readyUnit 3 queuedCh)), ?_⟩
    show runEngine 0 3 (ready 3 queuedCh) = _
    unfold runEngine
    rw [if_pos]
    · rfl
    · show engineExists Config.config 0 3 (readyUnit 3 queuedCh) = true
      unfold engineExists
      rw [unitInRange_zero]
      rfl

theorem witness_CommandMemoryWriters :
    ∃ t, exec (.fifoOpsSend 0 3 1 (some [7]) 1 0) (ready 3 queuedCh) = .next t ∧
      (channelAt (unitAt t 0) 3).cmdMem ≠ (channelAt (unitAt (ready 3 queuedCh) 0) 3).cmdMem := by
  refine ⟨_, perform_next_iff.mpr ⟨?_, rfl⟩, ?_⟩
  · show opsSendRefusal Config.config 0 3 1 (some [7]) 1 0 (readyUnit 3 queuedCh) = none
    unfold opsSendRefusal
    rw [ready_avail]
    rfl
  · rw [unitAt_setUnit_same]
    show (channelAt (opsSendReturn Config.config 0 3 1 (some [7]) 1 (readyUnit 3 queuedCh)) 3).cmdMem ≠ batchMem
    unfold opsSendReturn
    rw [ready_avail]
    intro h
    have h0 := congrArg (fun m => Memory.read m 0) h
    exact absurd h0 (by decide)

/-- One operation is left, and the inbox holds one engine step and the call. -/
def batchToCome : State :=
  { ready 3 (runningCh 1 []) with inbox := [.engine 0 3, .call (encode (.fifoStatusGet 0 3 2 0 true))] }

theorem witness_StartedBatchCompletes :
    Available batchToCome 0 ∧ 3 < (unitAt batchToCome 0).channelCount ∧
      (channelAt (unitAt batchToCome 0) 3).state = .running ∧ (channelAt (unitAt batchToCome 0) 3).numOps = 2 ∧
      (channelAt (unitAt batchToCome 0) 3).done ≤ 2 ∧ (unitAt batchToCome 0).maxPolls ≠ 0 ∧
      batchToCome.inbox =
        List.replicate (2 - (channelAt (unitAt batchToCome 0) 3).done) (.engine 0 3) ++
          [.call (encode (.fifoStatusGet 0 3 2 0 true))] :=
  ⟨⟨rfl, rfl, rfl, slot_zero⟩, by decide, rfl, rfl, by decide, by decide, rfl⟩

end Sys2Proof.Tests
end

section
/-! PROOFS. The scope's two statements (00_scope.md R17): a call at the head of the inbox is one step, and that step is
`exec` of the instruction its frame decodes to. -/

namespace Sys2Proof.Machine

/-- A step with an event to come is that event, on the state without it. -/
theorem step_eq_runEvent {s : State} {e : Event} {rest : List Event} (h : s.inbox = e :: rest) :
    step s = runEvent e { s with inbox := rest } := by
  unfold step nextEvent
  rw [h]

/-- A call whose frame decodes is its instruction. -/
theorem runCall_eq_exec {f : Frame} {i : Instr} (h : decode f = .ok i) (s : State) : runCall f s = exec i s := by
  unfold runCall
  rw [h]

/-- The table's decoder reads an instruction exactly where the decoder reads it from the frame of those bits. -/
theorem decodeTableWord_eq_some_iff {nbits w : Nat} {i : Instr} :
    decodeTableWord nbits w = some i ↔ decode (frameOfBits nbits w) = .ok i := by
  unfold decodeTableWord
  cases decode (frameOfBits nbits w) <;> simp

/-- The placed call is the oldest event. -/
@[simp] theorem withFetchWord_inbox (s : State) (nbits w : Nat) :
    (s.withFetchWord nbits w).inbox = .call (frameOfBits nbits w) :: s.inbox := rfl

/-- With the placed call taken again, the state is the one it was placed in. -/
@[simp] theorem withFetchWord_taken (s : State) (nbits w : Nat) :
    { s.withFetchWord nbits w with inbox := s.inbox } = s := rfl

/-- Settles O5: the step is its oldest event, and that call is its instruction. -/
theorem stepRunsDecodedCall : Obligations.StepRunsDecodedCall := by
  intro s f rest i hinbox hdecode
  calc step s = runCall f { s with inbox := rest } := step_eq_runEvent hinbox
    _ = exec i { s with inbox := rest } := runCall_eq_exec hdecode _

/-- Settles O6, from O5: the placed call is the oldest event, and taking it gives the state back. -/
theorem fetchWordRuns : Obligations.FetchWordRuns := by
  intro s nbits w i hdecode
  have hframe : decode (frameOfBits nbits w) = .ok i := decodeTableWord_eq_some_iff.mp hdecode
  have hstep := stepRunsDecodedCall _ _ _ i (withFetchWord_inbox s nbits w) hframe
  rwa [withFetchWord_taken] at hstep

end Sys2Proof.Machine
end

section
/-! PROOFS. The rules of R35 for one channel: what each transition of R220, and an engine step, keeps of them
(10_state.md R34, R35; 20_memory.md R63; 43_fifo_controller.md R211). -/

namespace Sys2Proof.Machine

/-! ## The two kinds of channel -/

/-- An Idle channel with its counters and flags at 0 keeps R35, whatever its memories hold. -/
theorem channelInv_of_zeroed {wsize : Nat} {ch : Channel} (hz : ChannelZeroed ch) (hm : ch.cmdMem.wf = true) :
    ChannelInv wsize ch where
  idle _ := ⟨hz.start, hz.numOps, hz.done, hz.timedOut, hz.cmdLen⟩
  queued h := by simp [hz.state] at h
  running h := by simp [hz.state] at h
  startIff := by simp [hz.start, hz.state]
  memory := hm
  batch := by simp [hz.cmdLen]
  reference _ := hz.state

theorem channelInv_of_running {wsize : Nat} {ch : Channel} (hs : ch.state = .running) (hstart : ch.start = true)
    (hn : 1 ≤ ch.numOps) (hd : ch.done ≤ ch.numOps) (hm : ch.cmdMem.wf = true) (hb : ch.cmdLen ≤ wsize)
    (href : ch.respRef = none) : ChannelInv wsize ch where
  idle h := by simp [hs] at h
  queued h := by simp [hs] at h
  running _ := ⟨hstart, hn, hd⟩
  startIff := by simp [hstart, hs]
  memory := hm
  batch := hb
  reference h := by simp [href] at h

/-- A channel with a batch has no good response reference (R211). -/
theorem ChannelInv.respRef_eq_none {wsize : Nat} {ch : Channel} (h : ChannelInv wsize ch) (hs : ch.state ≠ .idle) :
    ch.respRef = none := by
  cases href : ch.respRef with
  | none => rfl
  | some stamp => exact absurd (h.reference (by simp [href])) hs

theorem channelInv_channelReset (wsize : Nat) : ChannelInv wsize Channel.reset :=
  channelInv_of_zeroed ⟨rfl, rfl, rfl, rfl, rfl, rfl⟩ rfl

/-! ## What the invariant says of an existing channel -/

/-- The clauses of `UnitInv` on a channel that exists, of a unit with `wsize` command words at tick `k`. -/
structure ExistingChannelInv (wsize k : Nat) (ch : Channel) : Prop where
  inv : ChannelInv wsize ch
  memory : ∀ i, (ch.cmdMem.read i).isSome = true ↔ i < wsize
  stamp : ∀ stamp, ch.respRef = some stamp → stamp < k

section
variable {wsize k k' : Nat} {ch ch' : Channel}

/-- A channel with the old command memory: the new state and stamp alone are to be looked at. -/
theorem ExistingChannelInv.of_cmdMem_eq (h : ExistingChannelInv wsize k ch) (hm : ch'.cmdMem = ch.cmdMem)
    (hi : ChannelInv wsize ch') (hr : ∀ stamp, ch'.respRef = some stamp → stamp < k') :
    ExistingChannelInv wsize k' ch' :=
  { inv := hi, memory := by rw [hm]; exact h.memory, stamp := hr }

theorem ExistingChannelInv.mono (h : ExistingChannelInv wsize k ch) (hk : k ≤ k') : ExistingChannelInv wsize k' ch :=
  h.of_cmdMem_eq rfl h.inv fun stamp hs => (h.stamp stamp hs).trans_le hk

/-- A Running channel has no stamp, so its tick does not matter. -/
theorem ExistingChannelInv.of_running (h : ExistingChannelInv wsize k ch) (hm : ch'.cmdMem = ch.cmdMem)
    (hi : ChannelInv wsize ch') (hs : ch'.state = .running) : ExistingChannelInv wsize k' ch' :=
  h.of_cmdMem_eq hm hi fun stamp href => by
    rw [hi.respRef_eq_none (by rw [hs]; decide)] at href
    cases href

/-! ## The transitions (R220) -/

/-- R230 line 8: the drawn command memory has all its words. -/
theorem existingChannelInv_attached (C : Configuration) (u : Int) (tick wsize k c : Nat) :
    ExistingChannelInv wsize k (attachedChannel C u tick wsize c) where
  inv := channelInv_of_zeroed ⟨rfl, rfl, rfl, rfl, rfl, rfl⟩ (Memory.wf_redraw 0 wsize _ Memory.wf_nil)
  memory i := by
    rw [attachedChannel_cmdMem, Memory.read_redraw]
    split
    · next h => simp [h.2]
    · next h => simpa using h
  stamp _ h := by cases h

/-- R190: the batch fits the command memory, and every word beyond it is drawn. -/
theorem ExistingChannelInv.queued {n size : Nat} {words : List Word} {draw : Nat → Word}
    (h : ExistingChannelInv wsize k ch) (hn : 1 ≤ n) (hz : size ≤ wsize) (hs : size ≤ words.length) :
    ExistingChannelInv wsize k' (queuedChannel wsize n words size draw ch) where
  inv :=
    { idle := by simp
      queued := by simp [hn]
      running := by simp
      startIff := by simp
      memory := Memory.wf_redraw _ _ _ (Memory.wf_writeAll _ _ h.inv.memory)
      batch := hz
      reference := by simp }
  memory i := Memory.isSome_batch hs hz (h.memory i)
  stamp _ href := by cases href

/-- R198 line 5. -/
theorem ExistingChannelInv.started (h : ExistingChannelInv wsize k ch) (hq : ch.state = .queued) :
    ExistingChannelInv wsize k' (startedChannel ch) := by
  obtain ⟨-, hn, hd, -, -⟩ := h.inv.queued hq
  have hnone : ch.respRef = none := h.inv.respRef_eq_none (by rw [hq]; decide)
  exact h.of_running rfl (channelInv_of_running rfl rfl hn (by simp [hd]) h.inv.memory h.inv.batch hnone) rfl

/-- R198 lines 10 and 11. -/
theorem ExistingChannelInv.aborted (h : ExistingChannelInv wsize k ch) (drawn : List Word) :
    ExistingChannelInv wsize k' (abortedChannel drawn ch) :=
  h.of_cmdMem_eq rfl (channelInv_of_zeroed ⟨rfl, rfl, rfl, rfl, rfl, rfl⟩ h.inv.memory) fun _ href => by cases href

/-- R205 lines 11 to 13: the new stamp is an earlier tick. -/
theorem ExistingChannelInv.completed {stamp : Nat} (h : ExistingChannelInv wsize k ch) (hk : stamp < k') :
    ExistingChannelInv wsize k' (completedChannel stamp ch) :=
  h.of_cmdMem_eq rfl (channelInv_of_zeroed ⟨rfl, rfl, rfl, rfl, rfl, rfl⟩ h.inv.memory) fun _ href => by
    cases href
    exact hk

/-- R205 line 15, on a Running channel. -/
theorem ExistingChannelInv.timedOut (h : ExistingChannelInv wsize k ch) (hr : ch.state = .running) :
    ExistingChannelInv wsize k' (timedOutChannel ch) := by
  obtain ⟨hstart, hn, hd⟩ := h.inv.running hr
  have hnone : ch.respRef = none := h.inv.respRef_eq_none (by rw [hr]; decide)
  exact h.of_running rfl (channelInv_of_running hr hstart hn hd h.inv.memory h.inv.batch hnone) hr

/-- R215: an enabled engine has an operation left, so `DONE` does not pass `NUM_OPS`. -/
theorem ExistingChannelInv.completedOp (h : ExistingChannelInv wsize k ch) (he : engineEnabled ch = true)
    (piece : List Word) : ExistingChannelInv wsize k' (completedOp piece ch) := by
  obtain ⟨hr, hlt⟩ := engineEnabled_iff.mp he
  obtain ⟨hstart, hn, -⟩ := h.inv.running hr
  have hnone : ch.respRef = none := h.inv.respRef_eq_none (by rw [hr]; decide)
  exact h.of_running rfl (channelInv_of_running hr hstart hn hlt h.inv.memory h.inv.batch hnone) hr

end

end Sys2Proof.Machine
end

section
/-! PROOFS. The invariant of one unit under each kind of change an instruction (Laws/Exec.lean, `UnitEffect`) or an
engine step can make of it (10_state.md R30, R35; 44_registry_lifecycle.md R240). -/

namespace Sys2Proof.Machine

section
variable {C : Configuration} {u : Int} {us : UnitState}

/-- R41: a unit that was never attached, with no channel. -/
theorem unitInv_unitReset (C : Configuration) (u : Int) : UnitInv C u UnitState.reset where
  activePresent := by simp
  boundPresent := by simp
  boundOps := rfl
  opsBackend := by simp
  channelCount := rfl
  cmdMemWsize := rfl
  initFlags := rfl
  presentInRange := by simp
  fresh _ := rfl
  canonical := rfl
  listed c hc := absurd (channelAt_unitReset c) hc
  channels _ := channelInv_channelReset _
  memories c hc := absurd hc (Nat.not_lt_zero c)
  stamps c stamp h := by cases h
  msgLength := .inl rfl

theorem UnitInv.existing (h : UnitInv C u us) {c : Nat} (hc : c < us.channelCount) :
    ExistingChannelInv us.cmdMemWsize us.tick (channelAt us c) :=
  { inv := h.channels c, memory := h.memories c hc, stamp := h.stamps c }

/-! ## Changes that leave the channels alone -/

/-- A new message buffer, a new result and a later tick. -/
theorem UnitInv.of_msg (h : UnitInv C u us) {m : List Word} {k : Nat} (r : Result)
    (hm : m = [] ∨ m.length = C.msgWords) (hk : us.tick ≤ k) :
    UnitInv C u { us with msg := m, result := r, tick := k } :=
  { h with stamps := fun c stamp hs => (h.stamps c stamp hs).trans_le hk, msgLength := hm }

theorem unitInv_finish (h : UnitInv C u us) (r : Result) : UnitInv C u (us.finish r) :=
  h.of_msg r h.msgLength (Nat.le_succ _)

theorem unitInv_message {us' : UnitState} (h : UnitInv C u us) (he : MessageEffect C us us') : UnitInv C u us' := by
  have hm : us'.msg = [] ∨ us'.msg.length = C.msgWords := by
    rcases he.length with hsame | hlen
    · rw [hsame]
      exact h.msgLength
    · exact .inr hlen
  rw [he.shape]
  exact h.of_msg _ hm (Nat.le_succ _)

/-- R236: a detached unit stays `PRESENT`. -/
theorem unitInv_detached (h : UnitInv C u us) : UnitInv C u { us with active := false } :=
  { h with activePresent := by simp }

/-- R185: only an attached unit is given `MAX_POLLS`. -/
theorem unitInv_init (h : UnitInv C u us) (ha : avail C u us = true) (maxPolls : Word) :
    UnitInv C u { us with maxPolls := maxPolls, initFlags := 0 } :=
  { h with
    initFlags := rfl
    fresh := fun hp => by
      obtain ⟨hpresent, -⟩ := avail_iff.mp ha
      simp [hpresent] at hp }

/-- R230: the record is the backend's, and every one of its channels is a fresh one. -/
theorem unitInv_attached (h : UnitInv C u us) (hu : unitInRange C u = true) :
    UnitInv C u (attachedUnit C u (C.backendOf u) us) where
  activePresent _ := rfl
  boundPresent _ := rfl
  boundOps := rfl
  opsBackend _ := rfl
  channelCount := rfl
  cmdMemWsize := rfl
  initFlags := rfl
  presentInRange _ := hu
  fresh hp := by simp at hp
  canonical := tableCanonical_build _ _ _
  listed c hc := by
    by_contra hge
    exact hc ((channelAt_attachedUnit ..).trans (if_neg hge))
  channels c := by
    rw [channelAt_attachedUnit]
    split
    · exact (existingChannelInv_attached C u us.tick _ us.tick c).inv
    · exact channelInv_channelReset _
  memories c hc := by
    rw [attachedUnit_channelCount] at hc
    rw [channelAt_attachedUnit, if_pos hc]
    exact (existingChannelInv_attached C u us.tick _ us.tick c).memory
  stamps c stamp hs := by
    rw [channelAt_attachedUnit] at hs
    split at hs <;> cases hs
  msgLength := h.msgLength

/-! ## Changes of one channel -/

/-- An existing channel may be replaced by any that keeps its own clauses (R221: the other channels are unchanged). -/
theorem unitInv_setChannel (h : UnitInv C u us) {c k : Nat} {ch : Channel} (r : Result) (hc : c < us.channelCount)
    (hch : ExistingChannelInv us.cmdMemWsize k ch) (hk : us.tick ≤ k) :
    UnitInv C u { setChannel us c ch with result := r, tick := k } :=
  have hother {d : Nat} (hd : d ≠ c) := channelAt_setChannel_other us ch hd
  have hsame := channelAt_setChannel_same us c ch
  { h with
    canonical := setChannel_canonical c ch h.canonical
    listed := fun d hd => by
      by_cases hdc : d = c
      · exact hdc ▸ hc
      · exact h.listed d fun hreset => hd ((hother hdc).trans hreset)
    channels := fun d => by
      show ChannelInv us.cmdMemWsize (channelAt (setChannel us c ch) d)
      by_cases hdc : d = c
      · rw [hdc, hsame]
        exact hch.inv
      · rw [hother hdc]
        exact h.channels d
    memories := fun d hd => by
      show ∀ i, ((channelAt (setChannel us c ch) d).cmdMem.read i).isSome = true ↔ i < us.cmdMemWsize
      by_cases hdc : d = c
      · rw [hdc, hsame]
        exact hch.memory
      · rw [hother hdc]
        exact h.memories d hd
    stamps := fun d stamp (hs : (channelAt (setChannel us c ch) d).respRef = some stamp) => by
      show stamp < k
      by_cases hdc : d = c
      · rw [hdc, hsame] at hs
        exact hch.stamp stamp hs
      · rw [hother hdc] at hs
        exact (h.stamps d stamp hs).trans_le hk }

/-- R215: an engine step of any channel; only a channel that exists has one that is enabled. -/
theorem unitInv_engineStep (h : UnitInv C u us) (c : Nat) : UnitInv C u (engineStep C u c us) := by
  cases he : engineEnabled (channelAt us c) with
  | false => rwa [engineStep_disabled he]
  | true =>
    have hrun : (channelAt us c).state = .running := (engineEnabled_iff.mp he).1
    have hc : c < us.channelCount := h.listed c fun hreset => by simp [hreset] at hrun
    rw [engineStep_enabled he]
    exact unitInv_setChannel h us.result hc ((h.existing hc).completedOp he _) (Nat.le_succ _)

theorem unitInv_engineRun (c k : Nat) (h : UnitInv C u us) : UnitInv C u (engineRun C u c k us) := by
  induction k generalizing us with
  | zero => exact h
  | succ k ih => exact ih (unitInv_engineStep h c)

/-- R205 on a Running channel: engine steps, then the completion or the time-out of that channel. -/
theorem unitInv_pollRunning (h : UnitInv C u us) {c n : Nat} {doneRef : Bool} (hc : c < us.channelCount)
    (hrun : (channelAt us c).state = .running) (hn : (channelAt us c).numOps = n) :
    UnitInv C u (pollRunning C u c n doneRef us) := by
  obtain ⟨k, pieces, -, hbase, -, -, hch, hend⟩ := pollRunning_spec C u c n doneRef us hrun hn
  have hpolled : UnitInv C u (engineRun C u c k us) := unitInv_engineRun c k h
  have hcount : c < (engineRun C u c k us).channelCount := hbase.controller.channelCount ▸ hc
  have hold := hpolled.existing hcount
  rcases hend with ⟨-, -, hcompleted⟩ | ⟨-, count, ref, htimedOut⟩
  · rw [hcompleted]
    exact unitInv_setChannel hpolled _ hcount (hold.completed (Nat.lt_succ_self _)) (Nat.le_succ _)
  · rw [htimedOut]
    have hstill : (channelAt (engineRun C u c k us) c).state = .running := by rw [hch]; exact hrun
    exact unitInv_setChannel hpolled _ hcount (hold.timedOut hstill) (Nat.le_succ _)

/-! ## Every change an instruction can make -/

theorem UnitEffect.keeps_unitInv {i : Instr} {us' : UnitState} (he : UnitEffect C u us i us') (h : UnitInv C u us) :
    UnitInv C u us' := by
  have hlater : us.tick ≤ us.tick + 1 := Nat.le_succ _
  cases he with
  | answer _ r => exact unitInv_finish h r
  | message _ _ _ hm => exact unitInv_message h hm
  | attach hu _ => exact unitInv_finish (unitInv_attached h hu) _
  | detach _ => exact unitInv_finish (unitInv_detached h) _
  | init maxPolls ha => exact unitInv_finish (unitInv_init h ha maxPolls) _
  | send c n words size _ hc hn hz hs _ =>
    exact unitInv_setChannel h _ hc ((h.existing hc).queued hn hz hs) hlater
  | start c _ hc hq => exact unitInv_setChannel h _ hc ((h.existing hc).started hq) hlater
  | stop c _ hc _ => exact unitInv_setChannel h _ hc ((h.existing hc).aborted _) hlater
  | stopNothing c _ hc _ => exact unitInv_setChannel h _ hc ((h.existing hc).mono hlater) hlater
  | poll c n _ hc _ hrun hn => exact unitInv_pollRunning h hc hrun hn

end

end Sys2Proof.Machine
end

section
/-! PROOFS. The four statements on the state (10_state.md R35, R40, R41): the state at process start, what every step
leaves of the inbox and of the hook, and the invariant at process start and under every step of every agent. -/

namespace Sys2Proof.Machine

/-! ## The state at process start -/

/-- Settles O8: an unlisted unit is `UnitState.reset`. -/
theorem resetState : Obligations.ResetState := by
  refine ⟨rfl, fun u => ?_⟩
  rw [unitAt_reset]
  exact ⟨rfl, rfl, rfl, rfl, rfl, rfl, rfl⟩

/-- Settles O9: no unit is listed, and an unlisted one was never attached. -/
theorem invAtReset : Obligations.InvAtReset where
  canonical := rfl
  simPresent := rfl
  units u := by
    rw [unitAt_reset]
    exact unitInv_unitReset Config.config u

/-! ## The inbox and the hook -/

/-- No event adds another or changes whether a hook is installed. -/
theorem event_inbox_sim {e : Event} {s t : State} (h : runEvent e s = .next t) :
    t.inbox = s.inbox ∧ t.simPresent = s.simPresent := by
  rcases event_cases h with ⟨i, hi⟩ | ⟨u, c, -, rfl⟩ | ⟨a, b, m, -, ha, hb⟩ | ⟨u, r, rfl⟩
  · exact exec_inbox_sim hi
  · exact ⟨rfl, rfl⟩
  · obtain ⟨hinbox, hsim⟩ := exec_inbox_sim ha
    obtain ⟨hinbox', hsim'⟩ := exec_inbox_sim hb
    exact ⟨hinbox'.trans hinbox, hsim'.trans hsim⟩
  · exact ⟨rfl, rfl⟩

/-- Settles O7, by the two cases of a step: no event to come, or the oldest one taken. -/
theorem stepTakesOldestEvent : Obligations.StepTakesOldestEvent := by
  intro s t h
  rcases step_cases h with ⟨hempty, rfl⟩ | ⟨e, rest, hinbox, hevent⟩
  · simp [hempty]
  · rw [hinbox]
    exact event_inbox_sim hevent

/-! ## The invariant under every step -/

/-- One unit may be replaced by any that keeps its own invariant. -/
theorem State.Inv.setUnit {s : State} (h : s.Inv) {u : Int} {us : UnitState} (hu : UnitInv Config.config u us) :
    (Machine.setUnit s u us).Inv where
  canonical := tableCanonical_set _ u us h.canonical
  simPresent := h.simPresent
  units v := by
    by_cases hv : v = u
    · rw [hv, unitAt_setUnit_same]
      exact hu
    · rw [unitAt_setUnit_other s us hv]
      exact h.units v

/-- The events to come are no part of the invariant. -/
theorem State.Inv.of_inbox {s : State} (h : s.Inv) (es : List Event) : State.Inv { s with inbox := es } :=
  { canonical := h.canonical, simPresent := h.simPresent, units := h.units }

theorem exec_keeps_inv {i : Instr} {s t : State} (h : s.Inv) (hi : exec i s = .next t) : t.Inv := by
  rw [exec_onlyUnit hi]
  exact h.setUnit ((exec_effect hi).keeps_unitInv (h.units i.unit))

theorem event_keeps_inv {e : Event} {s t : State} (h : s.Inv) (he : runEvent e s = .next t) : t.Inv := by
  rcases event_cases he with ⟨i, hi⟩ | ⟨u, c, -, rfl⟩ | ⟨a, b, m, -, ha, hb⟩ | ⟨u, r, rfl⟩
  · exact exec_keeps_inv h hi
  · exact h.setUnit (unitInv_engineStep (h.units u) c)
  · exact exec_keeps_inv (exec_keeps_inv h ha) hb
  · exact h.setUnit (unitInv_finish (h.units u) r)

/-- Settles O10: a step without an event changes nothing, and every event keeps the invariant. -/
theorem invKept : Obligations.InvKept := by
  intro s t h hstep
  rcases step_cases hstep with ⟨-, rfl⟩ | ⟨e, rest, -, hevent⟩
  · exact h
  · exact event_keeps_inv (h.of_inbox rest) hevent

end Sys2Proof.Machine
end

section
/-! PROOFS. What an instruction may touch of another unit (20_memory.md R74, R75, R78; 44_registry_lifecycle.md R241): it
writes and reads its own alone, so two instructions of different units come in either order, and two overlapping calls on
one unit have no meaning. -/

namespace Sys2Proof.Machine

/-! ## Two overlapping calls -/

/-- Two overlapping calls that decode to instructions of one unit are refused. -/
theorem runOverlap_same_unit {f g : Frame} {a b : Instr} (ha : decode f = .ok a) (hb : decode g = .ok b)
    (hu : a.unit = b.unit) (s : State) : runOverlap f g s = .refused .unserialised := by
  unfold runOverlap
  rw [ha, hb]
  exact if_pos hu

/-- Settles O51: the step is its oldest event, and that overlap is refused. -/
theorem overlapOnOneUnitRefused : Obligations.OverlapOnOneUnitRefused := by
  intro f g a b rest s hinbox hf hg hu
  calc step s = runOverlap f g { s with inbox := rest } := step_eq_runEvent hinbox
    _ = .refused .unserialised := runOverlap_same_unit hf hg hu _

/-! ## One unit -/

/-- Settles O48: every instruction is a host operation of its own unit, and such an operation changes no other. -/
theorem unitsWriteOnlyOwn : Obligations.UnitsWriteOnlyOwn := by
  intro i s t h
  obtain ⟨refusal, effect, hexec⟩ := exec_perform i
  rw [hexec] at h
  exact perform_onlyUnit h

/-- Settles O49: refusal and effect are functions of the instruction's own unit and of the hook. -/
theorem unitsReadOnlyOwn : Obligations.UnitsReadOnlyOwn := by
  intro i s s' hunit hsim
  obtain ⟨refusal, effect, hexec⟩ := exec_perform i
  have hexec' : exec i s' = perform s' i.unit (refusal (unitAt s i.unit)) (effect s.simPresent) := by
    rw [hexec, hunit, hsim]
  rw [hexec, hexec']
  constructor
  · intro t h
    obtain ⟨hnone, rfl⟩ := perform_next_iff.mp h
    refine ⟨_, perform_next_iff.mpr ⟨hnone, rfl⟩, ?_⟩
    rw [unitAt_setUnit_same, unitAt_setUnit_same, hunit]
  · intro r h
    exact perform_refused_iff.mpr (perform_refused_iff.mp h)

/-! ## Two units -/

/-- Settles O50, from O48 and O49: `b` finds its unit before `a` as it stands after `a`, and `a` finds its own after `b` as
it stands before `b`. -/
theorem differentUnitsCommute : Obligations.DifferentUnitsCommute := by
  intro a b s t r hne ha hb
  have hst := unitsWriteOnlyOwn a s t ha
  have htr := unitsWriteOnlyOwn b t r hb
  obtain ⟨t', hb', hunitB⟩ := (unitsReadOnlyOwn b t s (hst.others _ hne.symm).symm hst.simPresent.symm).1 r hb
  have hst' := unitsWriteOnlyOwn b s t' hb'
  obtain ⟨r', ha', hunitA⟩ := (unitsReadOnlyOwn a s t' (hst'.others _ hne) hst'.simPresent).1 t ha
  have htr' := unitsWriteOnlyOwn a t' r' ha'
  refine ⟨t', r', hb', ha', ?_, ?_, fun u => ?_⟩
  · rw [htr'.simPresent, hst'.simPresent, htr.simPresent, hst.simPresent]
  · rw [htr'.inbox, hst'.inbox, htr.inbox, hst.inbox]
  · by_cases hua : u = a.unit
    · subst hua
      rw [hunitA, htr.others _ hne]
    · by_cases hub : u = b.unit
      · subst hub
        rw [htr'.others _ hua, hunitB]
      · rw [htr'.others u hua, hst'.others u hub, htr.others u hub, hst.others u hua]

end Sys2Proof.Machine
end

section
/-! PROOFS. Who changes a command memory (20_memory.md R63, R81; 44_registry_lifecycle.md R230): each kind of change an
instruction can make of its unit (Laws/Exec.lean, `UnitEffect`) keeps all of them, but for the send and the attach. -/

namespace Sys2Proof.Machine

/-- Every channel's command memory is unchanged (R63). -/
def SameCommandMemories (a b : UnitState) : Prop := ∀ c, (channelAt b c).cmdMem = (channelAt a c).cmdMem

section
variable {C : Configuration} {u : Int} {us us' : UnitState}

/-! ## The kinds of change that keep the command memories -/

theorem MessageEffect.sameCommandMemories (h : MessageEffect C us us') : SameCommandMemories us us' := by
  rw [h.shape]
  exact fun _ => rfl

/-- One channel replaced by one with the same command memory: started, aborted, or as it was. -/
theorem sameCommandMemories_setChannel {c : Nat} {ch : Channel} (h : ch.cmdMem = (channelAt us c).cmdMem) :
    SameCommandMemories us (setChannel us c ch) := by
  intro d
  by_cases hd : d = c
  · rw [hd, channelAt_setChannel_same, h]
  · rw [channelAt_setChannel_other us ch hd]

theorem SameCommandMemories.finish (h : SameCommandMemories us us') (r : Result) :
    SameCommandMemories us (us'.finish r) := h

theorem SameCommandMemories.trans {us'' : UnitState} (h : SameCommandMemories us us')
    (h' : SameCommandMemories us' us'') : SameCommandMemories us us'' :=
  fun c => (h' c).trans (h c)

/-- R215: an engine reads the command memory and writes the response memory. -/
theorem sameCommandMemories_engineStep (C : Configuration) (u : Int) (c : Nat) (us : UnitState) :
    SameCommandMemories us (engineStep C u c us) := by
  cases he : engineEnabled (channelAt us c) with
  | false =>
    rw [engineStep_disabled he]
    exact fun _ => rfl
  | true =>
    rw [engineStep_enabled he]
    exact sameCommandMemories_setChannel (ch := completedOp _ _) rfl

theorem sameCommandMemories_engineRun (C : Configuration) (u : Int) (c k : Nat) (us : UnitState) :
    SameCommandMemories us (engineRun C u c k us) := by
  induction k generalizing us with
  | zero => exact fun _ => rfl
  | succ k ih => exact (sameCommandMemories_engineStep C u c us).trans (ih _)

/-- R205 on a Running channel: engine steps, then the completion or the time-out of that channel. -/
theorem sameCommandMemories_pollRunning {c n : Nat} {doneRef : Bool} (hrun : (channelAt us c).state = .running)
    (hn : (channelAt us c).numOps = n) : SameCommandMemories us (pollRunning C u c n doneRef us) := by
  obtain ⟨k, -, -, -, -, -, -, hend⟩ := pollRunning_spec C u c n doneRef us hrun hn
  have hpolled := sameCommandMemories_engineRun C u c k us
  rcases hend with ⟨-, -, hcompleted⟩ | ⟨-, count, ref, htimedOut⟩
  · rw [hcompleted]
    exact (hpolled.trans (sameCommandMemories_setChannel (completedChannel_cmdMem ..))).finish _
  · rw [htimedOut]
    exact (hpolled.trans (sameCommandMemories_setChannel (timedOutChannel_cmdMem ..))).finish _

/-! ## Every change an instruction can make -/

/-- A change that does not keep every command memory is a send, which touches its own channel alone, or an attach. -/
theorem UnitEffect.commandMemories {i : Instr} (he : UnitEffect C u us i us') :
    SameCommandMemories us us' ∨
      (∃ (c n : Nat) (words : Option (List Word)) (size : Nat),
        i = .fifoOpsSend u c n words size 0 ∧ OnlyChannel c us us') ∨
      i = .fifoAttach u := by
  cases he with
  | answer _ r => exact .inl fun _ => rfl
  | message _ _ _ hm => exact .inl hm.sameCommandMemories
  | attach _ _ => exact .inr (.inr rfl)
  | detach _ => exact .inl fun _ => rfl
  | init _ _ => exact .inl fun _ => rfl
  | send c n words size _ _ _ _ _ _ =>
    exact .inr (.inl ⟨c, n, some words, size, rfl, fun d hd => by
      rw [finish_channelAt, channelAt_setChannel_other us _ hd]⟩)
  | start c _ _ _ => exact .inl ((sameCommandMemories_setChannel (startedChannel_cmdMem _)).finish _)
  | stop c _ _ _ => exact .inl ((sameCommandMemories_setChannel (abortedChannel_cmdMem ..)).finish _)
  | stopNothing c _ _ _ => exact .inl ((sameCommandMemories_setChannel rfl).finish _)
  | poll c n _ _ _ hrun hn => exact .inl (sameCommandMemories_pollRunning hrun hn)

end

/-- Settles O58: a unit with a changed command memory is the instruction's own (O48), and there a change is a send of that
channel or an attach. -/
theorem commandMemoryWriters : Obligations.CommandMemoryWriters := by
  intro i s t u c h hchanged
  have hu : u = i.unit := by
    by_contra hother
    exact hchanged (by rw [(unitsWriteOnlyOwn i s t h).others u hother])
  subst hu
  rcases (exec_effect h).commandMemories with hsame | ⟨d, n, words, size, hi, honly⟩ | hi
  · exact absurd (hsame c) hchanged
  · obtain rfl : c = d := by
      by_contra hcd
      exact hchanged (by rw [honly c hcd])
    exact .inl ⟨n, words, size, hi⟩
  · exact .inr hi

end Sys2Proof.Machine
end

section
/-! PROOFS. The encoding (30_encoding.md R91, R93, R100, R107): the header word in its bits, every well-formed
instruction read back from its frame, and every frame that decodes rebuilt from its instruction. -/

namespace Sys2Proof

/-! ## The header word -/

/-- The five slices of the reference layout cover a word: shifted to their places, they add up to it (R91). -/
theorem toNat_eq_sum_headerSlices (w : Word) :
    w.toNat = (w.extractLsb' 26 6).toNat * 2 ^ 26 + (w.extractLsb' 19 7).toNat * 2 ^ 19 +
      (w.extractLsb' 14 5).toNat * 2 ^ 14 + (w.extractLsb' 7 7).toNat * 2 ^ 7 + (w.extractLsb' 0 7).toNat := by
  have hw : w.toNat < 4294967296 := w.isLt
  simp only [BitVec.extractLsb'_toNat, Nat.shiftRight_eq_div_pow]
  omega

/-- Settles O4: the fields read back are the slices of the word, and a word is the sum of its slices. -/
theorem headerLayoutBits : Obligations.HeaderLayoutBits := by
  intro opcode h
  have hfields := headerFields_headerWord referenceLayout_valid opcode h
  have hopcode : (headerWord referenceLayout opcode h).extractLsb' 26 6 = opcode :=
    headerOpcode_headerWord referenceLayout_valid opcode h
  have hdstblk : (headerWord referenceLayout opcode h).extractLsb' 19 7 = h.dstblk :=
    congrArg HeaderFields.dstblk hfields
  have hacctype : (headerWord referenceLayout opcode h).extractLsb' 14 5 = h.acctype :=
    congrArg HeaderFields.acctype hfields
  have hdatalen : (headerWord referenceLayout opcode h).extractLsb' 7 7 = h.datalen :=
    congrArg HeaderFields.datalen hfields
  have hrsvd : (headerWord referenceLayout opcode h).extractLsb' 0 7 = h.rsvd := congrArg HeaderFields.rsvd hfields
  have hsum := toNat_eq_sum_headerSlices (headerWord referenceLayout opcode h)
  rw [hopcode, hdstblk, hacctype, hdatalen, hrsvd] at hsum
  refine ⟨⟨hopcode, hdstblk, hacctype, hdatalen, hrsvd, hsum⟩, fun C => ?_⟩
  have hvalid := C.headerLayout_valid
  exact ⟨headerOpcode_headerWord hvalid opcode h, headerFields_headerWord hvalid opcode h⟩

/-- A head with a message opcode is the header word of that opcode and of its own fields (R91, R100). -/
theorem headerWord_of_msgOpcodeOf {w : Word} {op : MsgOpcode}
    (h : msgOpcodeOf referenceNumber (headerOpcode referenceLayout w) = some op) :
    headerWord referenceLayout (referenceNumber op) (headerFields referenceLayout w) = w := by
  rw [number_of_msgOpcodeOf h, headerWord_of_fields]

/-! ## Message frames (R93) -/

theorem addressOnly_eq_ok {row : Word → Instr} {body : List Word} {i : Instr} (h : addressOnly row body = .ok i) :
    ∃ address, body = [address] ∧ i = row address := by
  unfold addressOnly at h
  split at h
  next address => cases h; exact ⟨address, rfl, rfl⟩
  next => cases h

theorem addressAndData_eq_ok {n : Nat} {row : Word → List Word → Instr} {body : List Word} {i : Instr}
    (h : addressAndData n row body = .ok i) :
    ∃ address data, body = address :: data ∧ data.length = n ∧ i = row address data := by
  unfold addressAndData at h
  split at h
  next => cases h
  next address data =>
    split at h
    next hlen => cases h; exact ⟨address, data, rfl, hlen, rfl⟩
    next => cases h

theorem headerOnly_eq_ok {row : Instr} {body : List Word} {i : Instr} (h : headerOnly row body = .ok i) :
    body = [] ∧ i = row := by
  unfold headerOnly at h
  split at h
  next => cases h; exact ⟨rfl, rfl⟩
  next => cases h

/-- A message frame that decodes is the frame of its instruction: its shape fixes its length. -/
theorem encode_of_decodeMessage {op : MsgOpcode} {h : HeaderFields} {host : Int} {body : List Word} {i : Instr}
    (hi : decodeMessage op h host body = .ok i) : encode i = messageFrame op host h body ∧ i.wellFormed = true := by
  cases op with
  | readMemoryCmd | readRegisterCmd =>
    obtain ⟨address, rfl, rfl⟩ := addressOnly_eq_ok hi
    exact ⟨rfl, rfl⟩
  | readMemoryAck | readRegisterAck =>
    cases hi
    exact ⟨rfl, rfl⟩
  | writeMemoryCmd | writeRegisterCmd =>
    obtain ⟨address, data, rfl, hlen, rfl⟩ := addressAndData_eq_ok hi
    exact ⟨rfl, beq_iff_eq.mpr hlen⟩
  | writeMemoryAck | writeRegisterAck =>
    obtain ⟨rfl, rfl⟩ := headerOnly_eq_ok hi
    exact ⟨rfl, rfl⟩

/-! ## Operands of a call

An operand that a call's decoder reads is the scalar of the value it passes on, and every such scalar is read. -/

section
variable {n : Int} {i : Instr}

theorem readWord_bind_eq_ok_iff {f : Word → Except DecodeError Instr} :
    (readWord n >>= f) = .ok i ↔ ∃ w, n = wordScalar w ∧ f w = .ok i := by
  constructor
  · intro h
    obtain ⟨w, hw, hf⟩ := bind_eq_ok h
    exact ⟨w, wordScalar_of_readWord hw, hf⟩
  · rintro ⟨w, rfl, hf⟩
    rwa [readWord_wordScalar]

theorem readCount_bind_eq_ok_iff {f : Nat → Except DecodeError Instr} :
    (readCount n >>= f) = .ok i ↔ ∃ k : Nat, n = k ∧ f k = .ok i := by
  constructor
  · intro h
    obtain ⟨k, hk, hf⟩ := bind_eq_ok h
    exact ⟨k, natCast_of_readCount hk, hf⟩
  · rintro ⟨k, rfl, hf⟩
    rwa [readCount_natCast]

theorem readBool_bind_eq_ok_iff {f : Bool → Except DecodeError Instr} :
    (readBool n >>= f) = .ok i ↔ ∃ b, n = boolScalar b ∧ f b = .ok i := by
  constructor
  · intro h
    obtain ⟨b, hb, hf⟩ := bind_eq_ok h
    exact ⟨b, boolScalar_of_readBool hb, hf⟩
  · rintro ⟨b, rfl, hf⟩
    rwa [readBool_boolScalar]

end

/-! ## Call frames (R107): what each operation's decoder accepts is the frame of its instruction -/

section
variable {xs : List Int} {ws : Option (List Word)} {i : Instr}

theorem encode_of_decodeEncodeCommand (h : decodeEncodeCommand xs ws = .ok i) :
    encode i = callFrame 0 xs ws ∧ i.wellFormed = true := by
  unfold decodeEncodeCommand at h
  split at h
  next host opcode acctype dstblk address n =>
    simp only [readCount_bind_eq_ok_iff, readWord_bind_eq_ok_iff, Except.ok.injEq] at h
    obtain ⟨opcode, rfl, acctype, rfl, dstblk, rfl, address, rfl, n, rfl, rfl⟩ := h
    exact ⟨rfl, rfl⟩
  next => cases h

theorem encode_of_decodeDecodeResponse (h : decodeDecodeResponse xs ws = .ok i) :
    encode i = callFrame 1 xs ws ∧ i.wellFormed = true := by
  unfold decodeDecodeResponse at h
  split at h
  next host n msg =>
    simp only [readCount_bind_eq_ok_iff, Except.ok.injEq] at h
    obtain ⟨n, rfl, rfl⟩ := h
    exact ⟨rfl, rfl⟩
  next => cases h

theorem encode_of_decodeSelectRoute (h : decodeSelectRoute xs ws = .ok i) :
    encode i = callFrame 2 xs ws ∧ i.wellFormed = true := by
  unfold decodeSelectRoute at h
  split at h
  next unit ext address =>
    simp only [readWord_bind_eq_ok_iff, Except.ok.injEq] at h
    obtain ⟨ext, rfl, address, rfl, rfl⟩ := h
    exact ⟨rfl, rfl⟩
  next => cases h

theorem encode_of_decodeMemRead (h : decodeMemRead xs ws = .ok i) :
    encode i = callFrame 3 xs ws ∧ i.wellFormed = true := by
  unfold decodeMemRead at h
  split at h
  next unit ext address n buf =>
    simp only [readWord_bind_eq_ok_iff, readCount_bind_eq_ok_iff, Except.ok.injEq] at h
    obtain ⟨ext, rfl, address, rfl, n, rfl, rfl⟩ := h
    exact ⟨rfl, rfl⟩
  next => cases h

theorem encode_of_decodeMemWrite (h : decodeMemWrite xs ws = .ok i) :
    encode i = callFrame 4 xs ws ∧ i.wellFormed = true := by
  unfold decodeMemWrite at h
  split at h
  next unit ext address n words =>
    simp only [readWord_bind_eq_ok_iff, readCount_bind_eq_ok_iff, Except.ok.injEq] at h
    obtain ⟨ext, rfl, address, rfl, n, rfl, rfl⟩ := h
    exact ⟨rfl, rfl⟩
  next => cases h

/-- Ordinals 5, 6 and 7 differ in their row alone. -/
theorem decodeUnitOnly_eq_ok {row : Int → Instr} (h : decodeUnitOnly row xs ws = .ok i) :
    ∃ unit, xs = [unit] ∧ ws = none ∧ i = row unit := by
  unfold decodeUnitOnly at h
  split at h
  next unit => cases h; exact ⟨unit, rfl, rfl, rfl⟩
  next => cases h

theorem encode_of_decodeFifoInit (h : decodeFifoInit xs ws = .ok i) :
    encode i = callFrame 8 xs ws ∧ i.wellFormed = true := by
  unfold decodeFifoInit at h
  split at h
  next unit maxPolls flags =>
    simp only [readWord_bind_eq_ok_iff, Except.ok.injEq] at h
    obtain ⟨maxPolls, rfl, flags, rfl, rfl⟩ := h
    exact ⟨rfl, rfl⟩
  next => cases h

theorem encode_of_decodeFifoOpsSend (h : decodeFifoOpsSend xs ws = .ok i) :
    encode i = callFrame 9 xs ws ∧ i.wellFormed = true := by
  unfold decodeFifoOpsSend at h
  split at h
  next unit channel numOps size flags =>
    simp only [readCount_bind_eq_ok_iff, readWord_bind_eq_ok_iff, Except.ok.injEq] at h
    obtain ⟨numOps, rfl, size, rfl, flags, rfl, rfl⟩ := h
    exact ⟨rfl, rfl⟩
  next => cases h

theorem encode_of_decodeFifoSetStart (h : decodeFifoSetStart xs ws = .ok i) :
    encode i = callFrame 10 xs ws ∧ i.wellFormed = true := by
  unfold decodeFifoSetStart at h
  split at h
  next unit channel start =>
    simp only [readBool_bind_eq_ok_iff, Except.ok.injEq] at h
    obtain ⟨start, rfl, rfl⟩ := h
    exact ⟨rfl, rfl⟩
  next => cases h

theorem encode_of_decodeFifoStatusGet (h : decodeFifoStatusGet xs ws = .ok i) :
    encode i = callFrame 11 xs ws ∧ i.wellFormed = true := by
  unfold decodeFifoStatusGet at h
  split at h
  next unit channel numOps flags doneRef =>
    simp only [readCount_bind_eq_ok_iff, readWord_bind_eq_ok_iff, readBool_bind_eq_ok_iff, Except.ok.injEq] at h
    obtain ⟨numOps, rfl, flags, rfl, doneRef, rfl, rfl⟩ := h
    exact ⟨rfl, rfl⟩
  next => cases h

/-- A call frame that decodes is the frame of its instruction; an ordinal outside R107 does not decode. -/
theorem encode_of_decodeCall {n : Nat} (h : decodeCall n xs ws = .ok i) :
    encode i = callFrame n xs ws ∧ i.wellFormed = true := by
  match n with
  | 0 => exact encode_of_decodeEncodeCommand h
  | 1 => exact encode_of_decodeDecodeResponse h
  | 2 => exact encode_of_decodeSelectRoute h
  | 3 => exact encode_of_decodeMemRead h
  | 4 => exact encode_of_decodeMemWrite h
  | 5 | 6 | 7 =>
    obtain ⟨unit, rfl, rfl, rfl⟩ := decodeUnitOnly_eq_ok h
    exact ⟨rfl, rfl⟩
  | 8 => exact encode_of_decodeFifoInit h
  | 9 => exact encode_of_decodeFifoOpsSend h
  | 10 => exact encode_of_decodeFifoSetStart h
  | 11 => exact encode_of_decodeFifoStatusGet h
  | n + 12 => cases h

end

/-! ## The round trips -/

/-- A frame that decodes is a message frame, with every bit of its head in the header, or a call frame. -/
theorem decode_cases {f : Frame} {i : Instr} (h : decode f = .ok i) :
    (∃ op fields host body, f = messageFrame op host fields body ∧ decodeMessage op fields host body = .ok i) ∨
      ∃ n xs ws, f = callFrame n xs ws ∧ decodeCall n xs ws = .ok i := by
  obtain ⟨head, xs, ws⟩ := f
  simp only [decode] at h
  split at h
  next op hop =>
    split at h
    next host body =>
      refine .inl ⟨op, headerFields referenceLayout head, host, body, ?_, h⟩
      rw [messageFrame, headerWord_of_msgOpcodeOf hop]
    next => cases h
  next =>
    refine .inr ⟨head.toNat, xs, ws, ?_, h⟩
    rw [callFrame, BitVec.ofNat_toNat, BitVec.setWidth_eq]

/-- Settles O2, by the two kinds of frame. -/
theorem encodeDecode : Obligations.EncodeDecode := by
  intro f i h
  rcases decode_cases h with ⟨op, fields, host, body, rfl, hi⟩ | ⟨n, xs, ws, rfl, hi⟩
  · exact encode_of_decodeMessage hi
  · exact encode_of_decodeCall hi

/-- The decoder on the frame of a write command with as many data words as its header announces. -/
theorem addressAndData_cons {n : Nat} {row : Word → List Word → Instr} {address : Word} {data : List Word}
    (h : data.length = n) : addressAndData n row (address :: data) = .ok (row address data) := if_pos h

/-- A value that was read goes on to the next operand. -/
@[simp] theorem ok_bind {α β : Type} (a : α) (f : α → Except DecodeError β) : (Except.ok a >>= f) = f a := rfl

/-- Settles O1: a message frame is read by its shape, a call frame operand by operand. -/
theorem decodeEncode : Obligations.DecodeEncode := by
  intro i hwf
  cases i with
  | readMemoryCmd | readMemoryAck | writeMemoryAck | readRegisterCmd | readRegisterAck | writeRegisterAck =>
    exact decode_messageFrame ..
  | writeMemoryCmd | writeRegisterCmd =>
    exact (decode_messageFrame ..).trans (addressAndData_cons (beq_iff_eq.mp hwf))
  | encodeCommand => simp [encode, decode_callFrame, decodeCall, decodeEncodeCommand]
  | decodeResponse => simp [encode, decode_callFrame, decodeCall, decodeDecodeResponse]
  | selectRoute => simp [encode, decode_callFrame, decodeCall, decodeSelectRoute]
  | memRead => simp [encode, decode_callFrame, decodeCall, decodeMemRead]
  | memWrite => simp [encode, decode_callFrame, decodeCall, decodeMemWrite]
  | fifoAttach | fifoDetach | fifoInfoGet => exact decode_callFrame _ _ _ (by decide)
  | fifoInit => simp [encode, decode_callFrame, decodeCall, decodeFifoInit]
  | fifoOpsSend => simp [encode, decode_callFrame, decodeCall, decodeFifoOpsSend]
  | fifoSetStart => simp [encode, decode_callFrame, decodeCall, decodeFifoSetStart]
  | fifoStatusGet => simp [encode, decode_callFrame, decodeCall, decodeFifoStatusGet]

/-- Settles O3: eight closed words, each decoded by evaluation. -/
theorem tableWordsDecode : Obligations.TableWordsDecode := by
  unfold Obligations.TableWordsDecode
  decide

end Sys2Proof
end

section
/-! PROOFS. `encode_command` and the command messages (40_codec.md R121, R122; 30_encoding.md R92 to R96, R100 to R103): a
call with a meaning within capacity puts one command frame into the message buffer, and every other call is answered or
refused with nothing written. -/

namespace Sys2Proof.Machine

/-! ## A command frame in the message buffer -/

/-- The caller is given `OK` and the frame's length, and the message buffer holds the frame and 0 after it (R120, R121). -/
structure CommandSent (u : Int) (frame : List Word) (s t : State) : Prop where
  unchanged : MessageFrame u s t
  result : (unitAt t u).result = .encoded .ok frame.length
  buffer : ∀ i, msgWord (unitAt t u) i = frame.getD i 0

/-- What an operation that ends with `r` gives its caller. -/
theorem result_setUnit_finish (s : State) (u : Int) (us : UnitState) (r : Result) :
    (unitAt (setUnit s u (us.finish r)) u).result = r := by rw [unitAt_setUnit_same, finish_result]

theorem isCommand_iff {op : MsgOpcode} : op.isCommand = true ↔ op.isReadCmd = true ∨ op.isWriteCmd = true := by
  simp [MsgOpcode.isCommand]

section
variable {C : Configuration} {u : Int} {op : MsgOpcode} {acctype dstblk n : Nat} {address : Word} {words : List Word}
  {s t : State}

/-- R121 lines 5 to 16. -/
theorem buildCommand_sends (hacctype : acctype < 32) (hdstblk : dstblk < 128) (hn : n ≤ C.respCapacity)
    (hwords : op.isWriteCmd = true → n ≤ words.length) :
    ∃ t, buildCommand C u op acctype dstblk address n words s = .next t ∧
      CommandSent u (commandFrame C op acctype dstblk address n words) s t := by
  refine ⟨_, perform_next_iff.mpr ⟨buildRefusal_none_iff.mpr ⟨hacctype, hdstblk, fun _ => hwords⟩, rfl⟩, ?_⟩
  rw [buildReturn_within hn]
  exact
    { unchanged := messageFrame_setUnit ..
      result := result_setUnit_finish ..
      buffer := fun i => by rw [unitAt_setUnit_same, finish_msgWord, msgWord_msg, msgWithCommand_getD] }

/-- R121 line 3. -/
theorem buildCommand_overCapacity (hacctype : acctype < 32) (hdstblk : dstblk < 128) (hn : C.respCapacity < n) :
    ∃ t nCmd, buildCommand C u op acctype dstblk address n words s = .next t ∧ AnswerFrame u s t ∧
      (unitAt t u).result = .encoded .param nCmd := by
  have haccepted : buildRefusal C op acctype dstblk n words = none :=
    buildRefusal_none_iff.mpr ⟨hacctype, hdstblk, fun h => by omega⟩
  refine ⟨_, C.freeNat u (unitAt s u).tick 0, perform_next_iff.mpr ⟨haccepted, rfl⟩, ?_⟩
  rw [buildReturn_over hn]
  exact ⟨answerFrame_finish .., result_setUnit_finish ..⟩

/-- A command that is answered `OK` had fields that fit, a count within capacity and, for a write, enough words. -/
theorem fits_of_buildCommand_ok {nCmd : Nat} (h : buildCommand C u op acctype dstblk address n words s = .next t)
    (hok : (unitAt t u).result = .encoded .ok nCmd) :
    acctype < 32 ∧ dstblk < 128 ∧ n ≤ C.respCapacity ∧ (op.isWriteCmd = true → n ≤ words.length) := by
  obtain ⟨haccepted, rfl⟩ := perform_next_iff.mp h
  obtain ⟨hacctype, hdstblk, hwords⟩ := buildRefusal_none_iff.mp haccepted
  have hn : n ≤ C.respCapacity := by
    by_contra hover
    rw [unitAt_setUnit_same, buildReturn_over (by omega), finish_result] at hok
    cases hok
  exact ⟨hacctype, hdstblk, hn, hwords hn⟩

/-- R121 line 2. -/
theorem buildCommand_fieldOverflow (h : 32 ≤ acctype ∨ 128 ≤ dstblk) :
    buildCommand C u op acctype dstblk address n words s = .refused .fieldOverflow :=
  perform_refused_iff.mpr (if_pos h)

/-- R121 line 4. -/
theorem buildCommand_shortWords (hacctype : acctype < 32) (hdstblk : dstblk < 128) (hn : n ≤ C.respCapacity)
    (hwrite : op.isWriteCmd = true) (hwords : words.length < n) :
    buildCommand C u op acctype dstblk address n words s = .refused .shortWords := by
  have hfit : ¬(32 ≤ acctype ∨ 128 ≤ dstblk) := by omega
  refine perform_refused_iff.mpr ?_
  simp [buildRefusal, hfit, hwrite, hwords, overCapacity_false_iff.mpr hn]

end

/-! ## The calls of `encode_command` -/

section
variable {host : Int} {op : MsgOpcode} {opcode acctype dstblk n : Nat} {address : Word} {words : Option (List Word)}
  {s : State}

theorem exec_encodeCommand_number (h : op.isCommand = true) :
    exec (.encodeCommand host (Config.config.opcodeNumber op).toNat acctype dstblk address n words) s =
      buildCommand Config.config host op acctype dstblk address n (words.getD []) s := encodeCommand_command h

/-- R121 lines 5 to 16: a call with a meaning, within capacity. -/
theorem exec_encodeCommand_sends (hop : op.isCommand = true) (hacctype : acctype < 32) (hdstblk : dstblk < 128)
    (hn : n ≤ Config.config.respCapacity) (hwords : op.isWriteCmd = true → n ≤ (words.getD []).length) :
    ∃ t, exec (.encodeCommand host (Config.config.opcodeNumber op).toNat acctype dstblk address n words) s = .next t ∧
      CommandSent host (commandFrame Config.config op acctype dstblk address n (words.getD [])) s t := by
  rw [exec_encodeCommand_number hop]
  exact buildCommand_sends hacctype hdstblk hn hwords

/-- An opcode of more than six bits (U2; log 22). -/
theorem exec_encodeCommand_wideOpcode (h : 64 ≤ opcode) :
    exec (.encodeCommand host opcode acctype dstblk address n words) s = .refused .fieldOverflow := if_pos h

/-- R121 line 1. -/
theorem exec_encodeCommand_unknownOpcode (hopcode : opcode < 64)
    (h : ∀ op : MsgOpcode, op.isCommand = true → (Config.config.opcodeNumber op).toNat ≠ opcode) :
    exec (.encodeCommand host opcode acctype dstblk address n words) s = .refused .unknownCommandOpcode := by
  show encodeCommand Config.config host opcode acctype dstblk address n (presentWords words) s = _
  unfold encodeCommand
  rw [if_neg (by omega), commandOf_eq_none hopcode h]

end

/-- Settles O11: the buffer holds the command frame, whose words and length are known. -/
theorem encodeCommandBuilds : Obligations.EncodeCommandBuilds := by
  intro host op acctype dstblk address n words s hop hacctype hdstblk hn hwords
  obtain ⟨t, ht, hsent⟩ := exec_encodeCommand_sends (isCommand_iff.mpr hop) hacctype hdstblk hn hwords
  have hlength := commandFrame_length (C := Config.config) (acctype := acctype) (dstblk := dstblk)
    (address := address) hwords
  refine ⟨t, ht, hsent.unchanged, ?_, ?_, ?_, fun hwrite i hi => ?_, fun i hi => ?_⟩
  · rw [hsent.result, hlength]
  · rw [hsent.buffer, commandFrame_getD, commandHeader]
  · rw [hsent.buffer, commandFrame_getD]
  · rw [hsent.buffer, Nat.add_comm, commandFrame_getD]
    exact if_pos ⟨hwrite, hi⟩
  · rw [hsent.buffer]
    exact List.getD_eq_default _ _ (by rw [hlength]; exact hi)

/-- Settles O12. -/
theorem encodeCommandOverCapacity : Obligations.EncodeCommandOverCapacity := by
  intro host op acctype dstblk address n words s hop hacctype hdstblk hn
  rw [exec_encodeCommand_number (isCommand_iff.mpr hop)]
  exact buildCommand_overCapacity hacctype hdstblk hn

/-- Settles O13: one refusal for each of R121 lines 1, 2 and 4, and one for U2. -/
theorem encodeCommandRefusals : Obligations.EncodeCommandRefusals := by
  intro host opcode acctype dstblk address n words s
  refine ⟨exec_encodeCommand_wideOpcode, fun hopcode hnone => ?_, fun op hop hfields => ?_,
    fun op hwrite hacctype hdstblk hn hshort => ?_⟩
  · exact exec_encodeCommand_unknownOpcode hopcode fun op hop => hnone op (isCommand_iff.mp hop)
  · rw [exec_encodeCommand_number (isCommand_iff.mpr hop)]
    exact buildCommand_fieldOverflow hfields
  · rw [exec_encodeCommand_number (isCommand_of_isWriteCmd hwrite)]
    exact buildCommand_shortWords hacctype hdstblk hn hwrite hshort

/-! ## The command messages -/

section
variable {host : Int} {op : MsgOpcode} {h : HeaderFields} {address : Word} {data : List Word} {s t : State}

/-- The header a command message is rebuilt with: its own fields, without reserved bits (log 7). -/
theorem commandHeader_of_fields (C : Configuration) (op : MsgOpcode) (h : HeaderFields) :
    commandHeader C op h.acctype.toNat h.dstblk.toNat h.wordCount =
      headerWord C.headerLayout (C.opcodeNumber op)
        { h with datalen := BitVec.ofNat 7 (4 * h.wordCount), rsvd := 0 } := by
  simp [commandHeader]

/-- A frame of header, address and all its data words is a command built of them. -/
theorem CommandSent.built (hsent : CommandSent host
      (headerWord Config.config.headerLayout (Config.config.opcodeNumber op) h :: address :: data) s t) :
    CommandBuilt host (Config.config.opcodeNumber op) h address data s t where
  frame := hsent.unchanged
  result := by rw [hsent.result, List.length_cons, List.length_cons, Nat.add_comm 2]
  header := hsent.buffer 0
  addressWord := hsent.buffer 1
  payload i _ := by rw [hsent.buffer, Nat.add_comm]; rfl
  rest i hi := by
    rw [hsent.buffer]
    exact List.getD_eq_default _ _ (by simp only [List.length_cons]; omega)

/-- The command rows of R100: a write message has as many data words as its header says, a read message none (R93). -/
theorem commandMessage_answers (hdata : data.length = if op.isWriteCmd then h.wordCount else 0) :
    ∃ t, commandMessage Config.config op host h address data s = .next t ∧
      if h.wordCount ≤ Config.config.respCapacity then
        CommandBuilt host (Config.config.opcodeNumber op)
          { h with datalen := BitVec.ofNat 7 (4 * h.wordCount), rsvd := 0 } address data s t
      else AnswerFrame host s t ∧ (unitAt t host).result.status? = some .param := by
  have hacctype : h.acctype.toNat < 32 := h.acctype.isLt
  have hdstblk : h.dstblk.toNat < 128 := h.dstblk.isLt
  by_cases hn : h.wordCount ≤ Config.config.respCapacity
  · have hwords : op.isWriteCmd = true → h.wordCount ≤ data.length := fun hwrite => by
      rw [hdata, if_pos hwrite]
    have hbody : (if op.isWriteCmd then data.take h.wordCount else []) = data := by
      cases hwrite : op.isWriteCmd with
      | true => exact List.take_of_length_le (by rw [hdata, hwrite, if_pos rfl])
      | false => exact (List.eq_nil_of_length_eq_zero (by simp [hdata, hwrite])).symm
    obtain ⟨t, ht, hsent⟩ := buildCommand_sends hacctype hdstblk hn hwords
    rw [commandFrame, hbody, commandHeader_of_fields] at hsent
    exact ⟨t, ht, by rw [if_pos hn]; exact hsent.built⟩
  · obtain ⟨t, nCmd, ht, hframe, hresult⟩ := buildCommand_overCapacity hacctype hdstblk (Nat.lt_of_not_le hn)
    exact ⟨t, ht, by rw [if_neg hn]; exact ⟨hframe, by rw [hresult]; rfl⟩⟩

end

/-- Settles O14: the two read rows differ in their opcode alone. -/
theorem readCommandMessages : Obligations.ReadCommandMessages :=
  fun _ _ _ _ => ⟨commandMessage_answers rfl, commandMessage_answers rfl⟩

/-- Settles O15: the two write rows differ in their opcode alone. -/
theorem writeCommandMessages : Obligations.WriteCommandMessages :=
  fun _ _ _ _ _ hdata => ⟨commandMessage_answers hdata, commandMessage_answers hdata⟩

end Sys2Proof.Machine
end

section
/-! PROOFS. `decode_response` and the acknowledge messages (40_codec.md R123, R124; 20_memory.md R66): the opcode and the
data words are read out of the response, and nothing else of it decides anything. -/

namespace Sys2Proof.Machine

section
variable {host : Int} {op : MsgOpcode} {h : HeaderFields} {data response : List Word} {n : Nat} {s : State}

/-! ## The calls of `decode_response` -/

theorem exec_decodeResponse (host : Int) (response : List Word) (n : Nat) (s : State) :
    exec (.decodeResponse host { msg := response, wordCount := n }) s =
      .next (setUnit s host (decodeReturn Config.config host response n (unitAt s host))) := rfl

/-- A response of a header and `n` data words is read back (R123). -/
theorem decodeReturn_responseMsg {C : Configuration} {u : Int} {us : UnitState} (hn : data.length ≤ C.respCapacity) :
    decodeReturn C u (responseMsg C op h data) data.length us = us.finish (.decoded .ok (C.opcodeNumber op) data) := by
  rw [decodeReturn_within hn, responseMsg, responseOpcode_of_response, responseWords_of_response,
    headerOpcode_headerWord C.headerLayout_valid]

@[simp] theorem responseWords_length (us : UnitState) (n : Nat) : (responseWords us n).length = n := by
  simp [responseWords]

theorem responseWords_getD (us : UnitState) {n i : Nat} (h : i < n) :
    (responseWords us n).getD i 0 = msgWord us (1 + i) := by
  simp [responseWords, h]

/-- Settles O17: the words asked for are words of the response as far as it reaches. -/
theorem decodeResponseSlices : Obligations.DecodeResponseSlices := by
  intro host response n s
  rw [exec_decodeResponse]
  constructor
  · intro hn
    rw [decodeReturn_within hn]
    refine ⟨_, _, _, rfl, answerFrame_finish .., result_setUnit_finish .., fun hne => ?_, responseWords_length ..,
      fun i hi hlen => ?_⟩
    · rw [responseOpcode, msgWord_msg, msgWithResponse_getD (List.length_pos_iff.mpr hne)]
    · rw [responseWords_getD _ hi, msgWord_msg, msgWithResponse_getD hlen]
  · intro hn
    rw [decodeReturn_over hn]
    exact ⟨_, _, _, rfl, answerFrame_finish .., result_setUnit_finish ..⟩

/-! ## The acknowledge messages -/

/-- R66, R123: a response within capacity reaches the buffer and is taken apart. -/
theorem responseReturn_within {C : Configuration} {u : Int} {us : UnitState} (hn : data.length ≤ C.respCapacity) :
    responseReturn C op u h data us =
      { us with msg := msgWithResponse C u us.tick (responseMsg C op h data) }.finish
        (.decoded .ok (C.opcodeNumber op) data) := by
  simp only [responseReturn, overCapacity_false_iff.mpr hn, Bool.false_eq_true, if_false]
  exact decodeReturn_responseMsg hn

/-- A response over capacity does not reach the buffer (log 24). -/
theorem responseReturn_over {C : Configuration} {u : Int} {us : UnitState} (hn : C.respCapacity < data.length) :
    responseReturn C op u h data us =
      us.finish (.decoded .param (C.freeOpcode u us.tick) (C.freeWords u us.tick)) := by
  simp only [responseReturn, overCapacity_iff.mpr hn, if_true]
  exact decodeReturn_over hn

theorem responseMessage_within (hn : data.length ≤ Config.config.respCapacity) :
    ∃ t, responseMessage Config.config op host h data s = .next t ∧
      ResponseTaken host (Config.config.opcodeNumber op) h data s t := by
  refine ⟨_, perform_none .., ?_⟩
  rw [responseReturn_within hn]
  exact
    { frame := messageFrame_setUnit ..
      result := result_setUnit_finish ..
      header := by
        rw [unitAt_setUnit_same, finish_msgWord, msgWord_msg, msgWithResponse_getD (by simp [responseMsg])]
        rfl
      payload := fun i hi => by
        rw [unitAt_setUnit_same, finish_msgWord, msgWord_msg,
          msgWithResponse_getD (by rw [responseMsg, List.length_cons]; omega), Nat.add_comm]
        rfl }

theorem responseMessage_overCapacity (hn : Config.config.respCapacity < data.length) :
    ∃ t, responseMessage Config.config op host h data s = .next t ∧ AnswerFrame host s t ∧
      (unitAt t host).result.status? = some .param := by
  refine ⟨_, perform_none .., ?_⟩
  rw [responseReturn_over hn]
  exact ⟨answerFrame_finish .., congrArg Result.status? (result_setUnit_finish ..)⟩

/-- The acknowledge rows of R100: only the number of data words decides. -/
theorem responseMessage_answers :
    ∃ t, responseMessage Config.config op host h data s = .next t ∧
      if data.length ≤ Config.config.respCapacity then
        ResponseTaken host (Config.config.opcodeNumber op) h data s t
      else AnswerFrame host s t ∧ (unitAt t host).result.status? = some .param := by
  by_cases hn : data.length ≤ Config.config.respCapacity
  · simpa only [if_pos hn] using responseMessage_within hn
  · simpa only [if_neg hn] using responseMessage_overCapacity (Nat.lt_of_not_le hn)

end

/-- Settles O16: the four rows differ in their opcode, and a write acknowledge has no data words. -/
theorem acknowledgeMessages : Obligations.AcknowledgeMessages :=
  fun _ _ _ _ =>
    ⟨responseMessage_answers, responseMessage_answers, responseMessage_within (Nat.zero_le _),
      responseMessage_within (Nat.zero_le _)⟩

end Sys2Proof.Machine
end

section
/-! PROOFS. The codec's inverse and the echoing target (40_codec.md R125, R127): a command's words give back the arguments
it was built from, so a target that stores a write under its key answers a read of that key with the words written. -/

namespace Sys2Proof.Machine

/-- Reading the first `n` words of a list by index takes them. -/
theorem map_getD_range_eq_take {l : List Word} {n : Nat} (h : n ≤ l.length) :
    ((List.range n).map fun i => l.getD i 0) = l.take n := by
  apply List.ext_getElem
  · simp [h]
  · intro i hi _
    have hlen : i < l.length := by simp at hi; omega
    simp [hlen]

/-- The words sent are the frame (R122). -/
theorem CommandSent.sentWords {u : Int} {frame : List Word} {s t : State} (h : CommandSent u frame s t) :
    sentWords t u frame.length = frame := by
  have hwords : msgWord (unitAt t u) = fun i => frame.getD i 0 := funext h.buffer
  rw [Machine.sentWords, hwords, map_getD_range_eq_take (le_refl _), List.take_length]

section
variable {C : Configuration} {op : MsgOpcode} {acctype dstblk n : Nat} {address : Word} {words : List Word}

/-! ## The inverse (R125) -/

/-- A count within capacity fits `datalen` and is read out of it again (R96). -/
theorem wordCount_of_datalen {h : HeaderFields} (hn : n ≤ C.respCapacity) (hd : h.datalen = BitVec.ofNat 7 (4 * n)) :
    h.wordCount = n := by
  have hle := C.respCapacity_le
  rw [HeaderFields.wordCount, hd, BitVec.toNat_ofNat]
  omega

/-- The data words of a write command are the first `n` words it was given. -/
theorem commandFrame_payload (hwrite : op.isWriteCmd = true) (hwords : n ≤ words.length) :
    ((List.range n).map fun i => (commandFrame C op acctype dstblk address n words).getD (2 + i) 0) = words.take n := by
  rw [← map_getD_range_eq_take hwords]
  refine List.map_congr_left fun i hi => ?_
  rw [Nat.add_comm, commandFrame_getD]
  exact if_pos ⟨hwrite, List.mem_range.mp hi⟩

/-- R125 is the inverse of R121: the header is read back in any layout, and its `datalen` says how many words follow. -/
theorem commandFields_commandFrame (hop : op.isCommand = true) (hn : n ≤ C.respCapacity)
    (hwords : op.isWriteCmd = true → n ≤ words.length) :
    commandFields C (commandFrame C op acctype dstblk address n words) =
      { opcode := C.opcodeNumber op
        fields :=
          { dstblk := BitVec.ofNat 7 dstblk, acctype := BitVec.ofNat 5 acctype, datalen := BitVec.ofNat 7 (4 * n), rsvd := 0 }
        address := address
        words := if op.isWriteCmd then words.take n else [] } := by
  have hopcode : headerOpcode C.headerLayout (commandHeader C op acctype dstblk n) = C.opcodeNumber op :=
    headerOpcode_headerWord C.headerLayout_valid ..
  have hfields : headerFields C.headerLayout (commandHeader C op acctype dstblk n) =
      { dstblk := BitVec.ofNat 7 dstblk, acctype := BitVec.ofNat 5 acctype, datalen := BitVec.ofNat 7 (4 * n), rsvd := 0 } :=
    headerFields_headerWord C.headerLayout_valid ..
  have hcount : (headerFields C.headerLayout (commandHeader C op acctype dstblk n)).wordCount = n :=
    wordCount_of_datalen hn (by rw [hfields])
  have hheader : (commandFrame C op acctype dstblk address n words).getD 0 0 = commandHeader C op acctype dstblk n :=
    commandFrame_getD ..
  have haddress : (commandFrame C op acctype dstblk address n words).getD 1 0 = address := commandFrame_getD ..
  rw [commandFields, hheader, haddress, hopcode, hcount, hfields, commandOf_number C hop, Option.any_some]
  cases hwrite : op.isWriteCmd with
  | false => rfl
  | true => rw [if_pos rfl, if_pos rfl, commandFrame_payload hwrite (hwords hwrite)]

end

/-- Settles O18: a call that is answered `OK` sent a command frame, and R125 reads that frame. -/
theorem commandFieldsInverse : Obligations.CommandFieldsInverse := by
  intro host op acctype dstblk address n nCmd words s t hop hexec hok
  have hcommand := isCommand_iff.mpr hop
  rw [exec_encodeCommand_number hcommand] at hexec
  obtain ⟨hacctype, hdstblk, hn, hwords⟩ := fits_of_buildCommand_ok hexec hok
  obtain ⟨t', ht', hsent⟩ := buildCommand_sends (C := Config.config) (u := host) (address := address) (s := s)
    hacctype hdstblk hn hwords
  obtain rfl : t = t' := Host.Outcome.next.inj (hexec.symm.trans ht')
  obtain ⟨-, rfl⟩ := Result.encoded.inj (hsent.result.symm.trans hok)
  rw [hsent.sentWords]
  exact commandFields_commandFrame hcommand hn hwords

/-! ## The echoing target (R127) -/

/-- No opcode is both a read and a write command (R101). -/
theorem isWriteCmd_eq_false_of_isReadCmd {op : MsgOpcode} (h : op.isReadCmd = true) : op.isWriteCmd = false := by
  cases op with
  | readMemoryCmd | readRegisterCmd => rfl
  | _ => cases h

section
variable {C : Configuration} {op : MsgOpcode} {acctype dstblk n : Nat} {address : Word} {words : List Word}

theorem echoAck_commandFrame (hop : op.isCommand = true) (hn : n ≤ C.respCapacity)
    (hwords : op.isWriteCmd = true → n ≤ words.length) :
    echoAck C (commandFrame C op acctype dstblk address n words) = op.ackOf := by
  rw [echoAck, commandFields_commandFrame hop hn hwords, msgOpcodeOf_configured, Option.bind_some]

/-- A read of the key of an earlier write of as many words is answered with those words. -/
theorem echoAnswer_commandFrame {w r : MsgOpcode} (hw : w.isWriteCmd = true) (hr : r.isReadCmd = true)
    (hn : words.length ≤ C.respCapacity) :
    (echoAnswer C (commandFrame C w acctype dstblk address words.length words)
      (commandFrame C r acctype dstblk address words.length []) words.length).2 = words := by
  have hrNotWrite := isWriteCmd_eq_false_of_isReadCmd hr
  have hwrite := commandFields_commandFrame (acctype := acctype) (dstblk := dstblk) (address := address)
    (isCommand_of_isWriteCmd hw) hn fun _ => le_refl words.length
  have hread := commandFields_commandFrame (acctype := acctype) (dstblk := dstblk) (address := address) (words := [])
    (isCommand_of_isReadCmd hr) hn (by simp [hrNotWrite])
  simp only [echoAnswer, echoStores, hwrite, hread, hw, if_true, List.take_length]
  exact (map_getD_range_eq_take (le_refl _)).trans List.take_length

end

section
variable {host : Int} {op : MsgOpcode} {s : State}

/-- A call of `decode_response` on a response message with the data words asked for. -/
theorem exec_decodeResponse_responseMsg (h : HeaderFields) {data : List Word}
    (hn : data.length ≤ Config.config.respCapacity) :
    ∃ t, exec (.decodeResponse host { msg := responseMsg Config.config op h data, wordCount := data.length }) s = .next t ∧
      (unitAt t host).result = .decoded .ok (Config.config.opcodeNumber op) data := by
  rw [exec_decodeResponse, decodeReturn_responseMsg hn]
  exact ⟨_, rfl, result_setUnit_finish ..⟩

end

/-- The exchange of R127 for a write command `w`, a read command `r` and their acknowledges. -/
theorem echo_reads_written {w wAck r rAck : MsgOpcode} (hw : w.isWriteCmd = true) (hwAck : w.ackOf = some wAck)
    (hr : r.isReadCmd = true) (hrAck : r.ackOf = some rAck) {host : Int}
    {acctype dstblk : Nat} {address : Word} {words : List Word} (hAck : HeaderFields) {s : State}
    (hacctype : acctype < 32) (hdstblk : dstblk < 128) (hn : words.length ≤ Config.config.respCapacity) :
    ∃ t₁ t₂ t₃ t₄,
      exec (.encodeCommand host (Config.config.opcodeNumber w).toNat acctype dstblk address words.length (some words)) s =
        .next t₁ ∧
      echoAck Config.config (sentWords t₁ host (2 + words.length)) = some wAck ∧
      exec (.decodeResponse host { msg := responseMsg Config.config wAck hAck [], wordCount := 0 }) t₁ = .next t₂ ∧
      (unitAt t₂ host).result = .decoded .ok (Config.config.opcodeNumber wAck) [] ∧
      exec (.encodeCommand host (Config.config.opcodeNumber r).toNat acctype dstblk address words.length none) t₂ =
        .next t₃ ∧
      echoAck Config.config (sentWords t₃ host 2) = some rAck ∧
      exec (.decodeResponse host
        { msg :=
            responseMsg Config.config rAck
              (echoAnswer Config.config (sentWords t₁ host (2 + words.length)) (sentWords t₃ host 2) words.length).1
              (echoAnswer Config.config (sentWords t₁ host (2 + words.length)) (sentWords t₃ host 2) words.length).2
          wordCount := words.length }) t₃ = .next t₄ ∧
      (unitAt t₄ host).result = .decoded .ok (Config.config.opcodeNumber rAck) words := by
  have hrNotWrite := isWriteCmd_eq_false_of_isReadCmd hr
  have hwOp := isCommand_of_isWriteCmd hw
  have hrOp := isCommand_of_isReadCmd hr
  have hwWords : w.isWriteCmd = true → words.length ≤ ((some words).getD []).length := fun _ => le_refl _
  have hrWords : r.isWriteCmd = true → words.length ≤ ((none : Option (List Word)).getD []).length := by simp [hrNotWrite]
  obtain ⟨t₁, h₁, hsent₁⟩ := exec_encodeCommand_sends (host := host) (address := address) (s := s)
    hwOp hacctype hdstblk hn hwWords
  obtain ⟨t₂, h₂, hresult₂⟩ := exec_decodeResponse_responseMsg (host := host) (op := wAck) (s := t₁) hAck
    (data := []) (Nat.zero_le _)
  obtain ⟨t₃, h₃, hsent₃⟩ := exec_encodeCommand_sends (host := host) (address := address) (s := t₂)
    hrOp hacctype hdstblk hn hrWords
  have hsentWords₁ := hsent₁.sentWords
  rw [commandFrame_length hwWords, if_pos hw] at hsentWords₁
  have hsentWords₃ := hsent₃.sentWords
  rw [commandFrame_length hrWords, hrNotWrite, if_neg Bool.false_ne_true] at hsentWords₃
  have hanswer := echoAnswer_commandFrame (acctype := acctype) (dstblk := dstblk) (address := address) hw hr hn
  obtain ⟨t₄, h₄, hresult₄⟩ := exec_decodeResponse_responseMsg (host := host) (op := rAck) (s := t₃)
    (echoAnswer Config.config (sentWords t₁ host (2 + words.length)) (sentWords t₃ host 2) words.length).1 hn
  refine ⟨t₁, t₂, t₃, t₄, h₁, ?_, h₂, hresult₂, h₃, ?_, ?_, hresult₄⟩
  · rw [hsentWords₁, echoAck_commandFrame hwOp hn hwWords, hwAck]
  · rw [hsentWords₃, echoAck_commandFrame hrOp hn hrWords, hrAck]
  · rw [hsentWords₁, hsentWords₃] at h₄ ⊢
    rw [Option.getD_some, Option.getD_none] at h₄ ⊢
    rwa [hanswer]

/-- Settles O19: one exchange with the memory opcodes, one with the register opcodes. -/
theorem echoRoundTrip : Obligations.EchoRoundTrip :=
  fun _ _ _ _ _ hAck _ hacctype hdstblk hn =>
    ⟨echo_reads_written rfl rfl rfl rfl hAck hacctype hdstblk hn,
      echo_reads_written rfl rfl rfl rfl hAck hacctype hdstblk hn⟩

end Sys2Proof.Machine
end

section
/-! PROOFS. The selector (41_selector.md R142, R144): a call of it is never refused, and it answers the route with nothing
written. -/

namespace Sys2Proof.Machine

/-- R142: the call reads whether a hook is installed, and only answers. -/
theorem exec_selectRoute (u : Int) (ext address : Word) (s : State) :
    exec (.selectRoute u ext address) s =
      .next (setUnit s u ((unitAt s u).finish (.route (routeOf Config.config s.simPresent u ext address)))) := rfl

/-- Settles O20: an operation that only answers has the frame, and what it answers is the multiplexer's route (R144). -/
theorem selectRouteAnswers : Obligations.SelectRouteAnswers := by
  intro u ext address s
  refine ⟨_, exec_selectRoute .., answerFrame_finish .., ?_⟩
  rw [result_setUnit_finish, routeOf]

end Sys2Proof.Machine
end

section
/-! PROOFS. `mem_read` (42_pio_engine.md R155 to R161): the first check of R155 that applies decides, a bypassed address
before everything else (R156), and a call past the checks is answered by the hook or by one exchange. What both operations
of the engine share stands first. -/

namespace Sys2Proof.Machine

section
variable {C : Configuration} {u : Int} {ext address : Word} {n : Nat} {us : UnitState} {s : State}

/-! ## What the two operations share -/

/-- What the codec and the PIO engine can do to a unit keeps the frame of a message operation (R23, R171). -/
theorem MessageEffect.messageFrame {us' : UnitState} (h : MessageEffect C (unitAt s u) us') :
    MessageFrame u s (setUnit s u us') := by
  rw [h.shape]
  exact messageFrame_setUnit ..

/-- A call that has a meaning with fewer words than its count is bypassed or over capacity (R155, R164 line 5). -/
theorem bypassed_or_over {given : Nat}
    (h : C.isBypassed u ext address = true ∨ C.respCapacity < n ∨ n ≤ given) (hshort : given < n) :
    (C.isBypassed u ext address || overCapacity C n) = true := by
  rw [Bool.or_eq_true, overCapacity_iff]
  exact h.imp_right fun h => h.resolve_right (Nat.not_le.mpr hshort)

theorem not_bypassed_or_over (h : ¬C.isBypassed u ext address = true) (hn : n ≤ C.respCapacity) :
    ¬(C.isBypassed u ext address || overCapacity C n) = true := by
  rw [Bool.or_eq_true, overCapacity_iff]
  exact not_or_intro h (Nat.not_lt.mpr hn)

theorem exchangeWords_error {k m : Nat} {cmd : List Word} {e : TransportErr} (h : C.exchange u k cmd m = .error e) :
    exchangeWords C u k cmd m = .error e := by
  rw [exchangeWords, h]

theorem exchangeWords_ok {k m : Nat} {cmd : List Word} {answer : Nat → Word} (h : C.exchange u k cmd m = .ok answer) :
    exchangeWords C u k cmd m = .ok ((List.range m).map answer) := by
  rw [exchangeWords, h]

/-- An answer of `1 + n` words is a header and `n` data words (R66). -/
theorem answer_eq_cons (answer : Nat → Word) (n : Nat) :
    (List.range (1 + n)).map answer = answer 0 :: (List.range n).map fun i => answer (1 + i) := by
  rw [Nat.add_comm, List.range_succ_eq_map, List.map_cons, List.map_map]
  exact congrArg _ (List.map_congr_left fun i _ => congrArg answer (Nat.add_comm i 1))

/-- The opcode that is checked is the one of the answer's first word (R160, R168). -/
theorem responseOpcode_of_answer (k : Nat) (answer : Nat → Word) :
    responseOpcode C { us with msg := msgWithResponse C u k ((List.range (1 + n)).map answer) } =
      headerOpcode C.headerLayout (answer 0) := by
  rw [answer_eq_cons, responseOpcode_of_response]

/-- The words that are read are the ones after it (R161). -/
theorem responseWords_of_answer (k : Nat) (answer : Nat → Word) :
    responseWords { us with msg := msgWithResponse C u k ((List.range (1 + n)).map answer) } n =
      (List.range n).map fun i => answer (1 + i) := by
  have h := responseWords_of_response C us u k (answer 0) ((List.range n).map fun i => answer (1 + i))
  rwa [List.length_map, List.length_range, ← answer_eq_cons] at h

end

section
variable {C : Configuration} {u : Int} {ext address : Word} {n : Nat} {buf : List Word} {us : UnitState} {s : State}

/-! ## When a read has a meaning (R155 line 5) -/

theorem memRead_next (h : C.isBypassed u ext address = true ∨ C.respCapacity < n ∨ n ≤ buf.length) :
    memRead C u ext address n buf s =
      .next (setUnit s u (memReadReturn C s.simPresent u ext address n buf (unitAt s u))) := by
  refine perform_next_iff.mpr ⟨?_, rfl⟩
  unfold memReadRefusal
  by_cases hshort : buf.length < n
  · rw [if_pos hshort, if_pos (bypassed_or_over h hshort)]
  · rw [if_neg hshort]

theorem memRead_shortBuffer (hroute : ¬C.isBypassed u ext address = true) (hn : n ≤ C.respCapacity)
    (hshort : buf.length < n) : memRead C u ext address n buf s = .refused .shortBuffer := by
  refine perform_refused_iff.mpr ?_
  unfold memReadRefusal
  rw [if_pos hshort, if_neg (not_bypassed_or_over hroute hn)]

/-! ## The routes (R155) -/

theorem memReadReturn_bypassed {simPresent : Bool} (h : C.isBypassed u ext address = true) :
    memReadReturn C simPresent u ext address n buf us = us.finish (.read .ok buf) := if_pos h

theorem memReadReturn_over {simPresent : Bool} (h : ¬C.isBypassed u ext address = true) (hn : C.respCapacity < n) :
    memReadReturn C simPresent u ext address n buf us = failedRead C u .param buf us := by
  rw [memReadReturn, if_neg h, if_pos (overCapacity_iff.mpr hn)]

/-- R142: a read past its checks goes to the hook where one is installed, and to the bus where none is. -/
theorem memReadReturn_within {simPresent : Bool} (h : ¬C.isBypassed u ext address = true) (hn : n ≤ C.respCapacity) :
    memReadReturn C simPresent u ext address n buf us =
      if simPresent then simRead C u ext address n buf us else busRead C u ext address n buf us := by
  rw [memReadReturn, if_neg h, if_neg (by rw [overCapacity_iff]; omega)]

/-! ## Through the hook (R158) -/

theorem simRead_ok {answer : Nat → Word}
    (h : C.hookRead u us.tick (C.tagMem ext address) address (buf.take n) (byteSize n) = (.ok, answer)) :
    simRead C u ext address n buf us = us.finish (.read .ok ((List.range n).map answer ++ buf.drop n)) := by
  rw [simRead, h]
  exact if_pos rfl

theorem simRead_failed {st : Status} {answer : Nat → Word} (hst : st ≠ .ok)
    (h : C.hookRead u us.tick (C.tagMem ext address) address (buf.take n) (byteSize n) = (st, answer)) :
    simRead C u ext address n buf us = failedRead C u st buf us := by
  rw [simRead, h]
  exact if_neg hst

/-- The hook answers the caller and nothing else. -/
theorem simRead_eq_finish : ∃ r, simRead C u ext address n buf us = us.finish r := by
  simp only [simRead]
  split
  · exact ⟨_, rfl⟩
  · exact ⟨_, rfl⟩

/-! ## Over the bus (R159 to R161) -/

/-- R159: a read command is a header and an address. -/
theorem readCommand_eq (C : Configuration) (ext address : Word) (n : Nat) :
    readCommand C ext address n =
      [headerWord C.headerLayout (C.opcodeNumber .readMemoryCmd)
        { dstblk := (C.adextDecode ext).2, acctype := (C.adextDecode ext).1
          datalen := BitVec.ofNat 7 (4 * n), rsvd := 0 }, address] := by
  simp [readCommand, commandFrame, commandHeader, MsgOpcode.isWriteCmd]

theorem busRead_transport {e : TransportErr}
    (h : C.exchange u us.tick (readCommand C ext address n) (1 + n) = .error e) :
    (busRead C u ext address n buf us).result = .read (.transport e) (freeBuffer C u us.tick buf.length) := by
  simp only [busRead, exchangeWords_error h]
  rfl

theorem busRead_acknowledged {answer : Nat → Word}
    (h : C.exchange u us.tick (readCommand C ext address n) (1 + n) = .ok answer)
    (hack : headerOpcode C.headerLayout (answer 0) = C.opcodeNumber .readMemoryAck) :
    (busRead C u ext address n buf us).result =
      .read .ok (((List.range n).map fun i => answer (1 + i)) ++ buf.drop n) := by
  simp only [busRead, exchangeWords_ok h, responseOpcode_of_answer, responseWords_of_answer, if_pos hack]
  rfl

theorem busRead_protocol {answer : Nat → Word}
    (h : C.exchange u us.tick (readCommand C ext address n) (1 + n) = .ok answer)
    (hack : ¬headerOpcode C.headerLayout (answer 0) = C.opcodeNumber .readMemoryAck) :
    (busRead C u ext address n buf us).result = .read .protocol (freeBuffer C u us.tick buf.length) := by
  simp only [busRead, exchangeWords_ok h, responseOpcode_of_answer, if_neg hack]
  rfl

/-! ## The calls of `mem_read` -/

theorem memRead_bypassed (h : C.isBypassed u ext address = true) :
    ∃ t, memRead C u ext address n buf s = .next t ∧ AnswerFrame u s t ∧ (unitAt t u).result = .read .ok buf := by
  refine ⟨_, memRead_next (.inl h), ?_⟩
  rw [memReadReturn_bypassed h]
  exact ⟨answerFrame_finish .., result_setUnit_finish ..⟩

theorem memRead_overCapacity (h : ¬C.isBypassed u ext address = true) (hn : C.respCapacity < n) :
    ∃ t, memRead C u ext address n buf s = .next t ∧ AnswerFrame u s t ∧
      (unitAt t u).result = .read .param (freeBuffer C u (unitAt s u).tick buf.length) := by
  refine ⟨_, memRead_next (.inr (.inl hn)), ?_⟩
  rw [memReadReturn_over h hn]
  exact ⟨answerFrame_finish .., result_setUnit_finish ..⟩

end

theorem exec_memRead (u : Int) (ext address : Word) (n : Nat) (buf : List Word) (s : State) :
    exec (.memRead u ext address n buf) s = memRead Config.config u ext address n buf s := rfl

/-- Settles O21: the bypass is the first check, so neither the count nor the buffer is looked at (R156). -/
theorem bypassedRead : Obligations.BypassedRead :=
  ⟨fun _ _ _ _ _ _ _ => memRead_bypassed, exec_memRead⟩

/-- Settles O22: one case for each route, and in it one for each answer of the hook or of the exchange layer. The buffer of
a failed read is the drawn one. -/
theorem memReadAnswers : Obligations.MemReadAnswers := by
  intro u ext address n buf s hn hbuf
  refine ⟨_, freeBuffer Config.config u (unitAt s u).tick buf.length, memRead_next (.inr (.inr hbuf)),
    (memReadReturn_effect ..).messageFrame, freeBuffer_length .., ?_⟩
  by_cases hroute : Config.config.isBypassed u ext address = true
  · rw [if_pos hroute, memReadReturn_bypassed hroute]
    exact ⟨answerFrame_finish .., result_setUnit_finish ..⟩
  rw [if_neg hroute, memReadReturn_within hroute hn, unitAt_setUnit_same]
  by_cases hsim : s.simPresent = true
  · simp only [if_pos hsim]
    obtain ⟨r, hr⟩ := simRead_eq_finish (C := Config.config) (u := u) (ext := ext) (address := address) (n := n)
      (buf := buf) (us := unitAt s u)
    refine ⟨by rw [hr]; exact answerFrame_finish .., ?_⟩
    split
    next answer hanswer => rw [simRead_ok hanswer, finish_result]
    next st answer hst hanswer =>
      rw [simRead_failed (hst) hanswer]
      rfl
  · simp only [if_neg hsim, ← readCommand_eq]
    split
    next e hexchange => exact busRead_transport hexchange
    next answer hexchange =>
      split
      next hack => exact busRead_acknowledged hexchange hack
      next hack => exact busRead_protocol hexchange hack

/-- Settles O23: over capacity and short of buffer, each with the bypass before it. -/
theorem memReadTurnedAway : Obligations.MemReadTurnedAway := by
  intro u ext address n buf s
  rw [exec_memRead]
  by_cases hroute : Config.config.isBypassed u ext address = true
  · simp only [if_pos hroute]
    obtain ⟨t, ht, hframe, hresult⟩ := memRead_bypassed (n := n) (buf := buf) (s := s) hroute
    exact ⟨fun _ => ⟨t, buf, ht, hframe, rfl, hresult⟩, fun _ _ => ⟨t, ht, hframe, hresult⟩⟩
  · simp only [if_neg hroute]
    refine ⟨fun hn => ?_, memRead_shortBuffer hroute⟩
    obtain ⟨t, ht, hframe, hresult⟩ := memRead_overCapacity (buf := buf) (s := s) hroute hn
    exact ⟨t, _, ht, hframe, freeBuffer_length .., hresult⟩

end Sys2Proof.Machine
end

section
/-! PROOFS. `mem_write` (42_pio_engine.md R164 to R169): the checks and routes of `mem_read`, with the words in the command
and one word asked for. -/

namespace Sys2Proof.Machine

section
variable {C : Configuration} {u : Int} {ext address : Word} {words : List Word} {n : Nat} {us : UnitState} {s : State}

/-! ## When a write has a meaning (R164 line 5) -/

theorem memWrite_next (h : C.isBypassed u ext address = true ∨ C.respCapacity < n ∨ n ≤ words.length) :
    memWrite C u ext address words n s =
      .next (setUnit s u (memWriteReturn C s.simPresent u ext address words n (unitAt s u))) := by
  refine perform_next_iff.mpr ⟨?_, rfl⟩
  unfold memWriteRefusal
  by_cases hshort : words.length < n
  · rw [if_pos hshort, if_pos (bypassed_or_over h hshort)]
  · rw [if_neg hshort]

theorem memWrite_shortWords (hroute : ¬C.isBypassed u ext address = true) (hn : n ≤ C.respCapacity)
    (hshort : words.length < n) : memWrite C u ext address words n s = .refused .shortWords := by
  refine perform_refused_iff.mpr ?_
  unfold memWriteRefusal
  rw [if_pos hshort, if_neg (not_bypassed_or_over hroute hn)]

/-! ## The routes (R164) -/

theorem memWriteReturn_bypassed {simPresent : Bool} (h : C.isBypassed u ext address = true) :
    memWriteReturn C simPresent u ext address words n us = us.finish (.status .ok) := if_pos h

theorem memWriteReturn_over {simPresent : Bool} (h : ¬C.isBypassed u ext address = true) (hn : C.respCapacity < n) :
    memWriteReturn C simPresent u ext address words n us = us.finish (.status .param) := by
  rw [memWriteReturn, if_neg h, if_pos (overCapacity_iff.mpr hn)]

/-- R142: a write past its checks is the hook's to answer where one is installed, and goes to the bus where none is. -/
theorem memWriteReturn_within {simPresent : Bool} (h : ¬C.isBypassed u ext address = true) (hn : n ≤ C.respCapacity) :
    memWriteReturn C simPresent u ext address words n us =
      if simPresent then
        us.finish (.status (C.hookWrite u us.tick (C.tagMem ext address) address (words.take n) (byteSize n)))
      else busWrite C u ext address words n us := by
  rw [memWriteReturn, if_neg h, if_neg (by rw [overCapacity_iff]; omega)]

/-! ## Over the bus (R167, R168) -/

/-- R167: a write command is a header, an address and the first `n` words. -/
theorem writeCommand_eq (C : Configuration) (ext address : Word) (words : List Word) (n : Nat) :
    writeCommand C ext address words n =
      headerWord C.headerLayout (C.opcodeNumber .writeMemoryCmd)
        { dstblk := (C.adextDecode ext).2, acctype := (C.adextDecode ext).1
          datalen := BitVec.ofNat 7 (4 * n), rsvd := 0 } :: address :: words.take n := by
  simp [writeCommand, commandFrame, commandHeader, MsgOpcode.isWriteCmd]

theorem busWrite_transport {e : TransportErr}
    (h : C.exchange u us.tick (writeCommand C ext address words n) 1 = .error e) :
    (busWrite C u ext address words n us).result = .status (.transport e) := by
  simp only [busWrite, exchangeWords_error h]
  rfl

/-- The opcode of the one word asked for decides between `OK` and `E_PROTOCOL`. -/
theorem busWrite_answered {answer : Nat → Word}
    (h : C.exchange u us.tick (writeCommand C ext address words n) 1 = .ok answer) :
    (busWrite C u ext address words n us).result =
      .status (if headerOpcode C.headerLayout (answer 0) = C.opcodeNumber .writeMemoryAck then .ok else .protocol) := by
  have hopcode := responseOpcode_of_answer (C := C) (u := u) (n := 0) (us := us) us.tick answer
  simp only [Nat.add_zero] at hopcode
  simp only [busWrite, exchangeWords_ok h, hopcode]
  split
  · rfl
  · rfl

/-! ## The calls of `mem_write` -/

theorem memWrite_bypassed (h : C.isBypassed u ext address = true) :
    ∃ t, memWrite C u ext address words n s = .next t ∧ AnswerFrame u s t ∧
      (unitAt t u).result = .status .ok := by
  refine ⟨_, memWrite_next (.inl h), ?_⟩
  rw [memWriteReturn_bypassed h]
  exact ⟨answerFrame_finish .., result_setUnit_finish ..⟩

theorem memWrite_overCapacity (h : ¬C.isBypassed u ext address = true) (hn : C.respCapacity < n) :
    ∃ t, memWrite C u ext address words n s = .next t ∧ AnswerFrame u s t ∧
      (unitAt t u).result = .status .param := by
  refine ⟨_, memWrite_next (.inr (.inl hn)), ?_⟩
  rw [memWriteReturn_over h hn]
  exact ⟨answerFrame_finish .., result_setUnit_finish ..⟩

end

theorem exec_memWrite (u : Int) (ext address : Word) (words : List Word) (n : Nat) (s : State) :
    exec (.memWrite u ext address words n) s = memWrite Config.config u ext address words n s := rfl

/-- Settles O24: one case for each route, and on the bus one for each answer of the exchange layer. -/
theorem memWriteAnswers : Obligations.MemWriteAnswers := by
  intro u ext address words n s hn hwords
  refine ⟨_, memWrite_next (.inr (.inr hwords)), (memWriteReturn_effect ..).messageFrame, ?_⟩
  by_cases hroute : Config.config.isBypassed u ext address = true
  · rw [if_pos hroute, memWriteReturn_bypassed hroute]
    exact ⟨answerFrame_finish .., result_setUnit_finish ..⟩
  rw [if_neg hroute, memWriteReturn_within hroute hn]
  by_cases hsim : s.simPresent = true
  · simp only [if_pos hsim]
    exact ⟨answerFrame_finish .., result_setUnit_finish ..⟩
  · simp only [if_neg hsim, ← writeCommand_eq, unitAt_setUnit_same]
    split
    next e hexchange => exact busWrite_transport hexchange
    next answer hexchange => exact busWrite_answered hexchange

/-- Settles O25: over capacity and short of words, each with the bypass before it. -/
theorem memWriteTurnedAway : Obligations.MemWriteTurnedAway := by
  intro u ext address words n s
  rw [exec_memWrite]
  by_cases hroute : Config.config.isBypassed u ext address = true
  · simp only [if_pos hroute]
    exact ⟨fun _ => memWrite_bypassed hroute, fun _ _ => memWrite_bypassed hroute⟩
  · simp only [if_neg hroute]
    exact ⟨memWrite_overCapacity hroute, memWrite_shortWords hroute⟩

end Sys2Proof.Machine
end

section
/-! PROOFS. How an operation of the FIFO controller ends (43_fifo_controller.md R182, R221; 60_exceptions.md R253): it only
answers, or it leaves one channel as another. Then, what each of the five answers where the unit is not available (R256). -/

namespace Sys2Proof.Machine

section
variable {c : Nat} {us us' : UnitState}

theorem SameController.refl (us : UnitState) : SameController us us := ⟨rfl, rfl, rfl, rfl, rfl, rfl, rfl, rfl⟩

theorem SameController.finish (h : SameController us us') (r : Result) : SameController us (us'.finish r) :=
  ⟨h.present, h.active, h.bound, h.ops, h.channelCount, h.cmdMemWsize, h.maxPolls, h.initFlags⟩

theorem SameController.setChannel (h : SameController us us') (c : Nat) (ch : Channel) :
    SameController us (setChannel us' c ch) :=
  ⟨h.present, h.active, h.bound, h.ops, h.channelCount, h.cmdMemWsize, h.maxPolls, h.initFlags⟩

/-- The controller's fields, every channel but `c` and the message buffer are unchanged (R221). -/
structure SameButChannel (c : Nat) (a b : UnitState) : Prop where
  controller : SameController a b
  channels : OnlyChannel c a b
  msg : SameMsg a b

theorem SameButChannel.refl (c : Nat) (us : UnitState) : SameButChannel c us us :=
  ⟨.refl us, fun _ _ => rfl, fun _ => rfl⟩

theorem SameButChannel.finish (h : SameButChannel c us us') (r : Result) : SameButChannel c us (us'.finish r) :=
  { controller := h.controller.finish r, channels := h.channels, msg := h.msg }

theorem SameButChannel.setChannel (h : SameButChannel c us us') (ch : Channel) :
    SameButChannel c us (setChannel us' c ch) :=
  { controller := h.controller.setChannel c ch
    channels := fun d hd => by rw [channelAt_setChannel_other us' ch hd, h.channels d hd]
    msg := h.msg }

/-- Engine steps of the channel, as `engineRun_spec` and `pollRunning_spec` state them. -/
theorem SameBase.sameButChannel (h : SameBase us us') (hother : ∀ d, d ≠ c → channelAt us' d = channelAt us d) :
    SameButChannel c us us' :=
  { controller := h.controller, channels := hother, msg := fun i => by rw [msgWord, msgWord, h.msg] }

theorem SameButChannel.channelFrame {s : State} {u : Int} (h : SameButChannel c (unitAt s u) us') :
    ChannelFrame u c s (setUnit s u us') where
  onlyUnit := onlyUnit_setUnit ..
  controller := by rw [unitAt_setUnit_same]; exact h.controller
  channels := by rw [unitAt_setUnit_same]; exact h.channels
  msg := by rw [unitAt_setUnit_same]; exact h.msg

end

/-! ## The two ends of an operation -/

/-- The caller is given `r`, channel `c` is left as `ch`, and nothing else changed. -/
structure ChannelLeft (u : Int) (c : Nat) (ch : Channel) (r : Result) (s t : State) : Prop where
  frame : ChannelFrame u c s t
  result : (unitAt t u).result = r
  channel : channelAt (unitAt t u) c = ch

section
variable {s : State} {u : Int} {refusal : Option Refusal} {effect : UnitState → UnitState} {r : Result}

theorem perform_answers (hnone : refusal = none) (heffect : effect (unitAt s u) = (unitAt s u).finish r) :
    ∃ t, perform s u refusal effect = .next t ∧ AnswerFrame u s t ∧ (unitAt t u).result = r := by
  refine ⟨_, perform_next_iff.mpr ⟨hnone, rfl⟩, ?_⟩
  rw [heffect]
  exact ⟨answerFrame_finish .., result_setUnit_finish ..⟩

theorem perform_answers_status {st : Status} (hnone : refusal = none)
    (heffect : effect (unitAt s u) = (unitAt s u).finish r) (hst : r.status? = some st) :
    ∃ t, perform s u refusal effect = .next t ∧ AnswerFrame u s t ∧ (unitAt t u).result.status? = some st := by
  obtain ⟨t, hexec, hframe, hresult⟩ := perform_answers hnone heffect
  exact ⟨t, hexec, hframe, hresult.symm ▸ hst⟩

theorem perform_leaves_channel {c : Nat} {ch : Channel} {us : UnitState} (hnone : refusal = none)
    (hsame : SameButChannel c (unitAt s u) us)
    (heffect : effect (unitAt s u) = (setChannel us c ch).finish r) :
    ∃ t, perform s u refusal effect = .next t ∧ ChannelLeft u c ch r s t := by
  refine ⟨_, perform_next_iff.mpr ⟨hnone, rfl⟩, ?_⟩
  rw [heffect]
  exact
    { frame := ((hsame.setChannel ch).finish r).channelFrame
      result := result_setUnit_finish ..
      channel := by rw [unitAt_setUnit_same, finish_channelAt, channelAt_setChannel_same] }

end

/-! ## The operations as host operations -/

theorem exec_fifoInfoGet (u : Int) (s : State) :
    exec (.fifoInfoGet u) s = perform s u none (infoGetReturn Config.config u) := rfl

theorem exec_fifoInit (u : Int) (maxPolls flags : Word) (s : State) :
    exec (.fifoInit u maxPolls flags) s =
      perform s u (initRefusal Config.config u flags (unitAt s u)) (initReturn Config.config u maxPolls flags) := rfl

theorem exec_fifoOpsSend (u c : Int) (n : Nat) (words : Option (List Word)) (size : Nat) (flags : Word) (s : State) :
    exec (.fifoOpsSend u c n words size flags) s =
      perform s u (opsSendRefusal Config.config u c n words size flags (unitAt s u))
        (opsSendReturn Config.config u c n words size) := rfl

theorem exec_fifoSetStart (u c : Int) (start : Bool) (s : State) :
    exec (.fifoSetStart u c start) s =
      perform s u (setStartRefusal Config.config u c start (unitAt s u)) (setStartReturn Config.config u c start) := rfl

theorem exec_fifoStatusGet (u c : Int) (n : Nat) (flags : Word) (doneRef : Bool) (s : State) :
    exec (.fifoStatusGet u c n flags doneRef) s =
      perform s u (statusGetRefusal Config.config u c n flags doneRef (unitAt s u))
        (statusGetReturn Config.config u c n doneRef) := rfl

/-- The three operations that take a channel. -/
theorem channelOf_cases {i : Instr} {c : Int} (h : channelOf i = some c) :
    (∃ u n words size flags, i = .fifoOpsSend u c n words size flags) ∨
      (∃ u start, i = .fifoSetStart u c start) ∨ ∃ u n flags doneRef, i = .fifoStatusGet u c n flags doneRef := by
  cases i with
  | fifoOpsSend u c' n words size flags => cases h; exact .inl ⟨u, n, words, size, flags, rfl⟩
  | fifoSetStart u c' start => cases h; exact .inr (.inl ⟨u, start, rfl⟩)
  | fifoStatusGet u c' n flags doneRef => cases h; exact .inr (.inr ⟨u, n, flags, doneRef, rfl⟩)
  | _ => cases h

/-! ## A unit that is not available -/

section
variable {s : State} {u : Int}

theorem fifoInfoGet_unavailable (h : ¬Available s u) :
    ∃ t, exec (.fifoInfoGet u) s = .next t ∧ AnswerFrame u s t ∧
      (unitAt t u).result =
        .info .unavail (Config.config.freeNat u (unitAt s u).tick 0) (Config.config.freeNat u (unitAt s u).tick 1) := by
  rw [exec_fifoInfoGet]
  exact perform_answers rfl (by simp [infoGetReturn, avail_false_iff.mpr h])

theorem fifoInit_unavailable (h : ¬Available s u) (maxPolls flags : Word) :
    ∃ t, exec (.fifoInit u maxPolls flags) s = .next t ∧ AnswerFrame u s t ∧
      (unitAt t u).result = .status .unavail := by
  rw [exec_fifoInit]
  exact perform_answers (by simp [initRefusal, avail_false_iff.mpr h]) (by simp [initReturn, avail_false_iff.mpr h])

end

/-- Settles O29: the first check of every operation is the one for the unit (R256). -/
theorem controllerUnavailable : Obligations.ControllerUnavailable := by
  intro i s hnot hi
  obtain ⟨u, hu⟩ : ∃ u, i.unit = u := ⟨_, rfl⟩
  rw [hu] at hnot hi ⊢
  have hcheck : (!avail Config.config u (unitAt s u)) = true := by rw [avail_false_iff.mpr hnot]; rfl
  rcases hi with rfl | ⟨maxPolls, flags, rfl⟩ | hchannel
  · obtain ⟨t, hexec, hframe, hresult⟩ := fifoInfoGet_unavailable hnot
    exact ⟨t, hexec, hframe, by rw [hresult]; rfl⟩
  · obtain ⟨t, hexec, hframe, hresult⟩ := fifoInit_unavailable hnot maxPolls flags
    exact ⟨t, hexec, hframe, by rw [hresult]; rfl⟩
  obtain ⟨c, hc⟩ := Option.isSome_iff_exists.mp hchannel
  rcases channelOf_cases hc with ⟨_, n, words, size, flags, rfl⟩ | ⟨_, start, rfl⟩ | ⟨_, n, flags, doneRef, rfl⟩
  · subst hu
    exact perform_answers_status (if_pos hcheck) (if_pos hcheck) rfl
  · subst hu
    exact perform_answers_status (if_pos hcheck) (if_pos hcheck) rfl
  · subst hu
    exact perform_answers_status (if_pos hcheck) (if_pos hcheck) rfl

end Sys2Proof.Machine
end

section
/-! PROOFS. `fifo_info_get` and `fifo_init` (43_fifo_controller.md R183, R185, R186). -/

namespace Sys2Proof.Machine

/-- Settles O30: the held pair of an available unit, or the answer of one that is not. -/
theorem infoGetOutcomes : Obligations.InfoGetOutcomes := by
  intro u s
  refine ⟨fun havail => ?_, fun hnot => ?_⟩
  · rw [exec_fifoInfoGet]
    exact perform_answers rfl (by rw [infoGetReturn, if_pos (avail_iff_available.mpr havail)])
  · obtain ⟨t, hexec, hframe, hresult⟩ := fifoInfoGet_unavailable hnot
    exact ⟨t, _, _, hexec, hframe, hresult⟩

/-- Settles O31: not available, flags with no meaning, and the two fields written. -/
theorem initOutcomes : Obligations.InitOutcomes := by
  intro u maxPolls flags s
  refine ⟨fun hnot => fifoInit_unavailable hnot maxPolls flags, fun havail hflags => ?_, fun havail hflags => ?_⟩
  · rw [exec_fifoInit]
    exact perform_refused_iff.mpr (by simpa [initRefusal, avail_iff_available.mpr havail] using hflags)
  · rw [exec_fifoInit]
    refine ⟨_, perform_next_iff.mpr ⟨by simp [initRefusal, hflags], rfl⟩, onlyUnit_setUnit .., ?_⟩
    rw [unitAt_setUnit_same, initReturn, if_pos (avail_iff_available.mpr havail)]
    exact ⟨rfl, SameController.finish (.refl _) _, fun _ => rfl, fun _ => rfl⟩

end Sys2Proof.Machine
end

section
/-! PROOFS. `fifo_ops_send` (43_fifo_controller.md R190, R191, R194; 20_memory.md R63): parameters, refusals and the queued
batch, in the order of R256. -/

namespace Sys2Proof.Machine

section
variable {s : State} {u c : Int} {n size : Nat} {words : Option (List Word)}

/-! ## The parameters -/

@[simp] theorem presentWords_some (ws : List Word) : presentWords (some ws) = ws := rfl

theorem opsSend_badParam (havail : Available s u) (flags : Word)
    (hbad : opsSendBadParam (unitAt s u) c n words size = true) :
    ∃ t, exec (.fifoOpsSend u c n words size flags) s = .next t ∧ AnswerFrame u s t ∧
      (unitAt t u).result = .status .param := by
  rw [exec_fifoOpsSend]
  exact perform_answers (by simp [opsSendRefusal, avail_iff_available.mpr havail, hbad])
    (by simp [opsSendReturn, avail_iff_available.mpr havail, hbad])

theorem opsSend_goodParam {ws : List Word} (hrange : ChannelInRange s u c) (hn : 1 ≤ n)
    (hsize : size ≤ (unitAt s u).cmdMemWsize) : opsSendBadParam (unitAt s u) c n (some ws) size = false := by
  obtain ⟨hlow, hhigh⟩ := hrange
  rw [← Bool.not_eq_true, opsSendBadParam_iff]
  simp only [reduceCtorEq, false_or]
  omega

/-- With good parameters the one status is `OK`. -/
theorem opsSendReturn_goodParam (havail : Available s u) (hgood : opsSendBadParam (unitAt s u) c n words size = false) :
    opsSendReturn Config.config u c n words size (unitAt s u) =
      (setChannel (unitAt s u) c.toNat
        (queuedChannel (unitAt s u).cmdMemWsize n (presentWords words) size
          (Config.config.freeCmdWord u (unitAt s u).tick c.toNat) (channelAt (unitAt s u) c.toNat))).finish
        (.status .ok) := by
  simp [opsSendReturn, avail_iff_available.mpr havail, hgood]

/-- The checks that come after the parameters (R190 lines 6 to 9). -/
theorem opsSendRefusal_goodParam {ws : List Word} (havail : Available s u) (flags : Word)
    (hgood : opsSendBadParam (unitAt s u) c n (some ws) size = false) :
    opsSendRefusal Config.config u c n (some ws) size flags (unitAt s u) =
      if flags ≠ 0 then some .flagsMeaning
      else if ws.length < size then some .shortRequest
      else if (channelAt (unitAt s u) c.toNat).state = .running ∧
          (channelAt (unitAt s u) c.toNat).timedOut = false then some .opsSendWhileRunning
      else none := by
  rw [opsSendRefusal, avail_iff_available.mpr havail, hgood]
  rfl

end

/-- Settles O33: bad parameters are answered `E_PARAM`, and a call with good ones that is not refused is answered `OK`. -/
theorem opsSendParameterErrors : Obligations.OpsSendParameterErrors := by
  intro u c n words size flags s havail
  rw [← opsSendBadParam_iff]
  cases hbad : opsSendBadParam (unitAt s u) c n words size with
  | true =>
    obtain ⟨t, hexec, hframe, hresult⟩ := opsSend_badParam havail flags hbad
    refine ⟨⟨fun _ => rfl, fun _ => ⟨t, hexec, hresult⟩⟩, fun t' hexec' _ => ?_⟩
    obtain rfl : t = t' := Host.Outcome.next.inj (hexec.symm.trans hexec')
    exact hframe
  | false =>
    have hok : ∀ t, exec (.fifoOpsSend u c n words size flags) s = .next t → (unitAt t u).result ≠ .status .param := by
      intro t hexec
      rw [exec_fifoOpsSend] at hexec
      obtain ⟨-, rfl⟩ := perform_next_iff.mp hexec
      rw [opsSendReturn_goodParam havail hbad, result_setUnit_finish]
      decide
    exact ⟨⟨fun ⟨t, hexec, hresult⟩ => absurd hresult (hok t hexec), fun h => absurd h (by decide)⟩,
      fun t hexec hresult => absurd hresult (hok t hexec)⟩

/-- Settles O34: the three refusals, in their order. -/
theorem opsSendRefusals : Obligations.OpsSendRefusals := by
  intro u c n words size flags s havail hrange hn hsize
  have hrefusal := opsSendRefusal_goodParam havail flags (opsSend_goodParam (ws := words) hrange hn hsize)
  rw [exec_fifoOpsSend, perform_refused_iff, perform_refused_iff, perform_refused_iff, hrefusal]
  refine ⟨fun hflags => if_pos hflags, fun hflags hshort => ?_, fun hflags hlong hrun htimed => ?_⟩
  · rw [if_neg (not_not.mpr hflags)]
    exact if_pos hshort
  · rw [if_neg (not_not.mpr hflags), if_neg (Nat.not_lt.mpr hlong)]
    exact if_pos ⟨hrun, htimed⟩

/-- Settles O32: no check turns the call away, and the channel is left queued with its batch. -/
theorem opsSendQueues : Obligations.OpsSendQueues := by
  intro u c n words size s havail hrange hn hsize hwords hchannel
  have hgood := opsSend_goodParam (ws := words) hrange hn hsize
  have hnone : opsSendRefusal Config.config u c n (some words) size 0 (unitAt s u) = none := by
    rw [opsSendRefusal_goodParam havail 0 hgood, if_neg (not_not.mpr rfl), if_neg (Nat.not_lt.mpr hwords), if_neg]
    rintro ⟨hrun, htimed⟩
    rw [hchannel hrun] at htimed
    cases htimed
  have hreturn := opsSendReturn_goodParam havail hgood
  rw [presentWords_some] at hreturn
  obtain ⟨t, hexec, hleft⟩ := perform_leaves_channel hnone (.refl c.toNat (unitAt s u)) hreturn
  refine ⟨t, hexec, hleft.frame, hleft.result, ?_⟩
  rw [hleft.channel]
  refine ⟨rfl, rfl, rfl, rfl, rfl, rfl, rfl, rfl, fun j hj => ?_, fun j hj hjw => ?_⟩
  · rw [queuedChannel_cmdMem, Memory.read_batch (hs := hwords), if_pos hj]
  · rw [queuedChannel_cmdMem, Memory.read_batch (hs := hwords), if_neg (Nat.not_lt.mpr hj), if_pos hjw]
    rfl

end Sys2Proof.Machine
end

section
/-! PROOFS. `fifo_set_start` (43_fifo_controller.md R198 to R201): start on a Queued channel, stop on any. -/

namespace Sys2Proof.Machine

section
variable {s : State} {u c : Int}

/-- The checks that come after the parameters (R198 lines 6 and 7). -/
theorem setStartRefusal_inRange (havail : Available s u) (hrange : ChannelInRange s u c) (start : Bool) :
    setStartRefusal Config.config u c start (unitAt s u) =
      if start then
        match (channelAt (unitAt s u) c.toNat).state with
        | .queued => none
        | .idle => some .startWithoutBatch
        | .running => some .startWhileRunning
      else none := by
  rw [setStartRefusal, avail_iff_available.mpr havail, badChannel_false_iff_inRange.mpr hrange]
  rfl

theorem setStartReturn_inRange (havail : Available s u) (hrange : ChannelInRange s u c) (start : Bool) :
    setStartReturn Config.config u c start (unitAt s u) =
      (setChannel (unitAt s u) c.toNat
        (setStartChannel (Config.config.freeRespMem u (unitAt s u).tick c.toNat) start
          (channelAt (unitAt s u) c.toNat))).finish (.status .ok) := by
  simp [setStartReturn, avail_iff_available.mpr havail, badChannel_false_iff_inRange.mpr hrange]

/-- A call that is not refused leaves the channel started, aborted or as it was. -/
theorem setStart_leaves_channel (havail : Available s u) (hrange : ChannelInRange s u c) {start : Bool}
    (hqueued : start = true → (channelAt (unitAt s u) c.toNat).state = .queued) :
    ∃ t drawn, exec (.fifoSetStart u c start) s = .next t ∧
      ChannelLeft u c.toNat (setStartChannel drawn start (channelAt (unitAt s u) c.toNat)) (.status .ok) s t := by
  have hnone : setStartRefusal Config.config u c start (unitAt s u) = none := by
    rw [setStartRefusal_inRange havail hrange]
    cases start with
    | true => simp [hqueued rfl]
    | false => rfl
  obtain ⟨t, hleft⟩ :=
    perform_leaves_channel hnone (.refl c.toNat (unitAt s u)) (setStartReturn_inRange havail hrange start)
  exact ⟨t, _, hleft⟩

end

/-- R198 lines 9 to 13: what a stop does, by the channel's state. -/
theorem setStartChannel_stop (drawn : List Word) (ch : Channel) :
    setStartChannel drawn false ch = if ch.state = .running then abortedChannel drawn ch else ch := by
  cases h : ch.state <;> simp [setStartChannel, h]

theorem channelZeroed_aborted (drawn : List Word) (ch : Channel) : ChannelZeroed (abortedChannel drawn ch) :=
  ⟨rfl, rfl, rfl, rfl, rfl, rfl⟩

/-- Settles O35: the channel is left started. -/
theorem setStartStarts : Obligations.SetStartStarts := by
  intro u c s havail hrange hqueued
  obtain ⟨t, drawn, hexec, hleft⟩ := setStart_leaves_channel havail hrange (start := true) fun _ => hqueued
  exact ⟨t, hexec, hleft.frame, hleft.result, hleft.channel⟩

/-- Settles O36: the channel is left aborted, or as it was. -/
theorem setStartStops : Obligations.SetStartStops := by
  intro u c s havail hrange
  obtain ⟨t, drawn, hexec, hleft⟩ := setStart_leaves_channel havail hrange (start := false) nofun
  refine ⟨t, hexec, hleft.frame, hleft.result, ?_⟩
  rw [hleft.channel, setStartChannel_stop]
  by_cases hrun : (channelAt (unitAt s u) c.toNat).state = .running
  · simp only [if_pos hrun]
    exact ⟨channelZeroed_aborted .., rfl, rfl⟩
  · simp only [if_neg hrun]

/-- Settles O37: the parameter error, and the two refusals. -/
theorem setStartTurnedAway : Obligations.SetStartTurnedAway := by
  intro u c start s havail
  refine ⟨fun hout => ?_, fun hrange hidle => ?_, fun hrange hrun => ?_⟩
  · have hbad := badChannel_true_iff.mpr hout
    rw [exec_fifoSetStart]
    exact perform_answers (by simp [setStartRefusal, avail_iff_available.mpr havail, hbad])
      (by simp [setStartReturn, avail_iff_available.mpr havail, hbad])
  · rw [exec_fifoSetStart, perform_refused_iff, setStartRefusal_inRange havail hrange, hidle]
    rfl
  · rw [exec_fifoSetStart, perform_refused_iff, setStartRefusal_inRange havail hrange, hrun]
    rfl

end Sys2Proof.Machine
end

section
/-! PROOFS. `fifo_status_get` (43_fifo_controller.md R205 to R212): parameters, refusals, a channel that is not Running, and
the poll of one that is. -/

namespace Sys2Proof.Machine

section
variable {s : State} {u c : Int} {n : Nat} {doneRef : Bool}

/-! ## The parameters -/

/-- A failed `fifo_status_get` only answers; where there is a count cell, something is in it (R83, R205). -/
theorem failedStatusGet_eq_finish {u : Int} (C : Configuration) (st : Status) (us : UnitState) :
    ∃ count ref, ∀ doneRef : Bool,
      failedStatusGet C u st doneRef us = us.finish (.completion st (if doneRef then some count else none) ref) :=
  ⟨_, _, fun _ => rfl⟩

theorem statusGet_badParam (havail : Available s u) (flags : Word)
    (hbad : statusGetBadParam (unitAt s u) c n doneRef = true) :
    ∃ t, exec (.fifoStatusGet u c n flags doneRef) s = .next t ∧ AnswerFrame u s t ∧
      (unitAt t u).result.status? = some .param := by
  have hcheck : ¬(!avail Config.config u (unitAt s u)) = true := by rw [avail_iff_available.mpr havail]; decide
  exact perform_answers_status ((if_neg hcheck).trans (if_pos hbad)) ((if_neg hcheck).trans (if_pos hbad)) rfl

theorem statusGet_goodParam (hrange : ChannelInRange s u c) (hn : 1 ≤ n) :
    statusGetBadParam (unitAt s u) c n true = false := by
  obtain ⟨hlow, hhigh⟩ := hrange
  rw [← Bool.not_eq_true, statusGetBadParam_iff]
  simp only [Bool.true_eq_false, or_false]
  omega

/-- The checks that come after the parameters (R205 lines 5 and 6). -/
theorem statusGetRefusal_goodParam (havail : Available s u) (flags : Word)
    (hgood : statusGetBadParam (unitAt s u) c n doneRef = false) :
    statusGetRefusal Config.config u c n flags doneRef (unitAt s u) =
      if flags ≠ 0 then some .flagsMeaning
      else if (channelAt (unitAt s u) c.toNat).state = .running ∧ n ≠ (channelAt (unitAt s u) c.toNat).numOps then
        some .numOpsMismatch
      else none := by
  rw [statusGetRefusal, avail_iff_available.mpr havail, hgood]
  rfl

/-- With good parameters a Running channel is polled, and any other times out. -/
theorem statusGetReturn_goodParam (havail : Available s u)
    (hgood : statusGetBadParam (unitAt s u) c n doneRef = false) :
    statusGetReturn Config.config u c n doneRef (unitAt s u) =
      if (channelAt (unitAt s u) c.toNat).state = .running then
        pollRunning Config.config u c.toNat n doneRef (unitAt s u)
      else failedStatusGet Config.config u .timeout doneRef (unitAt s u) := by
  rw [statusGetReturn, avail_iff_available.mpr havail, hgood]
  cases (channelAt (unitAt s u) c.toNat).state <;> rfl

end

/-- A poll completes or times out, and gives no other status. -/
theorem pollRunning_status (C : Configuration) (u : Int) (c n : Nat) (doneRef : Bool) (us : UnitState) :
    (pollRunning C u c n doneRef us).result.status? = some .ok ∨
      (pollRunning C u c n doneRef us).result.status? = some .timeout := by
  simp only [pollRunning]
  split
  · exact .inl rfl
  · exact .inr rfl

/-- Settles O41: bad parameters are answered `E_PARAM`, and with good ones the status is `OK` or `E_TIMEOUT`. -/
theorem statusGetParameterErrors : Obligations.StatusGetParameterErrors := by
  intro u c n flags doneRef s havail
  rw [← statusGetBadParam_iff]
  cases hbad : statusGetBadParam (unitAt s u) c n doneRef with
  | true =>
    obtain ⟨t, hexec, hframe, hresult⟩ := statusGet_badParam havail flags hbad
    refine ⟨⟨fun _ => rfl, fun _ => ⟨t, hexec, hresult⟩⟩, fun t' hexec' _ => ?_⟩
    obtain rfl : t = t' := Host.Outcome.next.inj (hexec.symm.trans hexec')
    exact hframe
  | false =>
    have hother : ∀ t, exec (.fifoStatusGet u c n flags doneRef) s = .next t →
        (unitAt t u).result.status? ≠ some .param := by
      intro t hexec
      rw [exec_fifoStatusGet] at hexec
      obtain ⟨-, rfl⟩ := perform_next_iff.mp hexec
      rw [unitAt_setUnit_same, statusGetReturn_goodParam havail hbad]
      split
      · rcases pollRunning_status Config.config u c.toNat n doneRef (unitAt s u) with h | h
        · rw [h]; decide
        · rw [h]; decide
      · obtain ⟨count, ref, hfailed⟩ := failedStatusGet_eq_finish Config.config .timeout (unitAt s u) (u := u)
        rw [hfailed, finish_result]
        simp [Result.status?]
    exact ⟨⟨fun ⟨t, hexec, hresult⟩ => absurd hresult (hother t hexec), fun h => absurd h (by decide)⟩,
      fun t hexec hresult => absurd hresult (hother t hexec)⟩

/-- Settles O42: the two refusals, in their order. -/
theorem statusGetRefusals : Obligations.StatusGetRefusals := by
  intro u c n flags s havail hrange hn
  rw [exec_fifoStatusGet, perform_refused_iff, perform_refused_iff,
    statusGetRefusal_goodParam havail flags (statusGet_goodParam hrange hn)]
  refine ⟨fun hflags => if_pos hflags, fun hflags hrun hcount => ?_⟩
  rw [if_neg (not_not.mpr hflags)]
  exact if_pos ⟨hrun, hcount⟩

/-! ## The poll -/

/-- How a poll ends after the engine took `k` steps (R207): every operation is complete and the channel is completed with
some stamp, or the bound was reached and the channel is marked. A batch complete on entry does not time out where a poll is
allowed. -/
inductive PollEnd (u : Int) (c n k : Nat) (s t : State) : Prop where
  | completed (stamp : Nat) :
    (unitAt s u).maxPolls ≠ 0 → (channelAt (unitAt s u) c).done + k = n →
    ChannelLeft u c (completedChannel stamp (channelAt (engineRun Config.config u c k (unitAt s u)) c))
      (.completion .ok (some n) { unit := u, channel := c, stamp := stamp }) s t →
    PollEnd u c n k s t
  | timedOut (count : Nat) (ref : RespRef) :
    ¬((unitAt s u).maxPolls ≠ 0 ∧ (channelAt (unitAt s u) c).done = n) →
    ChannelLeft u c (timedOutChannel (channelAt (engineRun Config.config u c k (unitAt s u)) c))
      (.completion .timeout (some count) ref) s t →
    PollEnd u c n k s t

/-- The channel after `k` engine steps: response words appended, and `DONE` grown by `k`. -/
def StepsTaken (C : Configuration) (u : Int) (c k : Nat) (us : UnitState) : Prop :=
  ∃ pieces, channelAt (engineRun C u c k us) c =
    { channelAt us c with respMem := (channelAt us c).respMem ++ pieces, done := (channelAt us c).done + k }

section
variable {s : State} {u c : Int} {n : Nat}

/-- On a Running channel the engine takes some of the steps left, and the poll ends. -/
theorem statusGet_polls (havail : Available s u) (hrange : ChannelInRange s u c) (hn : 1 ≤ n)
    (hrun : (channelAt (unitAt s u) c.toNat).state = .running)
    (hcount : (channelAt (unitAt s u) c.toNat).numOps = n) :
    ∃ t k, exec (.fifoStatusGet u c n 0 true) s = .next t ∧ k ≤ n - (channelAt (unitAt s u) c.toNat).done ∧
      StepsTaken Config.config u c.toNat k (unitAt s u) ∧ PollEnd u c.toNat n k s t := by
  have hgood := statusGet_goodParam hrange hn
  have hnone : statusGetRefusal Config.config u c n 0 true (unitAt s u) = none := by
    rw [statusGetRefusal_goodParam havail 0 hgood, if_neg (not_not.mpr rfl), if_neg fun h => h.2 hcount.symm]
  have hreturn := statusGetReturn_goodParam havail hgood
  rw [if_pos hrun] at hreturn
  obtain ⟨k, pieces, hk, hbase, -, hother, hchannel, hend⟩ :=
    pollRunning_spec Config.config u c.toNat n true (unitAt s u) hrun hcount
  have hsame := hbase.sameButChannel hother
  rw [exec_fifoStatusGet]
  rcases hend with ⟨hpolls, hdone, hcompleted⟩ | ⟨hnot, count, ref, htimedOut⟩
  · obtain ⟨t, hexec, hleft⟩ := perform_leaves_channel hnone hsame (hreturn.trans hcompleted)
    exact ⟨t, k, hexec, hk, ⟨pieces, hchannel⟩, .completed _ hpolls hdone hleft⟩
  · obtain ⟨t, hexec, hleft⟩ := perform_leaves_channel hnone hsame (hreturn.trans htimedOut)
    exact ⟨t, k, hexec, hk, ⟨pieces, hchannel⟩, .timedOut count ref hnot hleft⟩

/-- R207 (d), R212: any other channel times out at once. -/
theorem statusGet_notRunning (havail : Available s u) (hrange : ChannelInRange s u c) (hn : 1 ≤ n)
    (hstate : (channelAt (unitAt s u) c.toNat).state ≠ .running) :
    ∃ t count ref, exec (.fifoStatusGet u c n 0 true) s = .next t ∧ AnswerFrame u s t ∧
      (unitAt t u).result = .completion .timeout count ref := by
  have hgood := statusGet_goodParam hrange hn
  obtain ⟨count, ref, hfailed⟩ := failedStatusGet_eq_finish Config.config .timeout (unitAt s u) (u := u)
  have hnone : statusGetRefusal Config.config u c n 0 true (unitAt s u) = none := by
    rw [statusGetRefusal_goodParam havail 0 hgood, if_neg (not_not.mpr rfl), if_neg fun h => hstate h.1]
  have hreturn := statusGetReturn_goodParam havail hgood
  rw [if_neg hstate, hfailed] at hreturn
  obtain ⟨t, hanswer⟩ := perform_answers hnone hreturn
  exact ⟨t, _, _, hanswer⟩

end

theorem channelZeroed_completed (stamp : Nat) (ch : Channel) : ChannelZeroed (completedChannel stamp ch) :=
  ⟨rfl, rfl, rfl, rfl, rfl, rfl⟩

/-- Settles O38: with nothing left the engine takes no step, and the batch does not time out. -/
theorem statusGetCompletes : Obligations.StatusGetCompletes := by
  intro u c n s havail hrange hn hrun hcount hdone hpolls
  obtain ⟨t, k, hexec, hk, -, hend⟩ := statusGet_polls havail hrange hn hrun hcount
  obtain rfl : k = 0 := by omega
  cases hend with
  | timedOut count ref hnot hleft => exact absurd ⟨hpolls, hdone⟩ hnot
  | completed stamp _ _ hleft =>
    refine ⟨t, _, hexec, hleft.frame, hleft.result, rfl, rfl, ?_⟩
    rw [hleft.channel]
    exact ⟨channelZeroed_completed .., rfl, rfl, rfl⟩

/-- Settles O39: the two ends of a poll. -/
theorem statusGetPolls : Obligations.StatusGetPolls := by
  intro u c n s havail hrange hn hrun hcount
  obtain ⟨t, k, hexec, hk, ⟨pieces, htaken⟩, hend⟩ := statusGet_polls havail hrange hn hrun hcount
  cases hend with
  | completed stamp hpolls hdone hleft =>
    refine ⟨t, _, k, hexec, hleft.frame, hk, .inl ⟨hleft.result, hpolls, hdone, rfl, rfl, ?_⟩⟩
    rw [hleft.channel, htaken]
    rfl
  | timedOut count ref hnot hleft =>
    refine ⟨t, ref, k, hexec, hleft.frame, hk, .inr ⟨⟨count, hleft.result⟩, ?_, hleft.channel⟩⟩
    rw [hleft.channel, timedOutChannel_done, htaken]

/-- Settles O40: with no poll allowed no batch completes, and a channel that is not Running is not polled. -/
theorem statusGetTimesOut : Obligations.StatusGetTimesOut := by
  intro u c n s havail hrange hn
  refine ⟨fun hrun hcount hpolls => ?_, statusGet_notRunning havail hrange hn⟩
  obtain ⟨t, k, hexec, -, ⟨pieces, htaken⟩, hend⟩ := statusGet_polls havail hrange hn hrun hcount
  cases hend with
  | completed stamp hsome _ _ => exact absurd hpolls hsome
  | timedOut count ref _ hleft =>
    refine ⟨t, _, _, hexec, hleft.frame, hleft.result, ?_⟩
    rw [hleft.channel, timedOutChannel_state, htaken]
    exact ⟨hrun, rfl⟩

end Sys2Proof.Machine
end

section
/-! PROOFS. Response references (43_fifo_controller.md R211; 44_registry_lifecycle.md R232): a read through one, and their
end by an attach. -/

namespace Sys2Proof.Machine

theorem refAlive_iff {us : UnitState} {ref : RespRef} :
    refAlive us ref = true ↔ (channelAt us ref.channel).respRef = some ref.stamp := by
  simp [refAlive]

theorem step_readResponse {s : State} {ref : RespRef} {rest : List Event} (h : s.inbox = .readResponse ref :: rest) :
    step s = readResponse ref { s with inbox := rest } := step_eq_runEvent h

/-- A read through a dead reference is refused (U6). -/
theorem readResponse_dead {s : State} {ref : RespRef}
    (h : (channelAt (unitAt s ref.unit) ref.channel).respRef ≠ some ref.stamp) :
    readResponse ref s = .refused .deadResponseReference :=
  perform_refused_iff.mpr (if_neg (mt refAlive_iff.mp h))

/-- Settles O43: the step is the read, and a reference that is good is one that is alive. -/
theorem responseReferenceRead : Obligations.ResponseReferenceRead := by
  intro ref rest s hinbox
  rw [step_readResponse hinbox]
  exact ⟨fun hgood => perform_answers (s := { s with inbox := rest }) (if_pos (refAlive_iff.mpr hgood)) rfl,
    fun hdead => readResponse_dead (s := { s with inbox := rest }) hdead⟩

/-- R230 line 8: no channel of a freshly attached unit has a good reference. -/
theorem attachedUnit_respRef (C : Configuration) (u : Int) (backend : Option Backend) (us : UnitState) (c : Nat) :
    (channelAt (attachedUnit C u backend us) c).respRef = none := by
  rw [channelAt_attachedUnit]
  split
  · rfl
  · rfl

/-- Settles O60: an attach answered `OK` attached the unit, and there every reference is dead. -/
theorem attachEndsReferences : Obligations.AttachEndsReferences := by
  intro u s t hexec hok
  obtain ⟨-, rfl⟩ := perform_next_iff.mp (show fifoAttach Config.config u s = .next t from hexec)
  have hnone : ∀ c,
      (channelAt (unitAt (setUnit s u (attachReturn Config.config u (unitAt s u))) u) c).respRef = none := by
    intro c
    rw [unitAt_setUnit_same] at hok ⊢
    unfold attachReturn at hok ⊢
    split at hok
    next hslot =>
      rw [if_pos hslot, finish_channelAt]
      exact attachedUnit_respRef ..
    next => cases hok
  refine ⟨hnone, fun ref rest href => ?_⟩
  subst href
  rw [step_readResponse rfl]
  refine readResponse_dead ?_
  rw [unitAt_inbox, unitAt_inbox, hnone]
  exact nofun

end Sys2Proof.Machine
end

section
/-! PROOFS. The channel engine (43_fifo_controller.md R215 to R217; 44_registry_lifecycle.md R238): one event, and a started
batch given as many as it has operations. -/

namespace Sys2Proof.Machine

theorem engineExists_iff {C : Configuration} {u : Int} {c : Nat} {us : UnitState} :
    engineExists C u c us = true ↔ 0 ≤ u ∧ u < C.numUnits ∧ c < us.channelCount := by
  simp [engineExists, unitInRange_iff, and_assoc]

/-- The channel of an enabled engine after its step. -/
theorem engineStep_channel {C : Configuration} {u : Int} {c : Nat} {us : UnitState}
    (h : engineEnabled (channelAt us c) = true) :
    channelAt (engineStep C u c us) c = completedOp (nextPiece C u c us) (channelAt us c) := by
  rw [engineStep_enabled h, channelAt_tick, channelAt_setChannel_same]

section
variable {s : State} {u : Int} {c : Nat} {rest : List Event}

/-- The step of an engine event is the engine's step. -/
theorem step_engine (hinbox : s.inbox = .engine u c :: rest) (hslot : 0 ≤ u ∧ u < Config.config.numUnits)
    (hc : c < (unitAt s u).channelCount) :
    step s = .next (setUnit { s with inbox := rest } u (engineStep Config.config u c (unitAt s u))) := by
  rw [step_eq_runEvent hinbox]
  exact if_pos (engineExists_iff.mpr ⟨hslot.1, hslot.2, hc⟩)

theorem step_engine_absent (hinbox : s.inbox = .engine u c :: rest)
    (habsent : ¬(0 ≤ u ∧ u < Config.config.numUnits ∧ c < (unitAt s u).channelCount)) :
    step s = .fault (.noSuchEngine u c) := by
  rw [step_eq_runEvent hinbox]
  exact if_neg (mt engineExists_iff.mp habsent)

end

/-- Settles O45: an engine that is not enabled leaves its unit as it was. -/
theorem engineIdleOrAbsent : Obligations.EngineIdleOrAbsent := by
  intro u c rest s hinbox
  refine ⟨fun hslot hc hnot => ⟨_, step_engine hinbox hslot hc, rfl, rfl, fun v => ?_⟩, step_engine_absent hinbox⟩
  rw [engineStep_disabled (Bool.not_eq_true _ ▸ mt engineEnabled_iff.mp hnot)]
  by_cases hv : v = u
  · rw [hv, unitAt_setUnit_same]
  · rw [unitAt_setUnit_other _ _ hv, unitAt_inbox]

/-- Settles O44: an enabled engine completes one operation of its channel, and touches that channel alone. -/
theorem engineCompletesOneOperation : Obligations.EngineCompletesOneOperation := by
  intro u c rest s hinbox hslot hc hrun hleft
  have henabled : engineEnabled (channelAt (unitAt s u) c) = true := engineEnabled_iff.mpr ⟨hrun, hleft⟩
  have hsame : SameButChannel c (unitAt s u) (engineStep Config.config u c (unitAt s u)) :=
    (engineStep_base ..).sameButChannel fun _ hd => engineStep_other _ _ _ hd
  refine ⟨_, step_engine hinbox hslot hc, SameButChannel.channelFrame (s := { s with inbox := rest }) hsame, ?_⟩
  rw [unitAt_setUnit_same, engineStep_channel henabled, engineStep_enabled henabled]
  exact ⟨rfl, rfl⟩

/-! ## A batch given all its steps -/

/-- As many engine events as `k` are `k` steps of the machine, which run the engine `k` times. -/
theorem run_engine_events {u : Int} {c : Nat} {rest : List Event} (hslot : 0 ≤ u ∧ u < Config.config.numUnits) (k : Nat)
    (s : State) (hc : c < (unitAt s u).channelCount) (hinbox : s.inbox = List.replicate k (.engine u c) ++ rest) :
    ∃ t : State, Host.Core.run Sys2Proof.core k s = .next t ∧ t.inbox = rest ∧
      unitAt t u = engineRun Config.config u c k (unitAt s u) := by
  induction k generalizing s with
  | zero => exact ⟨s, rfl, hinbox, rfl⟩
  | succ k ih =>
    have hunit := unitAt_setUnit_same { s with inbox := List.replicate k (.engine u c) ++ rest } u
      (engineStep Config.config u c (unitAt s u))
    have hcount := (engineStep_base Config.config u c (unitAt s u)).controller.channelCount
    obtain ⟨t, hrun, hrest, ht⟩ := ih _ (by rw [hunit, hcount]; exact hc) rfl
    rw [hunit] at ht
    exact ⟨t, (run_next (M := Sys2Proof.core) (step_engine hinbox hslot hc)).trans hrun, hrest, ht⟩

/-- A unit with the controller's fields as they were is available as it was. -/
theorem Available.of_sameController {s t : State} {u : Int} (h : Available s u)
    (hsame : SameController (unitAt s u) (unitAt t u)) : Available t u :=
  ⟨hsame.present.trans h.present, hsame.active.trans h.active, hsame.bound.trans h.bound, h.slot⟩

/-- Settles O59: after the engine's steps every operation is complete, and O38 answers the call. -/
theorem startedBatchCompletes : Obligations.StartedBatchCompletes := by
  intro u c n s havail hc hn hrun hcount hle hpolls hinbox
  obtain ⟨m, hsteps, hm, hunit⟩ := run_engine_events havail.slot _ s hc hinbox
  obtain ⟨pieces, hchannel, -, ⟨hcontroller, -⟩, -⟩ :=
    engineRun_spec Config.config u c (n - (channelAt (unitAt s u) c).done) (unitAt s u) hrun (by omega)
  rw [← hunit] at hchannel hcontroller
  have hrange : ChannelInRange m u c :=
    ⟨Int.natCast_nonneg c, by rw [hcontroller.channelCount]; exact Int.ofNat_lt.mpr hc⟩
  have hrun' : (channelAt (unitAt m u) c).state = .running := by rw [hchannel]; exact hrun
  have hcount' : (channelAt (unitAt m u) c).numOps = n := by rw [hchannel]; exact hcount
  have hdone : (channelAt (unitAt m u) c).done = n := by
    rw [hchannel]
    exact Nat.add_sub_cancel' hle
  have hpolls' : (unitAt m u).maxPolls ≠ 0 := by rw [hcontroller.maxPolls]; exact hpolls
  obtain ⟨t, ref, hexec, -, hresult, hrefUnit, hrefChannel, hzeroed, hgood, -, -⟩ :=
    statusGetCompletes u c n { m with inbox := [] } (havail.of_sameController hcontroller) hrange hn hrun' hcount' hdone
      hpolls'
  have hstep : step m = .next t := (stepRunsDecodedCall m _ [] _ hm (decodeEncode _ rfl)).trans hexec
  exact ⟨t, ref, (run_snoc (M := Sys2Proof.core) hsteps).trans hstep, hresult, hrefUnit, hrefChannel, hzeroed, hgood⟩

end Sys2Proof.Machine
end

section
/-! PROOFS. What an operation on one channel may touch (43_fifo_controller.md R212, R220, R221): it writes and reads its own
channel alone, and `CHSTATE` moves along the rows of the transition table. -/

namespace Sys2Proof.Machine

/-! ## It writes its own channel alone -/

section
variable {C : Configuration} {u : Int} {us us' : UnitState}

theorem sameButChannel_pollRunning {c n : Nat} {doneRef : Bool} (hrun : (channelAt us c).state = .running)
    (hcount : (channelAt us c).numOps = n) : SameButChannel c us (pollRunning C u c n doneRef us) := by
  obtain ⟨k, -, -, hbase, -, hother, -, hend⟩ := pollRunning_spec C u c n doneRef us hrun hcount
  have hsame := hbase.sameButChannel hother
  rcases hend with ⟨-, -, hcompleted⟩ | ⟨-, count, ref, htimedOut⟩
  · rw [hcompleted]
    exact (hsame.setChannel _).finish _
  · rw [htimedOut]
    exact (hsame.setChannel _).finish _

/-- Every change that an operation on one channel can make of its unit. -/
theorem UnitEffect.sameButChannel {i : Instr} {c : Int} (he : UnitEffect C u us i us') (hc : channelOf i = some c) :
    SameButChannel c.toNat us us' := by
  cases he with
  | answer _ r => exact (SameButChannel.refl _ us).finish r
  | message _ _ hnone _ => rw [hnone] at hc; cases hc
  | attach _ _ => cases hc
  | detach _ => cases hc
  | init _ _ => cases hc
  | send d n words size _ _ _ _ _ _ => cases hc; exact ((SameButChannel.refl d us).setChannel _).finish _
  | start d _ _ _ => cases hc; exact ((SameButChannel.refl d us).setChannel _).finish _
  | stop d _ _ _ => cases hc; exact ((SameButChannel.refl d us).setChannel _).finish _
  | stopNothing d _ _ _ => cases hc; exact ((SameButChannel.refl d us).setChannel _).finish _
  | poll d n _ _ _ hrun hcount => cases hc; exact sameButChannel_pollRunning hrun hcount

end

/-- Settles O46, from what an instruction can do at its unit and O48. -/
theorem channelsWriteOnlyOwn : Obligations.ChannelsWriteOnlyOwn := by
  intro i c s t hc hexec
  obtain ⟨hcontroller, hchannels, hmsg⟩ := (exec_effect hexec).sameButChannel hc
  exact ⟨unitsWriteOnlyOwn i s t hexec, hcontroller, hchannels, hmsg⟩

/-! ## It reads its own channel alone -/

/-- What an operation on channel `c` can see: the controller's fields, the unit's next draw and that channel. -/
structure SeenAlike (c : Nat) (a b : UnitState) : Prop where
  controller : SameController a b
  tick : b.tick = a.tick
  channel : channelAt b c = channelAt a c

/-- What it can leave there: the result and that channel. -/
structure LeftAlike (c : Nat) (a b : UnitState) : Prop where
  result : b.result = a.result
  channel : channelAt b c = channelAt a c

section
variable {C : Configuration} {u c : Int} {k : Nat} {a b : UnitState}

theorem SeenAlike.avail_eq (h : SeenAlike k a b) : avail C u b = avail C u a := by
  rw [avail, avail, h.controller.present, h.controller.active, h.controller.bound]

theorem SeenAlike.badChannel_eq (h : SeenAlike k a b) : badChannel b c = badChannel a c := by
  rw [badChannel, badChannel, h.controller.channelCount]

theorem SeenAlike.opsSendBadParam_eq {n size : Nat} {words : Option (List Word)} (h : SeenAlike k a b) :
    opsSendBadParam b c n words size = opsSendBadParam a c n words size := by
  rw [opsSendBadParam, opsSendBadParam, h.badChannel_eq, h.controller.cmdMemWsize]

theorem SeenAlike.statusGetBadParam_eq {n : Nat} {doneRef : Bool} (h : SeenAlike k a b) :
    statusGetBadParam b c n doneRef = statusGetBadParam a c n doneRef := by
  rw [statusGetBadParam, statusGetBadParam, h.badChannel_eq]

/-! ## The refusals -/

theorem SeenAlike.opsSendRefusal_eq {n size : Nat} {words : Option (List Word)} {flags : Word}
    (h : SeenAlike c.toNat a b) :
    opsSendRefusal C u c n words size flags b = opsSendRefusal C u c n words size flags a := by
  rw [opsSendRefusal, opsSendRefusal, h.avail_eq, h.opsSendBadParam_eq, h.channel]

theorem SeenAlike.setStartRefusal_eq {start : Bool} (h : SeenAlike c.toNat a b) :
    setStartRefusal C u c start b = setStartRefusal C u c start a := by
  rw [setStartRefusal, setStartRefusal, h.avail_eq, h.badChannel_eq, h.channel]

theorem SeenAlike.statusGetRefusal_eq {n : Nat} {flags : Word} {doneRef : Bool} (h : SeenAlike c.toNat a b) :
    statusGetRefusal C u c n flags doneRef b = statusGetRefusal C u c n flags doneRef a := by
  rw [statusGetRefusal, statusGetRefusal, h.avail_eq, h.statusGetBadParam_eq, h.channel]

/-! ## The effects -/

theorem SeenAlike.finish (h : SeenAlike k a b) (r : Result) : LeftAlike k (a.finish r) (b.finish r) :=
  ⟨rfl, h.channel⟩

theorem leftAlike_setChannel (ch : Channel) (r : Result) :
    LeftAlike k ((setChannel a k ch).finish r) ((setChannel b k ch).finish r) := by
  refine ⟨rfl, ?_⟩
  rw [finish_channelAt, finish_channelAt, channelAt_setChannel_same, channelAt_setChannel_same]

theorem SeenAlike.opsSendReturn_alike {n size : Nat} {words : Option (List Word)} (h : SeenAlike c.toNat a b) :
    LeftAlike c.toNat (opsSendReturn C u c n words size a) (opsSendReturn C u c n words size b) := by
  rw [opsSendReturn, opsSendReturn, h.avail_eq, h.opsSendBadParam_eq, h.controller.cmdMemWsize, h.tick,
    h.channel]
  split
  · exact h.finish _
  split
  · exact h.finish _
  · exact leftAlike_setChannel ..

theorem SeenAlike.setStartReturn_alike {start : Bool} (h : SeenAlike c.toNat a b) :
    LeftAlike c.toNat (setStartReturn C u c start a) (setStartReturn C u c start b) := by
  rw [setStartReturn, setStartReturn, h.avail_eq, h.badChannel_eq, h.tick, h.channel]
  split
  · exact h.finish _
  split
  · exact h.finish _
  · exact leftAlike_setChannel ..

theorem SeenAlike.failedStatusGet_alike {st : Status} {doneRef : Bool} (h : SeenAlike k a b) :
    LeftAlike k (failedStatusGet C u st doneRef a) (failedStatusGet C u st doneRef b) := by
  rw [failedStatusGet, failedStatusGet, h.tick]
  exact h.finish _

/-- The engine of the channel reads nothing else of the unit (R215). -/
theorem SeenAlike.engineStep_alike (h : SeenAlike k a b) : SeenAlike k (engineStep C u k a) (engineStep C u k b) := by
  cases he : engineEnabled (channelAt a k) with
  | false =>
    rw [engineStep_disabled he, engineStep_disabled (by rw [h.channel]; exact he)]
    exact h
  | true =>
    have he' : engineEnabled (channelAt b k) = true := by rw [h.channel]; exact he
    refine ⟨?_, ?_, ?_⟩
    · rw [engineStep_enabled he, engineStep_enabled he']
      exact ⟨h.controller.present, h.controller.active, h.controller.bound, h.controller.ops,
        h.controller.channelCount, h.controller.cmdMemWsize, h.controller.maxPolls, h.controller.initFlags⟩
    · rw [engineStep_enabled he, engineStep_enabled he']
      exact congrArg (· + 1) h.tick
    · rw [engineStep_channel he, engineStep_channel he', nextPiece, nextPiece, h.tick, h.channel]

theorem SeenAlike.engineRun_alike (m : Nat) (h : SeenAlike k a b) :
    SeenAlike k (engineRun C u k m a) (engineRun C u k m b) := by
  induction m generalizing a b with
  | zero => exact h
  | succ m ih => exact ih h.engineStep_alike

theorem SeenAlike.pollRunning_alike {n : Nat} {doneRef : Bool} (h : SeenAlike k a b) :
    LeftAlike k (pollRunning C u k n doneRef a) (pollRunning C u k n doneRef b) := by
  have hsteps : pollSteps C u b = pollSteps C u a := by
    funext ch
    rw [pollSteps, pollSteps, h.tick]
  have hsees : pollSucceeds C u b = pollSucceeds C u a := by
    funext m entry after
    rw [pollSucceeds, pollSucceeds, h.tick, h.controller.maxPolls]
  have hrun := h.engineRun_alike (C := C) (u := u) (pollSteps C u a (channelAt a k))
  simp only [pollRunning, h.channel, hsteps, hsees, hrun.channel, hrun.tick]
  split
  · exact leftAlike_setChannel ..
  · rw [failedStatusGet, failedStatusGet, setChannel_tick, setChannel_tick, hrun.tick]
    exact leftAlike_setChannel ..

theorem SeenAlike.statusGetReturn_alike {n : Nat} {doneRef : Bool} (h : SeenAlike c.toNat a b) :
    LeftAlike c.toNat (statusGetReturn C u c n doneRef a) (statusGetReturn C u c n doneRef b) := by
  rw [statusGetReturn, statusGetReturn, h.avail_eq, h.statusGetBadParam_eq, h.channel]
  split
  · exact h.failedStatusGet_alike
  split
  · exact h.failedStatusGet_alike
  split
  · exact h.pollRunning_alike
  · exact h.failedStatusGet_alike
  · exact h.failedStatusGet_alike

end

/-- An operation on one channel is a host operation whose refusal and effect see that channel alone. -/
theorem exec_channel_perform {i : Instr} {c : Int} (hc : channelOf i = some c) :
    ∃ (refusal : UnitState → Option Refusal) (effect : UnitState → UnitState),
      (∀ s, exec i s = perform s i.unit (refusal (unitAt s i.unit)) effect) ∧
        ∀ a b, SeenAlike c.toNat a b → refusal b = refusal a ∧ LeftAlike c.toNat (effect a) (effect b) := by
  rcases channelOf_cases hc with ⟨u, n, words, size, flags, rfl⟩ | ⟨u, start, rfl⟩ | ⟨u, n, flags, doneRef, rfl⟩
  · exact ⟨_, _, exec_fifoOpsSend u c n words size flags, fun _ _ h => ⟨h.opsSendRefusal_eq, h.opsSendReturn_alike⟩⟩
  · exact ⟨_, _, exec_fifoSetStart u c start, fun _ _ h => ⟨h.setStartRefusal_eq, h.setStartReturn_alike⟩⟩
  · exact ⟨_, _, exec_fifoStatusGet u c n flags doneRef, fun _ _ h => ⟨h.statusGetRefusal_eq, h.statusGetReturn_alike⟩⟩

/-- Settles O47: what the operation sees is alike in the two states, so its refusal is one, and what it leaves is alike. -/
theorem channelsReadOnlyOwn : Obligations.ChannelsReadOnlyOwn := by
  intro i c s s' hc hcontroller htick hchannel
  obtain ⟨refusal, effect, hexec, halike⟩ := exec_channel_perform hc
  obtain ⟨hrefusal, hresult, hleft⟩ := halike _ _ ⟨hcontroller, htick, hchannel⟩
  rw [hexec, hexec, hrefusal]
  constructor
  · intro t h
    obtain ⟨hnone, rfl⟩ := perform_next_iff.mp h
    refine ⟨_, perform_next_iff.mpr ⟨hnone, rfl⟩, ?_⟩
    rw [unitAt_setUnit_same, unitAt_setUnit_same]
    exact ⟨hresult, hleft⟩
  · intro r h
    exact perform_refused_iff.mpr (perform_refused_iff.mp h)

/-! ## The transition table (R220) -/

/-- R230 line 8: every channel of a freshly attached unit is Idle. -/
theorem attachedUnit_state (C : Configuration) (u : Int) (backend : Option Backend) (us : UnitState) (c : Nat) :
    (channelAt (attachedUnit C u backend us) c).state = .idle := by
  rw [channelAt_attachedUnit]
  split
  · rfl
  · rfl

/-- A poll that moves `CHSTATE` completes the batch. -/
theorem pollRunning_moves {C : Configuration} {u : Int} {c n : Nat} {us : UnitState}
    (hrun : (channelAt us c).state = .running) (hcount : (channelAt us c).numOps = n)
    (hmoved : (channelAt (pollRunning C u c n true us) c).state ≠ (channelAt us c).state) :
    (channelAt (pollRunning C u c n true us) c).state = .idle ∧
      (pollRunning C u c n true us).result.status? = some .ok := by
  obtain ⟨k, pieces, -, -, -, -, hchannel, hend⟩ := pollRunning_spec C u c n true us hrun hcount
  rcases hend with ⟨-, -, hcompleted⟩ | ⟨-, count, ref, htimedOut⟩
  · rw [hcompleted, finish_channelAt, channelAt_setChannel_same]
    exact ⟨rfl, rfl⟩
  · refine absurd ?_ hmoved
    rw [htimedOut, finish_channelAt, channelAt_setChannel_same, timedOutChannel_state, hchannel]

/-- Every change an instruction can make of its unit moves `CHSTATE` along a row, if at all. -/
theorem UnitEffect.transition {C : Configuration} {u : Int} {us us' : UnitState} {i : Instr} {c : Nat}
    (he : UnitEffect C u us i us') (hmoved : (channelAt us' c).state ≠ (channelAt us c).state) :
    Transition u c (channelAt us c) i (channelAt us' c).state ∧ us'.result.status? = some .ok := by
  have hown : ∀ d : Nat, channelOf i = some (d : Int) → c = d := by
    intro d hd
    by_contra hne
    exact hmoved (by rw [(he.sameButChannel hd).channels c hne])
  cases he with
  | answer _ r => exact absurd rfl hmoved
  | message _ _ _ hm => exact absurd (by rw [hm.shape]; rfl) hmoved
  | detach _ => exact absurd rfl hmoved
  | init _ _ => exact absurd rfl hmoved
  | attach _ hnot =>
    rw [finish_channelAt, attachedUnit_state] at hmoved ⊢
    have hqueued : (channelAt us c).state = .queued := by
      cases hs : (channelAt us c).state with
      | idle => exact absurd hs.symm hmoved
      | queued => rfl
      | running => exact absurd hs (hnot c)
    exact ⟨.attach hqueued, rfl⟩
  | send d n words size _ _ _ _ _ hidle =>
    obtain rfl := hown d rfl
    rw [finish_channelAt, channelAt_setChannel_same, queuedChannel_state] at hmoved ⊢
    cases hs : (channelAt us c).state with
    | idle => exact ⟨.sendIdle n words size hs, rfl⟩
    | queued => exact absurd hs.symm hmoved
    | running => exact ⟨.sendTimedOut n words size hs (hidle hs), rfl⟩
  | start d _ _ hqueued =>
    obtain rfl := hown d rfl
    rw [finish_channelAt, channelAt_setChannel_same]
    exact ⟨.start hqueued, rfl⟩
  | stop d _ _ hrun =>
    obtain rfl := hown d rfl
    rw [finish_channelAt, channelAt_setChannel_same]
    exact ⟨.stop hrun, rfl⟩
  | stopNothing d _ _ _ =>
    obtain rfl := hown d rfl
    rw [finish_channelAt, channelAt_setChannel_same] at hmoved
    exact absurd rfl hmoved
  | poll d n _ _ _ hrun hcount =>
    obtain rfl := hown d rfl
    obtain ⟨hidle, hok⟩ := pollRunning_moves hrun hcount hmoved
    rw [hidle, ← hcount]
    exact ⟨.complete hrun, hcount.symm ▸ hok⟩

/-- R220: no row is an engine's. -/
theorem engineStep_state (C : Configuration) (u : Int) (c d : Nat) (us : UnitState) :
    (channelAt (engineStep C u c us) d).state = (channelAt us d).state := by
  cases he : engineEnabled (channelAt us c) with
  | false => rw [engineStep_disabled he]
  | true =>
    rw [engineStep_enabled he, channelAt_tick, channelAt_setChannel]
    split
    next hd => rw [hd, completedOp_state]
    next => rfl

/-- Settles O57: a unit with a moved `CHSTATE` is the instruction's own (O48), and there a move is a row. -/
theorem channelStateTransitions : Obligations.ChannelStateTransitions := by
  constructor
  · intro i s t u c hexec hmoved
    obtain rfl : u = i.unit := by
      by_contra hother
      exact hmoved (by rw [(unitsWriteOnlyOwn i s t hexec).others u hother])
    exact (exec_effect hexec).transition hmoved
  · intro s t u v c d rest hinbox hstep
    rw [step_eq_runEvent hinbox] at hstep
    simp only [runEvent, runEngine] at hstep
    split at hstep
    next =>
      cases hstep
      by_cases hv : v = u
      · rw [hv, unitAt_setUnit_same]
        exact engineStep_state ..
      · rw [unitAt_setUnit_other _ _ hv, unitAt_inbox]
    next => cases hstep

end Sys2Proof.Machine
end

section
/-! PROOFS. `fifo_attach` and `fifo_detach` (44_registry_lifecycle.md R230, R236), and what keeps `PRESENT`
(R237). -/

namespace Sys2Proof.Machine

/-! ## The operations as host operations -/

theorem exec_fifoAttach (u : Int) (s : State) :
    exec (.fifoAttach u) s =
      perform s u (attachRefusal Config.config u (unitAt s u)) (attachReturn Config.config u) := rfl

theorem exec_fifoDetach (u : Int) (s : State) :
    exec (.fifoDetach u) s = perform s u none (detachReturn Config.config u) := rfl

section
variable {C : Configuration} {u : Int} {us : UnitState}

theorem unitInRange_false_iff : unitInRange C u = false ↔ ¬(0 ≤ u ∧ u < C.numUnits) := by
  rw [← unitInRange_iff, Bool.not_eq_true]

/-- R230 line 2, after line 1. -/
theorem attachRefusal_eq_some_iff :
    attachRefusal C u us = some .attachWhileRunning ↔
      unitInRange C u = true ∧ ∃ c, (channelAt us c).state = .running := by
  rw [← someChannelRunning_iff]
  simp [attachRefusal, and_comm]

theorem attachRefusal_eq_none (h : unitInRange C u = false ∨ ∀ c, (channelAt us c).state ≠ .running) :
    attachRefusal C u us = none := by
  refine if_neg ?_
  rw [Bool.and_eq_true, someChannelRunning_iff]
  rintro ⟨⟨c, hc⟩, hslot⟩
  rcases h with hout | hidle
  · simp [hout] at hslot
  · exact hidle c hc

/-- R236: the test of `fifo_detach` fails without a slot or where nothing was ever attached. -/
theorem detachReturn_unavailable (h : unitInRange C u = false ∨ us.present = false) :
    detachReturn C u us = us.finish (.status .unavail) := by
  refine if_neg ?_
  rcases h with h | h <;> simp [h]

/-- R236 on an attached unit, active or not. -/
theorem detachReturn_attached (hslot : unitInRange C u = true) (h : us.present = true) :
    detachReturn C u us = { us with active := false }.finish (.status .ok) :=
  if_pos (by rw [h, hslot]; rfl)

/-! ## A freshly attached unit (R230) -/

theorem channelZeroed_attached (backend : Option Backend) (c : Nat) :
    ChannelZeroed (channelAt (attachedUnit C u backend us) c) := by
  rw [channelAt_attachedUnit]
  split
  · exact ⟨rfl, rfl, rfl, rfl, rfl, rfl⟩
  · exact ⟨rfl, rfl, rfl, rfl, rfl, rfl⟩

/-- R230 line 8: the command memory of an existing channel has the words of the record and no others. -/
theorem attachedUnit_cmdMem_isSome (backend : Option Backend) {c : Nat} (j : Nat)
    (hc : c < (attachedUnit C u backend us).channelCount) :
    ((channelAt (attachedUnit C u backend us) c).cmdMem.read j).isSome = true ↔
      j < (attachedUnit C u backend us).cmdMemWsize := by
  rw [attachedUnit_channelCount] at hc
  rw [channelAt_attachedUnit, if_pos hc]
  exact (existingChannelInv_attached C u us.tick _ us.tick c).memory j

end

/-- Settles O27: without a slot the call only answers, with a channel Running it is refused, and otherwise it leaves a
freshly attached unit, whose record is the backend's. -/
theorem attachOutcomes : Obligations.AttachOutcomes := by
  intro u s
  rw [exec_fifoAttach]
  refine ⟨fun hout => ?_, fun hslot hrun => ?_, fun hslot hidle => ?_⟩
  · have hout := unitInRange_false_iff.mpr hout
    exact perform_answers (attachRefusal_eq_none (.inl hout)) (by simp [attachReturn, hout])
  · exact perform_refused_iff.mpr (attachRefusal_eq_some_iff.mpr ⟨unitInRange_iff.mpr hslot, hrun⟩)
  · refine ⟨_, perform_next_iff.mpr ⟨attachRefusal_eq_none (.inr hidle), rfl⟩, onlyUnit_setUnit .., ?_⟩
    rw [unitAt_setUnit_same, attachReturn, if_pos (unitInRange_iff.mpr hslot)]
    refine ⟨fun _ => rfl, rfl, rfl, rfl, rfl, rfl, channelZeroed_attached _,
      fun _ j => attachedUnit_cmdMem_isSome _ j, ?_⟩
    cases Config.config.backendOf u with
    | none => exact ⟨rfl, rfl, rfl, rfl⟩
    | some backend => exact ⟨rfl, rfl, rfl, rfl⟩

/-- Settles O28: the call answers, or it clears `ACTIVE` whatever it was. -/
theorem detachOutcomes : Obligations.DetachOutcomes := by
  intro u s
  rw [exec_fifoDetach]
  refine ⟨fun hout => ?_, fun hslot hpresent => ?_⟩
  · exact perform_answers rfl (detachReturn_unavailable (hout.imp_left unitInRange_false_iff.mpr))
  · refine ⟨_, perform_none .., onlyUnit_setUnit .., ?_⟩
    rw [unitAt_setUnit_same, detachReturn_attached (unitInRange_iff.mpr hslot) hpresent]
    exact ⟨rfl, rfl, SameController.finish (.refl _) _, fun _ => rfl, fun _ => rfl⟩

/-! ## `PRESENT` (R237) -/

/-- An attach sets `PRESENT`, and every other change an instruction can make of its unit keeps it. -/
theorem UnitEffect.keeps_present {C : Configuration} {u : Int} {us us' : UnitState} {i : Instr}
    (he : UnitEffect C u us i us') (h : us.present = true) : us'.present = true := by
  cases he with
  | answer _ _ => exact h
  | message _ _ _ hm => rw [hm.shape]; exact h
  | attach _ _ => rfl
  | detach _ => exact h
  | init _ _ => exact h
  | send _ _ _ _ _ _ _ _ _ _ => exact h
  | start _ _ _ _ => exact h
  | stop _ _ _ _ => exact h
  | stopNothing _ _ _ _ => exact h
  | poll _ _ _ _ _ hrun hcount => rw [(sameButChannel_pollRunning hrun hcount).controller.present]; exact h

/-- One unit may be replaced by any that is `PRESENT` where it was. -/
theorem present_setUnit {s : State} {u v : Int} {us : UnitState}
    (hus : (unitAt s u).present = true → us.present = true) (h : (unitAt s v).present = true) :
    (unitAt (setUnit s u us) v).present = true := by
  by_cases hv : v = u
  · subst hv
    rw [unitAt_setUnit_same]
    exact hus h
  · rw [unitAt_setUnit_other s us hv]
    exact h

theorem exec_keeps_present {i : Instr} {s t : State} {u : Int} (hexec : exec i s = .next t)
    (h : (unitAt s u).present = true) : (unitAt t u).present = true := by
  rw [exec_onlyUnit hexec]
  exact present_setUnit (exec_effect hexec).keeps_present h

/-- Settles O55: a step is no event or one, and no instruction, engine step or read through a reference clears it. -/
theorem presentNeverCleared : Obligations.PresentNeverCleared := by
  intro s t u hstep hpresent
  rcases step_cases hstep with ⟨-, rfl⟩ | ⟨e, rest, -, hevent⟩
  · exact hpresent
  rw [← unitAt_inbox s rest] at hpresent
  rcases event_cases hevent with ⟨i, hi⟩ | ⟨v, c, -, rfl⟩ | ⟨a, b, m, -, ha, hb⟩ | ⟨v, r, rfl⟩
  · exact exec_keeps_present hi hpresent
  · exact present_setUnit (engineStep_base ..).controller.present.trans hpresent
  · exact exec_keeps_present hb (exec_keeps_present ha hpresent)
  · exact present_setUnit id hpresent

end Sys2Proof.Machine
end

section
/-! PROOFS. What an instruction does not see (10_state.md R24; 42_pio_engine.md R162, R171; 44_registry_lifecycle.md R239).
A read or a write sees no controller and no channel, and no instruction at all sees the message buffer an earlier one left.
What an operation that writes the buffer answers depends on the unit's next draw alone, and both statements rest on that. -/

namespace Sys2Proof.Machine

/-! ## Results that depend on the next draw alone -/

section
variable {C : Configuration} {u : Int} {op : MsgOpcode} {ext address : Word} {n : Nat} {words buf : List Word}
  {simPresent : Bool} {a b : UnitState}

theorem buildReturn_result {acctype dstblk : Nat} (htick : b.tick = a.tick) :
    (buildReturn C u op acctype dstblk address n words b).result =
      (buildReturn C u op acctype dstblk address n words a).result := by
  rw [buildReturn, buildReturn, htick]
  split
  · rfl
  · rfl

/-- R123 reads the response of this call, which stands in the buffer whatever was there. -/
theorem decodeReturn_result (htick : b.tick = a.tick) :
    (decodeReturn C u words n b).result = (decodeReturn C u words n a).result := by
  rw [decodeReturn, decodeReturn, htick]
  split
  · rfl
  · rfl

theorem responseReturn_result {h : HeaderFields} (htick : b.tick = a.tick) :
    (responseReturn C op u h words b).result = (responseReturn C op u h words a).result := by
  rw [responseReturn, responseReturn]
  split
  · exact decodeReturn_result htick
  · exact decodeReturn_result htick

theorem failedRead_result {st : Status} (htick : b.tick = a.tick) :
    (failedRead C u st buf b).result = (failedRead C u st buf a).result := by
  rw [failedRead, failedRead, htick]
  rfl

theorem simRead_result (htick : b.tick = a.tick) :
    (simRead C u ext address n buf b).result = (simRead C u ext address n buf a).result := by
  simp only [simRead, htick]
  split
  · rfl
  · exact failedRead_result htick

/-- R159 to R161: the exchange is asked the same, and its answer stands in the buffer whatever was there. -/
theorem busRead_result (htick : b.tick = a.tick) :
    (busRead C u ext address n buf b).result = (busRead C u ext address n buf a).result := by
  cases ha : C.exchange u a.tick (readCommand C ext address n) (1 + n) with
  | error e =>
    have hb := ha
    rw [← htick] at hb
    rw [busRead_transport ha, busRead_transport hb, htick]
  | ok answer =>
    have hb := ha
    rw [← htick] at hb
    by_cases hack : headerOpcode C.headerLayout (answer 0) = C.opcodeNumber .readMemoryAck
    · rw [busRead_acknowledged ha hack, busRead_acknowledged hb hack]
    · rw [busRead_protocol ha hack, busRead_protocol hb hack, htick]

theorem memReadReturn_result (htick : b.tick = a.tick) :
    (memReadReturn C simPresent u ext address n buf b).result =
      (memReadReturn C simPresent u ext address n buf a).result := by
  rw [memReadReturn, memReadReturn]
  split
  · rfl
  split
  · exact failedRead_result htick
  split
  · exact simRead_result htick
  · exact busRead_result htick

theorem busWrite_result (htick : b.tick = a.tick) :
    (busWrite C u ext address words n b).result = (busWrite C u ext address words n a).result := by
  cases ha : C.exchange u a.tick (writeCommand C ext address words n) 1 with
  | error e =>
    have hb := ha
    rw [← htick] at hb
    rw [busWrite_transport ha, busWrite_transport hb]
  | ok answer =>
    have hb := ha
    rw [← htick] at hb
    rw [busWrite_answered ha, busWrite_answered hb]

theorem memWriteReturn_result (htick : b.tick = a.tick) :
    (memWriteReturn C simPresent u ext address words n b).result =
      (memWriteReturn C simPresent u ext address words n a).result := by
  rw [memWriteReturn, memWriteReturn, htick]
  split
  · rfl
  split
  · rfl
  split
  · rfl
  · exact busWrite_result htick

end

/-! ## Two units that differ in the message buffer at most -/

/-- All but the message buffer is equal (R24). -/
def AlikeButMsg (a b : UnitState) : Prop := ∃ m, b = { a with msg := m }

section
variable {C : Configuration} {u c : Int} {k : Nat} {a b a' b' : UnitState}

theorem AlikeButMsg.tick_eq (h : AlikeButMsg a b) : b.tick = a.tick := by
  obtain ⟨m, rfl⟩ := h
  rfl

theorem AlikeButMsg.finish (h : AlikeButMsg a b) (r : Result) : AlikeButMsg (a.finish r) (b.finish r) := by
  obtain ⟨m, rfl⟩ := h
  exact ⟨m, rfl⟩

theorem AlikeButMsg.setChannel (h : AlikeButMsg a b) (c : Nat) (ch : Channel) :
    AlikeButMsg (setChannel a c ch) (setChannel b c ch) := by
  obtain ⟨m, rfl⟩ := h
  exact ⟨m, rfl⟩

/-- To an operation on one channel they are the same (R212, R221), whichever channel it is. -/
theorem AlikeButMsg.seenAlike (h : AlikeButMsg a b) (k : Nat) : SeenAlike k a b := by
  obtain ⟨m, rfl⟩ := h
  exact ⟨⟨rfl, rfl, rfl, rfl, rfl, rfl, rfl, rfl⟩, rfl, rfl⟩

theorem AlikeButMsg.controller (h : AlikeButMsg a b) : SameController a b := (h.seenAlike 0).controller

theorem AlikeButMsg.avail_eq (h : AlikeButMsg a b) : avail C u b = avail C u a := (h.seenAlike 0).avail_eq

/-- An operation that touches the buffer and the result alone, and gives the same result, leaves them so. -/
theorem AlikeButMsg.of_messageEffect (h : AlikeButMsg a b) (ha : MessageEffect C a a') (hb : MessageEffect C b b')
    (hresult : b'.result = a'.result) : AlikeButMsg a' b' := by
  obtain ⟨m, rfl⟩ := h
  refine ⟨b'.msg, ?_⟩
  rw [hb.shape, hresult, ha.shape]

/-! ## The registry and the controller -/

theorem AlikeButMsg.attachRefusal_eq (h : AlikeButMsg a b) : attachRefusal C u b = attachRefusal C u a := by
  obtain ⟨m, rfl⟩ := h
  rfl

theorem AlikeButMsg.attachReturn_alike (h : AlikeButMsg a b) :
    AlikeButMsg (attachReturn C u a) (attachReturn C u b) := by
  rw [attachReturn, attachReturn]
  split
  · obtain ⟨m, rfl⟩ := h
    exact ⟨m, rfl⟩
  · exact h.finish _

theorem AlikeButMsg.detachReturn_alike (h : AlikeButMsg a b) :
    AlikeButMsg (detachReturn C u a) (detachReturn C u b) := by
  rw [detachReturn, detachReturn, h.controller.present]
  split
  · obtain ⟨m, rfl⟩ := h
    exact ⟨m, rfl⟩
  · exact h.finish _

theorem AlikeButMsg.infoGetReturn_alike (h : AlikeButMsg a b) :
    AlikeButMsg (infoGetReturn C u a) (infoGetReturn C u b) := by
  rw [infoGetReturn, infoGetReturn, h.avail_eq, h.controller.channelCount, h.controller.cmdMemWsize, h.tick_eq]
  split
  · exact h.finish _
  · exact h.finish _

theorem AlikeButMsg.initRefusal_eq {flags : Word} (h : AlikeButMsg a b) :
    initRefusal C u flags b = initRefusal C u flags a := by
  rw [initRefusal, initRefusal, h.avail_eq]

theorem AlikeButMsg.initReturn_alike {maxPolls flags : Word} (h : AlikeButMsg a b) :
    AlikeButMsg (initReturn C u maxPolls flags a) (initReturn C u maxPolls flags b) := by
  rw [initReturn, initReturn, h.avail_eq]
  split
  · obtain ⟨m, rfl⟩ := h
    exact ⟨m, rfl⟩
  · exact h.finish _

/-! ## The operations on one channel -/

theorem AlikeButMsg.opsSendReturn_alike {n size : Nat} {words : Option (List Word)} (h : AlikeButMsg a b) :
    AlikeButMsg (opsSendReturn C u c n words size a) (opsSendReturn C u c n words size b) := by
  have hseen := h.seenAlike c.toNat
  rw [opsSendReturn, opsSendReturn, hseen.avail_eq, hseen.opsSendBadParam_eq, hseen.controller.cmdMemWsize, hseen.tick,
    hseen.channel]
  split
  · exact h.finish _
  split
  · exact h.finish _
  · exact (h.setChannel _ _).finish _

theorem AlikeButMsg.setStartReturn_alike {start : Bool} (h : AlikeButMsg a b) :
    AlikeButMsg (setStartReturn C u c start a) (setStartReturn C u c start b) := by
  have hseen := h.seenAlike c.toNat
  rw [setStartReturn, setStartReturn, hseen.avail_eq, hseen.badChannel_eq, hseen.tick, hseen.channel]
  split
  · exact h.finish _
  split
  · exact h.finish _
  · exact (h.setChannel _ _).finish _

theorem AlikeButMsg.failedStatusGet_alike {st : Status} {doneRef : Bool} (h : AlikeButMsg a b) :
    AlikeButMsg (failedStatusGet C u st doneRef a) (failedStatusGet C u st doneRef b) := by
  rw [failedStatusGet, failedStatusGet, h.tick_eq]
  exact h.finish _

theorem AlikeButMsg.engineStep_alike (h : AlikeButMsg a b) :
    AlikeButMsg (engineStep C u k a) (engineStep C u k b) := by
  rw [engineStep, engineStep, (h.seenAlike k).channel, h.tick_eq]
  split
  · obtain ⟨m, rfl⟩ := h
    exact ⟨m, rfl⟩
  · exact h

theorem AlikeButMsg.engineRun_alike (steps : Nat) (h : AlikeButMsg a b) :
    AlikeButMsg (engineRun C u k steps a) (engineRun C u k steps b) := by
  induction steps generalizing a b with
  | zero => exact h
  | succ steps ih => exact ih h.engineStep_alike

theorem SeenAlike.pollSteps_eq (h : SeenAlike k a b) (ch : Channel) : pollSteps C u b ch = pollSteps C u a ch := by
  rw [pollSteps, pollSteps, h.tick]

theorem SeenAlike.pollSucceeds_eq (h : SeenAlike k a b) (n : Nat) (onEntry after : Channel) :
    pollSucceeds C u b n onEntry after = pollSucceeds C u a n onEntry after := by
  rw [pollSucceeds, pollSucceeds, h.tick, h.controller.maxPolls]

theorem AlikeButMsg.pollRunning_alike {n : Nat} {doneRef : Bool} (h : AlikeButMsg a b) :
    AlikeButMsg (pollRunning C u k n doneRef a) (pollRunning C u k n doneRef b) := by
  have hseen := h.seenAlike k
  have hrun := h.engineRun_alike (C := C) (u := u) (k := k) (pollSteps C u a (channelAt a k))
  simp only [pollRunning, hseen.channel, hseen.pollSteps_eq, hseen.pollSucceeds_eq, (hrun.seenAlike k).channel,
    hrun.tick_eq]
  split
  · exact (hrun.setChannel _ _).finish _
  · exact (hrun.setChannel _ _).failedStatusGet_alike

theorem AlikeButMsg.statusGetReturn_alike {n : Nat} {doneRef : Bool} (h : AlikeButMsg a b) :
    AlikeButMsg (statusGetReturn C u c n doneRef a) (statusGetReturn C u c n doneRef b) := by
  have hseen := h.seenAlike c.toNat
  rw [statusGetReturn, statusGetReturn, hseen.avail_eq, hseen.statusGetBadParam_eq, hseen.channel]
  split
  · exact h.failedStatusGet_alike
  split
  · exact h.failedStatusGet_alike
  split
  · exact h.pollRunning_alike
  · exact h.failedStatusGet_alike
  · exact h.failedStatusGet_alike

end

/-! ## Every instruction -/

/-- A host operation of the instruction's unit whose refusal and effect do not see the message buffer. -/
def IgnoresMsg (i : Instr) : Prop :=
  ∃ (refusal : UnitState → Option Refusal) (effect : Bool → UnitState → UnitState),
    (∀ s, exec i s = perform s i.unit (refusal (unitAt s i.unit)) (effect s.simPresent)) ∧
      ∀ a b, AlikeButMsg a b → refusal b = refusal a ∧ ∀ sim, AlikeButMsg (effect sim a) (effect sim b)

/-- The operations that write the buffer, and the selector: their refusal does not see the unit at all. -/
theorem ignoresMsg_of_result {i : Instr} {refusal : Option Refusal} (effect : Bool → UnitState → UnitState)
    (heffect : ∀ sim us, MessageEffect Config.config us (effect sim us))
    (hresult : ∀ sim a b, b.tick = a.tick → (effect sim b).result = (effect sim a).result)
    (hexec : ∀ s, exec i s = perform s i.unit refusal (effect s.simPresent)) : IgnoresMsg i :=
  ⟨fun _ => refusal, effect, hexec, fun a b h =>
    ⟨rfl, fun sim => h.of_messageEffect (heffect sim a) (heffect sim b) (hresult sim a b h.tick_eq)⟩⟩

/-- An instruction that builds a command (R121). -/
theorem ignoresMsg_of_build {i : Instr} {op : MsgOpcode} {acctype dstblk n : Nat} {address : Word} {words : List Word}
    (hexec : ∀ s, exec i s = buildCommand Config.config i.unit op acctype dstblk address n words s) : IgnoresMsg i :=
  ignoresMsg_of_result (fun _ => buildReturn Config.config i.unit op acctype dstblk address n words)
    (fun _ => buildReturn_effect) (fun _ _ _ => buildReturn_result) hexec

/-- An acknowledge message (R123). -/
theorem ignoresMsg_of_response {i : Instr} {op : MsgOpcode} {h : HeaderFields} {data : List Word}
    (hexec : ∀ s, exec i s = responseMessage Config.config op i.unit h data s) : IgnoresMsg i :=
  ignoresMsg_of_result (fun _ => responseReturn Config.config op i.unit h data)
    (fun _ => responseReturn_effect Config.config op i.unit h data) (fun _ _ _ => responseReturn_result) hexec

/-- An instruction that has no meaning in any state. -/
theorem ignoresMsg_of_refused {i : Instr} {r : Refusal} (hexec : ∀ s, exec i s = .refused r) : IgnoresMsg i :=
  ⟨fun _ => some r, fun _ us => us, hexec, fun _ _ h => ⟨rfl, fun _ => h⟩⟩

/-- R121 line 1: an opcode decides alone whether a command is built. -/
theorem ignoresMsg_encodeCommand (u : Int) (opcode acctype dstblk : Nat) (address : Word) (n : Nat)
    (words : Option (List Word)) : IgnoresMsg (.encodeCommand u opcode acctype dstblk address n words) := by
  by_cases hcommand : ∃ op : MsgOpcode, op.isCommand = true ∧ (Config.config.opcodeNumber op).toNat = opcode
  · obtain ⟨op, hop, rfl⟩ := hcommand
    exact ignoresMsg_of_build fun s => exec_encodeCommand_number hop
  by_cases hwide : 64 ≤ opcode
  · exact ignoresMsg_of_refused fun s => exec_encodeCommand_wideOpcode hwide
  · exact ignoresMsg_of_refused fun s =>
      exec_encodeCommand_unknownOpcode (Nat.lt_of_not_le hwide) fun op hop hnumber => hcommand ⟨op, hop, hnumber⟩

theorem exec_ignoresMsg (i : Instr) : IgnoresMsg i := by
  cases i with
  | readMemoryCmd u h address => exact ignoresMsg_of_build fun _ => rfl
  | readMemoryAck u h data => exact ignoresMsg_of_response fun _ => rfl
  | writeMemoryCmd u h address data => exact ignoresMsg_of_build fun _ => rfl
  | writeMemoryAck u h => exact ignoresMsg_of_response fun _ => rfl
  | readRegisterCmd u h address => exact ignoresMsg_of_build fun _ => rfl
  | readRegisterAck u h data => exact ignoresMsg_of_response fun _ => rfl
  | writeRegisterCmd u h address data => exact ignoresMsg_of_build fun _ => rfl
  | writeRegisterAck u h => exact ignoresMsg_of_response fun _ => rfl
  | encodeCommand u opcode acctype dstblk address n words => exact ignoresMsg_encodeCommand ..
  | decodeResponse u asked =>
    exact ignoresMsg_of_result (refusal := none) (fun _ => decodeReturn Config.config u asked.msg asked.wordCount)
      (fun _ _ => decodeReturn_effect ..) (fun _ _ _ => decodeReturn_result) fun _ => rfl
  | selectRoute u ext address =>
    exact ignoresMsg_of_result (refusal := none)
      (fun sim us => us.finish (.route (routeOf Config.config sim u ext address))) (fun _ us => .finish _ us _)
      (fun _ _ _ _ => rfl) fun _ => rfl
  | memRead u ext address n buf =>
    exact ignoresMsg_of_result (fun sim => memReadReturn Config.config sim u ext address n buf)
      (fun _ _ => memReadReturn_effect ..) (fun _ _ _ => memReadReturn_result) fun _ => rfl
  | memWrite u ext address words n =>
    exact ignoresMsg_of_result (fun sim => memWriteReturn Config.config sim u ext address words n)
      (fun _ _ => memWriteReturn_effect ..) (fun _ _ _ => memWriteReturn_result) fun _ => rfl
  | fifoAttach u =>
    exact ⟨_, fun _ => _, exec_fifoAttach u, fun _ _ h => ⟨h.attachRefusal_eq, fun _ => h.attachReturn_alike⟩⟩
  | fifoDetach u =>
    exact ⟨fun _ => none, fun _ => _, exec_fifoDetach u, fun _ _ h => ⟨rfl, fun _ => h.detachReturn_alike⟩⟩
  | fifoInfoGet u =>
    exact ⟨fun _ => none, fun _ => _, exec_fifoInfoGet u, fun _ _ h => ⟨rfl, fun _ => h.infoGetReturn_alike⟩⟩
  | fifoInit u maxPolls flags =>
    exact ⟨_, fun _ => _, exec_fifoInit u maxPolls flags, fun _ _ h =>
      ⟨h.initRefusal_eq, fun _ => h.initReturn_alike⟩⟩
  | fifoOpsSend u c n words size flags =>
    exact ⟨_, fun _ => _, exec_fifoOpsSend u c n words size flags, fun _ _ h =>
      ⟨(h.seenAlike _).opsSendRefusal_eq, fun _ => h.opsSendReturn_alike⟩⟩
  | fifoSetStart u c start =>
    exact ⟨_, fun _ => _, exec_fifoSetStart u c start, fun _ _ h =>
      ⟨(h.seenAlike _).setStartRefusal_eq, fun _ => h.setStartReturn_alike⟩⟩
  | fifoStatusGet u c n flags doneRef =>
    exact ⟨_, fun _ => _, exec_fifoStatusGet u c n flags doneRef, fun _ _ h =>
      ⟨(h.seenAlike _).statusGetRefusal_eq, fun _ => h.statusGetReturn_alike⟩⟩

/-! ## Two states -/

/-- A host operation that is refused alike in two states, and whose two effects are related, has related outcomes. -/
theorem perform_related {s s' : State} {u : Int} {refusal : Option Refusal} {f f' : UnitState → UnitState}
    (R : UnitState → UnitState → Prop) (h : R (f (unitAt s u)) (f' (unitAt s' u))) :
    (∀ t, perform s u refusal f = .next t →
        ∃ t', perform s' u refusal f' = .next t' ∧ R (unitAt t u) (unitAt t' u)) ∧
      ∀ r, perform s u refusal f = .refused r → perform s' u refusal f' = .refused r := by
  constructor
  · intro t ht
    obtain ⟨hnone, rfl⟩ := perform_next_iff.mp ht
    refine ⟨_, perform_next_iff.mpr ⟨hnone, rfl⟩, ?_⟩
    rw [unitAt_setUnit_same, unitAt_setUnit_same]
    exact h
  · intro r hr
    exact perform_refused_iff.mpr (perform_refused_iff.mp hr)

/-- The two operations of the PIO engine are refused for their operands alone, and see the hook and the next draw. -/
theorem exec_pio_perform {i : Instr} (hi : isPio i = true) :
    ∃ (refusal : Option Refusal) (effect : Bool → UnitState → UnitState),
      (∀ s, exec i s = perform s i.unit refusal (effect s.simPresent)) ∧
        ∀ sim a b, b.tick = a.tick → (effect sim b).result = (effect sim a).result := by
  cases i with
  | memRead u ext address n buf =>
    exact ⟨_, fun sim => memReadReturn Config.config sim u ext address n buf, fun _ => rfl,
      fun _ _ _ => memReadReturn_result⟩
  | memWrite u ext address words n =>
    exact ⟨_, fun sim => memWriteReturn Config.config sim u ext address words n, fun _ => rfl,
      fun _ _ _ => memWriteReturn_result⟩
  | _ => cases hi

/-- Settles O26: the result of a read or a write is a function of what the two states share, and no instruction's refusal
or effect sees the message buffer. -/
theorem pioIgnoresController : Obligations.PioIgnoresController := by
  constructor
  · intro i s s' hi hsim htick
    obtain ⟨refusal, effect, hexec, hresult⟩ := exec_pio_perform hi
    rw [hexec, hexec, hsim]
    exact perform_related (fun a b => b.result = a.result) (hresult _ _ _ htick)
  · intro i s s' m hsim hunit
    obtain ⟨refusal, effect, hexec, halike⟩ := exec_ignoresMsg i
    obtain ⟨hrefusal, heffect⟩ := halike _ _ ⟨m, hunit⟩
    rw [hexec, hexec, hrefusal, hsim]
    obtain ⟨hnext, hrefused⟩ := perform_related AlikeButMsg (heffect s.simPresent)
    refine ⟨fun t ht => ?_, hrefused⟩
    obtain ⟨t', ht', m', hunit'⟩ := hnext t ht
    exact ⟨t', m', ht', hunit'⟩

end Sys2Proof.Machine
end

section
/-! PROOFS. What a failure is and what it leaves behind (60_exceptions.md R251 to R253, R275), and what changes `ACTIVE`
(R262). The statuses of an operation are read off its effect on its unit, one lemma per effect; what a failure leaves
unchanged is read off the kinds of change of Laws/Exec.lean. -/

namespace Sys2Proof.Machine

/-! ## No fault (R252) -/

/-- Settles O54: every instruction is a host operation, and none of those faults. -/
theorem instructionsNeverFault : Obligations.InstructionsNeverFault := by
  intro i s f
  obtain ⟨refusal, effect, hexec⟩ := exec_perform i
  rw [hexec]
  exact perform_ne_fault

/-! ## `ACTIVE` (R262) -/

/-- An attach sets `ACTIVE`, a detach clears it, and every other change an instruction can make of its unit keeps it. -/
theorem UnitEffect.active {C : Configuration} {u : Int} {us us' : UnitState} {i : Instr}
    (he : UnitEffect C u us i us') :
    us'.active = us.active ∨ i = .fifoAttach u ∧ us'.active = true ∨ i = .fifoDetach u ∧ us'.active = false := by
  cases he with
  | answer _ _ => exact .inl rfl
  | message _ _ _ hm => exact .inl (by rw [hm.shape])
  | attach _ _ => exact .inr (.inl ⟨rfl, rfl⟩)
  | detach _ => exact .inr (.inr ⟨rfl, rfl⟩)
  | init _ _ => exact .inl rfl
  | send _ _ _ _ _ _ _ _ _ _ => exact .inl rfl
  | start _ _ _ _ => exact .inl rfl
  | stop _ _ _ _ => exact .inl rfl
  | stopNothing _ _ _ _ => exact .inl rfl
  | poll _ _ _ _ _ hrun hcount => exact .inl (sameButChannel_pollRunning hrun hcount).controller.active

/-- Settles O56: a unit with another `ACTIVE` is the instruction's own (O48), and there it is an attach or a detach. -/
theorem activeChangesByAttachDetach : Obligations.ActiveChangesByAttachDetach := by
  intro i s t u hexec hchanged
  obtain rfl : u = i.unit := by
    by_contra hother
    exact hchanged (by rw [(unitsWriteOnlyOwn i s t hexec).others u hother])
  exact (exec_effect hexec).active.resolve_left hchanged

/-! ## The statuses of the codec, the registry and the controller -/

/-- The caller is given a status, and it is one of those. -/
def GivesOneOf (sts : List Status) (us : UnitState) : Prop := ∃ st ∈ sts, us.result.status? = some st

/-- What a host operation leaves at its unit is its effect. -/
theorem unitAt_of_perform {s t : State} {u : Int} {refusal : Option Refusal} {effect : UnitState → UnitState}
    (h : perform s u refusal effect = .next t) : unitAt t u = effect (unitAt s u) := by
  obtain ⟨-, rfl⟩ := perform_next_iff.mp h
  exact unitAt_setUnit_same ..

theorem givesOneOf_of_perform {sts : List Status} {s t : State} {u : Int} {refusal : Option Refusal}
    {effect : UnitState → UnitState} (h : perform s u refusal effect = .next t)
    (heffect : ∀ us, GivesOneOf sts (effect us)) : GivesOneOf sts (unitAt t u) := by
  rw [unitAt_of_perform h]
  exact heffect _

theorem givesOneOf_finish {sts : List Status} {r : Result} {st : Status} (us : UnitState) (hr : r.status? = some st)
    (hst : st ∈ sts) : GivesOneOf sts (us.finish r) := ⟨st, hst, hr⟩

section
variable {C : Configuration} {u c : Int} {op : MsgOpcode} {n : Nat}

theorem buildReturn_status {acctype dstblk : Nat} {address : Word} {words : List Word} (us : UnitState) :
    GivesOneOf [.ok, .param] (buildReturn C u op acctype dstblk address n words us) := by
  unfold buildReturn
  split
  · exact givesOneOf_finish us rfl (by simp)
  · exact givesOneOf_finish _ rfl (by simp)

theorem decodeReturn_status {response : List Word} (us : UnitState) :
    GivesOneOf [.ok, .param] (decodeReturn C u response n us) := by
  unfold decodeReturn
  split
  · exact givesOneOf_finish us rfl (by simp)
  · exact givesOneOf_finish us rfl (by simp)

theorem responseReturn_status {h : HeaderFields} {data : List Word} (us : UnitState) :
    GivesOneOf [.ok, .param] (responseReturn C op u h data us) := by
  unfold responseReturn
  split
  · exact decodeReturn_status us
  · exact decodeReturn_status _

theorem attachReturn_status (us : UnitState) : GivesOneOf [.ok, .unavail] (attachReturn C u us) := by
  unfold attachReturn
  split
  · exact givesOneOf_finish _ rfl (by simp)
  · exact givesOneOf_finish us rfl (by simp)

theorem detachReturn_status (us : UnitState) : GivesOneOf [.ok, .unavail] (detachReturn C u us) := by
  unfold detachReturn
  split
  · exact givesOneOf_finish _ rfl (by simp)
  · exact givesOneOf_finish us rfl (by simp)

theorem infoGetReturn_status (us : UnitState) : GivesOneOf [.ok, .unavail] (infoGetReturn C u us) := by
  unfold infoGetReturn
  split
  · exact givesOneOf_finish us rfl (by simp)
  · exact givesOneOf_finish us rfl (by simp)

theorem initReturn_status {maxPolls flags : Word} (us : UnitState) :
    GivesOneOf [.ok, .unavail] (initReturn C u maxPolls flags us) := by
  unfold initReturn
  split
  · exact givesOneOf_finish _ rfl (by simp)
  · exact givesOneOf_finish us rfl (by simp)

theorem opsSendReturn_status {words : Option (List Word)} {size : Nat} (us : UnitState) :
    GivesOneOf [.ok, .param, .unavail] (opsSendReturn C u c n words size us) := by
  unfold opsSendReturn
  split
  · exact givesOneOf_finish us rfl (by simp)
  split
  · exact givesOneOf_finish us rfl (by simp)
  · exact givesOneOf_finish _ rfl (by simp)

theorem setStartReturn_status {start : Bool} (us : UnitState) :
    GivesOneOf [.ok, .param, .unavail] (setStartReturn C u c start us) := by
  unfold setStartReturn
  split
  · exact givesOneOf_finish us rfl (by simp)
  split
  · exact givesOneOf_finish us rfl (by simp)
  · exact givesOneOf_finish _ rfl (by simp)

/-- `E_TIMEOUT` comes from a poll, or at once from a channel that is not Running (R250). -/
theorem statusGetReturn_status {doneRef : Bool} (us : UnitState) :
    GivesOneOf [.ok, .param, .unavail, .timeout] (statusGetReturn C u c n doneRef us) := by
  unfold statusGetReturn
  split
  · exact givesOneOf_finish us rfl (by simp)
  split
  · exact givesOneOf_finish us rfl (by simp)
  split
  · rcases pollRunning_status C u c.toNat n doneRef us with hok | htimeout
    · exact ⟨.ok, by simp, hok⟩
    · exact ⟨.timeout, by simp, htimeout⟩
  · exact givesOneOf_finish us rfl (by simp)
  · exact givesOneOf_finish us rfl (by simp)

end

/-! ## The statuses of the PIO engine -/

/-- What `mem_read` and `mem_write` may give (R275): without a hook neither `E_UNAVAIL` nor `E_TIMEOUT`, and with or
without one no transport failure but one of P17's (R251). -/
structure PioStatus (C : Configuration) (simPresent : Bool) (st : Status) : Prop where
  unhooked : simPresent = false → st ≠ .unavail ∧ st ≠ .timeout
  transport : ∀ e, st = .transport e → C.isTransportErr e = true

/-- The caller is given a status of the PIO engine. -/
def GivesPioStatus (C : Configuration) (simPresent : Bool) (us : UnitState) : Prop :=
  ∃ st, us.result.status? = some st ∧ PioStatus C simPresent st

section
variable {C : Configuration} {u : Int} {ext address : Word} {n : Nat} {words buf : List Word} {simPresent : Bool}
  {st : Status} {us : UnitState}

theorem pioStatus_local (h : st = .ok ∨ st = .param ∨ st = .protocol) : PioStatus C simPresent st := by
  rcases h with rfl | rfl | rfl
  · exact ⟨fun _ => by decide, nofun⟩
  · exact ⟨fun _ => by decide, nofun⟩
  · exact ⟨fun _ => by decide, nofun⟩

/-- R251: the exchange layer's failure is passed on. -/
theorem pioStatus_exchange {k m : Nat} {cmd : List Word} {e : TransportErr} (h : C.exchange u k cmd m = .error e) :
    PioStatus C simPresent (.transport e) :=
  { unhooked := fun _ => ⟨nofun, nofun⟩
    transport := fun _ he => Status.transport.inj he ▸ exchange_transport (exchangeWords_error h) }

/-- R275: a hook chooses its status itself, within P17 where it is a transport failure (log 17). -/
theorem pioStatus_hook (C : Configuration) (st : Status) : PioStatus C true (C.hookStatus st) :=
  { unhooked := nofun, transport := fun _ => hookStatus_transport }

/-- The hook's status is the read's. -/
theorem simRead_status : (simRead C u ext address n buf us).result.status? =
    some (C.hookRead u us.tick (C.tagMem ext address) address (buf.take n) (byteSize n)).1 := by
  simp only [simRead]
  split
  next hok => rw [hok]; rfl
  next => rfl

theorem busRead_status : GivesPioStatus C simPresent (busRead C u ext address n buf us) := by
  cases hexchange : C.exchange u us.tick (readCommand C ext address n) (1 + n) with
  | error e => exact ⟨_, congrArg Result.status? (busRead_transport hexchange), pioStatus_exchange hexchange⟩
  | ok answer =>
    by_cases hack : headerOpcode C.headerLayout (answer 0) = C.opcodeNumber .readMemoryAck
    · exact ⟨_, congrArg Result.status? (busRead_acknowledged hexchange hack), pioStatus_local (.inl rfl)⟩
    · exact ⟨_, congrArg Result.status? (busRead_protocol hexchange hack), pioStatus_local (.inr (.inr rfl))⟩

theorem memReadReturn_status : GivesPioStatus C simPresent (memReadReturn C simPresent u ext address n buf us) := by
  by_cases hroute : C.isBypassed u ext address = true
  · rw [memReadReturn_bypassed hroute]
    exact ⟨_, rfl, pioStatus_local (.inl rfl)⟩
  by_cases hn : n ≤ C.respCapacity
  · rw [memReadReturn_within hroute hn]
    cases simPresent with
    | true => exact ⟨_, simRead_status, pioStatus_hook ..⟩
    | false => exact busRead_status
  · rw [memReadReturn_over hroute (Nat.lt_of_not_le hn)]
    exact ⟨_, rfl, pioStatus_local (.inr (.inl rfl))⟩

theorem busWrite_status : GivesPioStatus C simPresent (busWrite C u ext address words n us) := by
  cases hexchange : C.exchange u us.tick (writeCommand C ext address words n) 1 with
  | error e => exact ⟨_, congrArg Result.status? (busWrite_transport hexchange), pioStatus_exchange hexchange⟩
  | ok answer =>
    refine ⟨_, congrArg Result.status? (busWrite_answered hexchange), ?_⟩
    split
    · exact pioStatus_local (.inl rfl)
    · exact pioStatus_local (.inr (.inr rfl))

theorem memWriteReturn_status :
    GivesPioStatus C simPresent (memWriteReturn C simPresent u ext address words n us) := by
  by_cases hroute : C.isBypassed u ext address = true
  · rw [memWriteReturn_bypassed hroute]
    exact ⟨_, rfl, pioStatus_local (.inl rfl)⟩
  by_cases hn : n ≤ C.respCapacity
  · rw [memWriteReturn_within hroute hn]
    cases simPresent with
    | true => exact ⟨_, rfl, pioStatus_hook ..⟩
    | false => exact busWrite_status
  · rw [memWriteReturn_over hroute (Nat.lt_of_not_le hn)]
    exact ⟨_, rfl, pioStatus_local (.inr (.inl rfl))⟩

end

/-! ## The table (R275) -/

/-- The status stands in the instruction's row, unless an installed hook chose it, and a transport failure is one of
P17's. -/
structure StatusOfRow (i : Instr) (simPresent : Bool) (st : Status) : Prop where
  row : ¬(isPio i = true ∧ simPresent = true) → mayReturn i st = true
  transport : ∀ e, st = .transport e → Config.config.isTransportErr e = true

/-- The caller is given a status of the instruction's row. -/
def GivesRow (i : Instr) (simPresent : Bool) (us : UnitState) : Prop :=
  ∃ st, us.result.status? = some st ∧ StatusOfRow i simPresent st

/-- An operation that makes no exchange gives no transport failure. -/
theorem GivesOneOf.givesRow {sts : List Status} {us : UnitState} {i : Instr} {simPresent : Bool}
    (h : GivesOneOf sts us) (hrow : ∀ st ∈ sts, mayReturn i st = true ∧ ∀ e, st ≠ .transport e) :
    GivesRow i simPresent us := by
  obtain ⟨st, hmem, hst⟩ := h
  obtain ⟨hmay, hlocal⟩ := hrow st hmem
  exact ⟨st, hst, fun _ => hmay, fun e he => absurd he (hlocal e)⟩

theorem GivesPioStatus.givesRow {us : UnitState} {i : Instr} {simPresent : Bool}
    (h : GivesPioStatus Config.config simPresent us) (hpio : isPio i = true)
    (hrow : ∀ st, st ≠ .unavail ∧ st ≠ .timeout → mayReturn i st = true) : GivesRow i simPresent us := by
  obtain ⟨st, hst, hunhooked, htransport⟩ := h
  exact ⟨st, hst, fun hno => hrow st (hunhooked (Bool.eq_false_iff.mpr fun hsim => hno ⟨hpio, hsim⟩)), htransport⟩

theorem commandMessage_status {op : MsgOpcode} {u : Int} {h : HeaderFields} {address : Word} {data : List Word}
    {s t : State} (hexec : commandMessage Config.config op u h address data s = .next t) :
    GivesOneOf [.ok, .param] (unitAt t u) := givesOneOf_of_perform hexec buildReturn_status

theorem responseMessage_status {op : MsgOpcode} {u : Int} {h : HeaderFields} {data : List Word}
    {s t : State} (hexec : responseMessage Config.config op u h data s = .next t) :
    GivesOneOf [.ok, .param] (unitAt t u) :=
  givesOneOf_of_perform (refusal := none) (effect := responseReturn _ op u h data) hexec responseReturn_status

/-- Every instruction but `select_route` gives a status of its row. -/
theorem exec_givesRow {i : Instr} {s t : State} (h : exec i s = .next t)
    (hroute : ∀ u ext address, i ≠ .selectRoute u ext address) : GivesRow i s.simPresent (unitAt t i.unit) := by
  cases i with
  | readMemoryCmd u hd address => exact (commandMessage_status h).givesRow (by simp [mayReturn])
  | readMemoryAck u hd data => exact (responseMessage_status h).givesRow (by simp [mayReturn])
  | writeMemoryCmd u hd address data => exact (commandMessage_status h).givesRow (by simp [mayReturn])
  | writeMemoryAck u hd => exact (responseMessage_status h).givesRow (by simp [mayReturn])
  | readRegisterCmd u hd address => exact (commandMessage_status h).givesRow (by simp [mayReturn])
  | readRegisterAck u hd data => exact (responseMessage_status h).givesRow (by simp [mayReturn])
  | writeRegisterCmd u hd address data => exact (commandMessage_status h).givesRow (by simp [mayReturn])
  | writeRegisterAck u hd => exact (responseMessage_status h).givesRow (by simp [mayReturn])
  | encodeCommand u opcode acctype dstblk address n words =>
    obtain ⟨op, -, -, hbuild⟩ := encodeCommand_next h
    exact (givesOneOf_of_perform hbuild buildReturn_status).givesRow (by simp [mayReturn])
  | decodeResponse u asked =>
    exact (givesOneOf_of_perform (refusal := none) (effect := decodeReturn _ u asked.msg asked.wordCount) h
      decodeReturn_status).givesRow (by simp [mayReturn])
  | selectRoute u ext address => exact absurd rfl (hroute u ext address)
  | memRead u ext address n buf =>
    rw [Instr.unit, unitAt_of_perform h]
    exact memReadReturn_status.givesRow rfl (by simp [mayReturn])
  | memWrite u ext address words n =>
    rw [Instr.unit, unitAt_of_perform h]
    exact memWriteReturn_status.givesRow rfl (by simp [mayReturn])
  | fifoAttach u =>
    rw [exec_fifoAttach] at h
    exact (givesOneOf_of_perform h attachReturn_status).givesRow (by simp [mayReturn])
  | fifoDetach u =>
    rw [exec_fifoDetach] at h
    exact (givesOneOf_of_perform h detachReturn_status).givesRow (by simp [mayReturn])
  | fifoInfoGet u =>
    rw [exec_fifoInfoGet] at h
    exact (givesOneOf_of_perform h infoGetReturn_status).givesRow (by simp [mayReturn])
  | fifoInit u maxPolls flags =>
    rw [exec_fifoInit] at h
    exact (givesOneOf_of_perform h initReturn_status).givesRow (by simp [mayReturn])
  | fifoOpsSend u c n words size flags =>
    rw [exec_fifoOpsSend] at h
    exact (givesOneOf_of_perform h opsSendReturn_status).givesRow (by simp [mayReturn])
  | fifoSetStart u c start =>
    rw [exec_fifoSetStart] at h
    exact (givesOneOf_of_perform h setStartReturn_status).givesRow (by simp [mayReturn])
  | fifoStatusGet u c n flags doneRef =>
    rw [exec_fifoStatusGet] at h
    exact (givesOneOf_of_perform h statusGetReturn_status).givesRow (by simp [mayReturn])

/-- `select_route` gives a route and no status (R142). -/
theorem selectRoute_status {u : Int} {ext address : Word} {s t : State}
    (h : exec (.selectRoute u ext address) s = .next t) : (unitAt t u).result.status? = none := by
  rw [exec_selectRoute] at h
  cases h
  rw [result_setUnit_finish]
  rfl

/-- Settles O52: `select_route` gives no status, and every other instruction one of its row. -/
theorem statusesByOperation : Obligations.StatusesByOperation := by
  intro i s t h
  by_cases hroute : ∀ u ext address, i ≠ .selectRoute u ext address
  · obtain ⟨st, hst, hrow, htransport⟩ := exec_givesRow h hroute
    have honly : ∀ st', (unitAt t i.unit).result.status? = some st' → st = st' := fun st' hst' =>
      Option.some.inj (hst.symm.trans hst')
    refine ⟨iff_of_true ⟨st, hst⟩ hroute, fun st' hst' => ?_, fun e he => htransport e (honly _ he)⟩
    rw [← honly st' hst']
    exact hrow
  · obtain ⟨u, ext, address, rfl⟩ : ∃ u ext address, i = .selectRoute u ext address := by
      simpa only [not_forall, not_not] using hroute
    have hnone : ∀ st, (unitAt t u).result.status? ≠ some st := fun st => by
      rw [selectRoute_status h]
      nofun
    exact ⟨iff_of_false (fun ⟨st, hst⟩ => hnone st hst) hroute, fun st hst => absurd hst (hnone st),
      fun e he => absurd he (hnone _)⟩

/-! ## What a failure leaves behind (R253) -/

/-- A change of the unit that the caller is told failed, and not by a time-out, touches the message buffer at most: every
operation that writes a controller field or a channel answers `OK`, but for a poll, which may time out. -/
theorem UnitEffect.messageEffect_of_failed {C : Configuration} {u : Int} {us us' : UnitState} {i : Instr} {st : Status}
    (he : UnitEffect C u us i us') (hst : us'.result.status? = some st) (hok : st ≠ .ok) (htimeout : st ≠ .timeout) :
    MessageEffect C us us' := by
  have hnot_ok : us'.result.status? ≠ some .ok := fun h => hok (Option.some.inj (hst.symm.trans h))
  cases he with
  | answer _ r => exact .finish C us r
  | message _ _ _ hm => exact hm
  | attach _ _ => exact absurd rfl hnot_ok
  | detach _ => exact absurd rfl hnot_ok
  | init _ _ => exact absurd rfl hnot_ok
  | send _ _ _ _ _ _ _ _ _ _ => exact absurd rfl hnot_ok
  | start _ _ _ _ => exact absurd rfl hnot_ok
  | stop _ _ _ _ => exact absurd rfl hnot_ok
  | stopNothing _ _ _ _ => exact absurd rfl hnot_ok
  | poll c n _ _ _ _ _ =>
    rcases pollRunning_status C u c n true us with h | h
    · exact absurd h hnot_ok
    · exact absurd (Option.some.inj (hst.symm.trans h)) htimeout

/-- A parameter error or an unavailable unit leaves the message buffer alone too. -/
theorem MessageEffect.answerFrame {C : Configuration} {s : State} {u : Int} {us' : UnitState}
    (h : MessageEffect C (unitAt s u) us')
    (hst : us'.result.status? = some .param ∨ us'.result.status? = some .unavail) :
    AnswerFrame u s (setUnit s u us') where
  message := h.messageFrame
  msg i := by rw [unitAt_setUnit_same, msgWord, h.kept hst, msgWord]

/-- The only row of R275 with `E_TIMEOUT` is `fifo_status_get`'s. -/
theorem channelOf_of_mayReturn_timeout {i : Instr} (h : mayReturn i .timeout = true) : ∃ c, channelOf i = some c := by
  cases i with
  | fifoStatusGet u c n flags doneRef => exact ⟨c, rfl⟩
  | _ => simp [mayReturn] at h

/-- Settles O53: a failure that is no time-out touches the message buffer at most, and a time-out that no hook gave is
the answer of an operation on one channel, which leaves the others alone (O46). -/
theorem failuresLeaveState : Obligations.FailuresLeaveState := by
  intro i s t st hexec hst
  have hfailed := (exec_effect hexec).messageEffect_of_failed hst
  have hat : setUnit s i.unit (unitAt t i.unit) = t := (exec_onlyUnit hexec).symm
  refine ⟨fun hlocal => ?_, fun hbus => ?_, fun htimeout => ?_⟩
  · have hmessage := hfailed (by rintro rfl; simp at hlocal) (by rintro rfl; simp at hlocal)
    rw [← hat]
    exact hmessage.answerFrame (by rw [hst]; exact hlocal.imp (congrArg some) (congrArg some))
  · have hmessage := hfailed (by rintro rfl; simp at hbus) (by rintro rfl; simp at hbus)
    rw [← hat]
    exact hmessage.messageFrame
  · subst htimeout
    refine Classical.or_iff_not_imp_left.mpr fun hpio => ?_
    have hrow := (statusesByOperation i s t hexec).2.1 _ hst fun ⟨h, _⟩ => hpio h
    obtain ⟨c, hc⟩ := channelOf_of_mayReturn_timeout hrow
    exact ⟨c, hc, channelsWriteOnlyOwn i c s t hc hexec⟩

end Sys2Proof.Machine
end
